-- ==== Sys2Proof/Word.lean ====
section
/-! DEFINITION. Word.lean: the basic types of the block (spec/00_scope.md R6, R7, R10). -/

namespace Sys2Proof

/-- A byte is an octet (R5 `BYTE`, R6: bit 7 is the most significant). -/
abbrev Byte := BitVec 8

/-- DOC0's byte buffer: a finite sequence of octets, index 0 first (R7). -/
abbrev Buf := List Byte

/-- An MSP code, "A 16-bit unsigned identifier" (R10). -/
abbrev Code := BitVec 16

/-- A value of the format binary32, held as its interchange encoding (R100, log 13). -/
abbrev F32 := BitVec 32

/-- A value of the format binary64, held as its interchange encoding (R100, log 13). -/
abbrev F64 := BitVec 64

/-- The two on-wire variants (R10). `VER` is one bit, 0 for V1 and 1 for V2 (R21). -/
inductive Version where
  | v1
  | v2
deriving DecidableEq, Repr

/-- `other(V1) = V2`, `other(V2) = V1` (43_framer_rx.md R181). -/
def Version.other : Version → Version
  | .v1 => .v2
  | .v2 => .v1

/-- The codec's integer types (R10). -/
inductive IntType where
  | u8 | i8 | u16 | i16 | u32 | i32 | u64 | i64
deriving DecidableEq, Repr

/-- `size(T)` in bytes (R10). -/
def IntType.size : IntType → Nat
  | .u8 | .i8 => 1
  | .u16 | .i16 => 2
  | .u32 | .i32 => 4
  | .u64 | .i64 => 8

/-- `signed(T)` (R10). -/
def IntType.signed : IntType → Bool
  | .u8 | .u16 | .u32 | .u64 => false
  | .i8 | .i16 | .i32 | .i64 => true

end Sys2Proof
end

