-- ==== Sys2Proof/Config.lean ====
section
/-! DEFINITION. Config.lean: the implementation parameters of spec/00_scope.md R5, the frame constants of
30_encoding.md R61, the arguments a machine is built with, and the free values: constants with no body, of which nothing can be proved. -/

namespace Sys2Proof

namespace Machine

/-- R5 `cvt` and `fmul`: the float arithmetic DECODE_FLOAT uses. `ieee` is the default of decision D13; `other n` is any
arithmetic whatever, of which nothing is known but that it is a function of its operands (40_codec.md R100; log 13). -/
inductive FloatArith where
  | ieee
  | other (n : Nat)
deriving DecidableEq, Repr

/-- The float formats the opcode map has a place for: the two values of the float field `f` (30_encoding.md R72). -/
inductive FloatType where
  | f32
  | f64
deriving DecidableEq, Repr

/-- The parameters of R5 that are arguments of every operation (log 24). `none` is "unbounded". -/
structure Params where
  /-- `FLOAT_TYPES`, the result formats of DECODE_FLOAT (log 26) -/
  floatTypes : List FloatType
  /-- `cvt` and `fmul` -/
  floats : FloatArith
  /-- `BUFCAP`, the capacity of a byte buffer -/
  bufCap : Option Nat
  /-- `OFFW`, the width of an offset operand in bits -/
  offW : Option Nat
deriving DecidableEq, Repr

/-- The default R5 chooses for each. -/
def Params.default : Params :=
  { floatTypes := [.f32, .f64], floats := .ieee, bufCap := none, offW := none }

end Machine

namespace Config

/-- R5 `MAXP_V1`: maximum payload under V1. -/
def MAXP_V1 : Nat := 255

/-- R5 `MAXP_V2`: maximum payload under V2. -/
def MAXP_V2 : Nat := 65535

/-- R5 `CRC_POLY`, the generator in MSB-first form. -/
def CRC_POLY : Byte := 0xD5

/-- R5 `CRC_INIT`. (`CRC_XOROUT` is 0x00: "no final XOR", so nothing is folded in at the end.) -/
def CRC_INIT : Byte := 0x00

/-- R5 `RESET_VERSION`, a parameter of the block with default V1 (R31; log 6). -/
def RESET_VERSION : Version := .v1

/-- R61 `SOF`, the character `$`. -/
def SOF : Byte := 0x24

/-- R61 `VAR_V1`, the character `M`. -/
def VAR_V1 : Byte := 0x4D

/-- R61 `VAR_V2`, the character `X`. -/
def VAR_V2 : Byte := 0x58

/-- R61 `DIR_REQ`, the character `<`. -/
def DIR_REQ : Byte := 0x3C

/-- R61 `DIR_RSP`, the character `>`. The receiver tests for `DIR_ERR` only (R64), so nothing reads it. -/
def DIR_RSP : Byte := 0x3E

/-- R61 `DIR_ERR`, the character `!`. -/
def DIR_ERR : Byte := 0x21

/-- FREE VALUE (log 14). The sign and fraction bits of a NaN product in binary32: R100 says the result is
NaN and gives no bits; it depends on the operands alone. -/
opaque freeNaN32 : F32 → F32 → F32

/-- FREE VALUE (log 14). The same in binary64. -/
opaque freeNaN64 : F64 → F64 → F64

/-- FREE VALUE (log 13). `cvt` of the arithmetic `other n`, into binary32. -/
opaque otherCvt32 : Nat → IntType → Int → F32

/-- FREE VALUE (log 13). `cvt` of the arithmetic `other n`, into binary64. -/
opaque otherCvt64 : Nat → IntType → Int → F64

/-- FREE VALUE (log 13). `fmul` of the arithmetic `other n` in binary32. -/
opaque otherFmul32 : Nat → F32 → F32 → F32

/-- FREE VALUE (log 13). `fmul` of the arithmetic `other n` in binary64. -/
opaque otherFmul64 : Nat → F64 → F64 → F64

/-- FREE VALUE (log 11). The 8-bit working registers after a failed receive (10_state.md R25). -/
opaque freeByte : Nat → Byte

/-- FREE VALUE (log 11). The 16-bit working registers after a failed receive. -/
opaque freeWord : Nat → BitVec 16

/-- FREE VALUE (log 11). The payload register `DATA` after a failed receive. -/
opaque freeBuf : Nat → Buf

end Config

end Sys2Proof
end

