-- ==== Sys2Proof/Syntax.lean ====
section
/-! DEFINITION. Syntax.lean: the block's 45 operations with their typed operands (spec/30_encoding.md R71 to
R73, spec/opcode_table.json), and a command as it stands on the CMD port. -/

namespace Sys2Proof

/-- One operation of the block with its operands, one constructor per row of spec/opcode_table.json. -/
inductive Instr where
  -- 40_codec.md R92 to R99
  | decodeIntU8 (buf : Buf) (offset : Nat)
  | decodeIntI8 (buf : Buf) (offset : Nat)
  | decodeIntU16 (buf : Buf) (offset : Nat)
  | decodeIntI16 (buf : Buf) (offset : Nat)
  | decodeIntU32 (buf : Buf) (offset : Nat)
  | decodeIntI32 (buf : Buf) (offset : Nat)
  | decodeIntU64 (buf : Buf) (offset : Nat)
  | decodeIntI64 (buf : Buf) (offset : Nat)
  -- 40_codec.md R110 to R117
  | encodeIntU8 (value : Int) (outBuf : Buf)
  | encodeIntI8 (value : Int) (outBuf : Buf)
  | encodeIntU16 (value : Int) (outBuf : Buf)
  | encodeIntI16 (value : Int) (outBuf : Buf)
  | encodeIntU32 (value : Int) (outBuf : Buf)
  | encodeIntI32 (value : Int) (outBuf : Buf)
  | encodeIntU64 (value : Int) (outBuf : Buf)
  | encodeIntI64 (value : Int) (outBuf : Buf)
  -- 40_codec.md R101 to R108, into binary32
  | decodeFloatU8F32 (buf : Buf) (offset : Nat) (scale : F32)
  | decodeFloatI8F32 (buf : Buf) (offset : Nat) (scale : F32)
  | decodeFloatU16F32 (buf : Buf) (offset : Nat) (scale : F32)
  | decodeFloatI16F32 (buf : Buf) (offset : Nat) (scale : F32)
  | decodeFloatU32F32 (buf : Buf) (offset : Nat) (scale : F32)
  | decodeFloatI32F32 (buf : Buf) (offset : Nat) (scale : F32)
  | decodeFloatU64F32 (buf : Buf) (offset : Nat) (scale : F32)
  | decodeFloatI64F32 (buf : Buf) (offset : Nat) (scale : F32)
  -- 40_codec.md R101 to R108, into binary64
  | decodeFloatU8F64 (buf : Buf) (offset : Nat) (scale : F64)
  | decodeFloatI8F64 (buf : Buf) (offset : Nat) (scale : F64)
  | decodeFloatU16F64 (buf : Buf) (offset : Nat) (scale : F64)
  | decodeFloatI16F64 (buf : Buf) (offset : Nat) (scale : F64)
  | decodeFloatU32F64 (buf : Buf) (offset : Nat) (scale : F64)
  | decodeFloatI32F64 (buf : Buf) (offset : Nat) (scale : F64)
  | decodeFloatU64F64 (buf : Buf) (offset : Nat) (scale : F64)
  | decodeFloatI64F64 (buf : Buf) (offset : Nat) (scale : F64)
  -- 41_checksum.md R131, R134 to R137
  | xor8Buf (buf : Buf)
  | crc8Buf (buf : Buf)
  | crcClr
  | crcUpd (byte : Byte)
  | crcRd
  -- 42_framer_tx.md R152, R153
  | pack (version : Version) (code : Code) (data : Buf)
  | send (code : Code) (data : Buf)
  -- 43_framer_rx.md R182, R183
  | unpack (version : Version) (frame : Buf)
  | recv
  -- 44_control.md R200 to R203
  | setVer (version : Version)
  | getVer
  | getMaxp
  | flush
deriving DecidableEq, Repr

/-- One typed operand on the CMD port (R71: "a `Buf`, an offset, an integer of type `T`, a `Version`, a
`Code`, a float of type `F`, a `Byte`"). -/
inductive Operand where
  | buf (b : Buf)
  | offset (n : Nat)
  | int (v : Int)
  | version (v : Version)
  | code (c : Code)
  | f32 (x : F32)
  | f64 (x : F64)
  | byte (b : Byte)
deriving DecidableEq, Repr

/-- A command on the CMD port: one opcode byte, "presented together with the operation's operands as typed
values" (R71), the operands in the order of R73. -/
structure Command where
  op : Byte
  operands : List Operand
deriving DecidableEq, Repr

end Sys2Proof
end

