-- ==== Sys2Proof/WellFormed.lean ====
section
/-! DEFINITION. WellFormed.lean: which terms of `Instr` are operations the spec lets a host write down. The
one condition the types do not carry is that an ENCODE_INT value lies in range(T) (spec/40_codec.md R109:
"an operand outside `range(T)` cannot be written down"). -/

namespace Sys2Proof

/-- The least value of range(T) (R10). -/
def IntType.minVal (T : IntType) : Int :=
  if T.signed then -((2 : Int) ^ (8 * T.size - 1)) else 0

/-- The greatest value of range(T) (R10). -/
def IntType.maxVal (T : IntType) : Int :=
  if T.signed then (2 : Int) ^ (8 * T.size - 1) - 1 else (2 : Int) ^ (8 * T.size) - 1

/-- `v` lies in range(T) (R10). -/
def IntType.inRange (T : IntType) (v : Int) : Bool :=
  decide (T.minVal ≤ v) && decide (v ≤ T.maxVal)

/-- The operation is one a host can write down. -/
def Instr.wellFormed : Instr → Bool
  | .decodeIntU8 _ _ => true
  | .decodeIntI8 _ _ => true
  | .decodeIntU16 _ _ => true
  | .decodeIntI16 _ _ => true
  | .decodeIntU32 _ _ => true
  | .decodeIntI32 _ _ => true
  | .decodeIntU64 _ _ => true
  | .decodeIntI64 _ _ => true
  | .encodeIntU8 value _ => IntType.inRange .u8 value
  | .encodeIntI8 value _ => IntType.inRange .i8 value
  | .encodeIntU16 value _ => IntType.inRange .u16 value
  | .encodeIntI16 value _ => IntType.inRange .i16 value
  | .encodeIntU32 value _ => IntType.inRange .u32 value
  | .encodeIntI32 value _ => IntType.inRange .i32 value
  | .encodeIntU64 value _ => IntType.inRange .u64 value
  | .encodeIntI64 value _ => IntType.inRange .i64 value
  | .decodeFloatU8F32 _ _ _ => true
  | .decodeFloatI8F32 _ _ _ => true
  | .decodeFloatU16F32 _ _ _ => true
  | .decodeFloatI16F32 _ _ _ => true
  | .decodeFloatU32F32 _ _ _ => true
  | .decodeFloatI32F32 _ _ _ => true
  | .decodeFloatU64F32 _ _ _ => true
  | .decodeFloatI64F32 _ _ _ => true
  | .decodeFloatU8F64 _ _ _ => true
  | .decodeFloatI8F64 _ _ _ => true
  | .decodeFloatU16F64 _ _ _ => true
  | .decodeFloatI16F64 _ _ _ => true
  | .decodeFloatU32F64 _ _ _ => true
  | .decodeFloatI32F64 _ _ _ => true
  | .decodeFloatU64F64 _ _ _ => true
  | .decodeFloatI64F64 _ _ _ => true
  | .xor8Buf _ => true
  | .crc8Buf _ => true
  | .crcClr => true
  | .crcUpd _ => true
  | .crcRd => true
  | .pack _ _ _ => true
  | .send _ _ => true
  | .unpack _ _ => true
  | .recv => true
  | .setVer _ => true
  | .getVer => true
  | .getMaxp => true
  | .flush => true

end Sys2Proof
end

