-- ==== Sys2Proof/Decode.lean ====
section
/-! DEFINITION. Decode.lean: the command decoder, total on every opcode byte and operand list, rejecting by
name, and the encoder beside it (spec/30_encoding.md R71 to R74; the opcode values are the spec's decision D3). -/

namespace Sys2Proof

/-- Why a command is no operation. `illegalOpcode`: the byte is not in the table of R73 (R74).
`operandTypes`: the operands are not those of R73 for this opcode. `valueRange`: an ENCODE_INT value outside
range(T). The last two cannot be written down by a host (R71, R109; log 2). -/
inductive DecodeError where
  | illegalOpcode
  | operandTypes
  | valueRange
deriving DecidableEq, Repr

/-- What the decoder answers. -/
inductive Decoded where
  | instr (i : Instr)
  | error (e : DecodeError)
deriving DecidableEq, Repr

namespace Decode

/-- Operands `buf, offset` (DECODE_INT). -/
def bufOffset (k : Buf → Nat → Instr) : List Operand → Decoded
  | [.buf b, .offset n] => .instr (k b n)
  | _ => .error .operandTypes

/-- Operands `value, out_buf` (ENCODE_INT.T); the value is a `T`. -/
def intBuf (T : IntType) (k : Int → Buf → Instr) : List Operand → Decoded
  | [.int v, .buf b] => if T.inRange v then .instr (k v b) else .error .valueRange
  | _ => .error .operandTypes

/-- Operands `buf, offset, scale` with an F32 scale. -/
def bufOffsetF32 (k : Buf → Nat → F32 → Instr) : List Operand → Decoded
  | [.buf b, .offset n, .f32 x] => .instr (k b n x)
  | _ => .error .operandTypes

/-- Operands `buf, offset, scale` with an F64 scale. -/
def bufOffsetF64 (k : Buf → Nat → F64 → Instr) : List Operand → Decoded
  | [.buf b, .offset n, .f64 x] => .instr (k b n x)
  | _ => .error .operandTypes

/-- Operand `buf`. -/
def oneBuf (k : Buf → Instr) : List Operand → Decoded
  | [.buf b] => .instr (k b)
  | _ => .error .operandTypes

/-- Operand `byte`. -/
def oneByte (k : Byte → Instr) : List Operand → Decoded
  | [.byte b] => .instr (k b)
  | _ => .error .operandTypes

/-- Operands `version, code, data` (PACK). -/
def versionCodeBuf (k : Version → Code → Buf → Instr) : List Operand → Decoded
  | [.version v, .code c, .buf b] => .instr (k v c b)
  | _ => .error .operandTypes

/-- Operands `code, data` (SEND). -/
def codeBuf (k : Code → Buf → Instr) : List Operand → Decoded
  | [.code c, .buf b] => .instr (k c b)
  | _ => .error .operandTypes

/-- Operands `version, frame` (UNPACK). -/
def versionBuf (k : Version → Buf → Instr) : List Operand → Decoded
  | [.version v, .buf b] => .instr (k v b)
  | _ => .error .operandTypes

/-- Operand `version` (SETVER). -/
def oneVersion (k : Version → Instr) : List Operand → Decoded
  | [.version v] => .instr (k v)
  | _ => .error .operandTypes

/-- No operands. -/
def noOperands (i : Instr) : List Operand → Decoded
  | [] => .instr i
  | _ => .error .operandTypes

end Decode

/-- The decoder: the opcode map of R73, row by row; every other byte is illegal (R74). -/
def decode (c : Command) : Decoded :=
  match c.op.toNat with
  | 0x10 => Decode.bufOffset .decodeIntU8 c.operands
  | 0x11 => Decode.bufOffset .decodeIntI8 c.operands
  | 0x12 => Decode.bufOffset .decodeIntU16 c.operands
  | 0x13 => Decode.bufOffset .decodeIntI16 c.operands
  | 0x14 => Decode.bufOffset .decodeIntU32 c.operands
  | 0x15 => Decode.bufOffset .decodeIntI32 c.operands
  | 0x16 => Decode.bufOffset .decodeIntU64 c.operands
  | 0x17 => Decode.bufOffset .decodeIntI64 c.operands
  | 0x20 => Decode.intBuf .u8 .encodeIntU8 c.operands
  | 0x21 => Decode.intBuf .i8 .encodeIntI8 c.operands
  | 0x22 => Decode.intBuf .u16 .encodeIntU16 c.operands
  | 0x23 => Decode.intBuf .i16 .encodeIntI16 c.operands
  | 0x24 => Decode.intBuf .u32 .encodeIntU32 c.operands
  | 0x25 => Decode.intBuf .i32 .encodeIntI32 c.operands
  | 0x26 => Decode.intBuf .u64 .encodeIntU64 c.operands
  | 0x27 => Decode.intBuf .i64 .encodeIntI64 c.operands
  | 0x30 => Decode.bufOffsetF32 .decodeFloatU8F32 c.operands
  | 0x31 => Decode.bufOffsetF32 .decodeFloatI8F32 c.operands
  | 0x32 => Decode.bufOffsetF32 .decodeFloatU16F32 c.operands
  | 0x33 => Decode.bufOffsetF32 .decodeFloatI16F32 c.operands
  | 0x34 => Decode.bufOffsetF32 .decodeFloatU32F32 c.operands
  | 0x35 => Decode.bufOffsetF32 .decodeFloatI32F32 c.operands
  | 0x36 => Decode.bufOffsetF32 .decodeFloatU64F32 c.operands
  | 0x37 => Decode.bufOffsetF32 .decodeFloatI64F32 c.operands
  | 0x38 => Decode.bufOffsetF64 .decodeFloatU8F64 c.operands
  | 0x39 => Decode.bufOffsetF64 .decodeFloatI8F64 c.operands
  | 0x3A => Decode.bufOffsetF64 .decodeFloatU16F64 c.operands
  | 0x3B => Decode.bufOffsetF64 .decodeFloatI16F64 c.operands
  | 0x3C => Decode.bufOffsetF64 .decodeFloatU32F64 c.operands
  | 0x3D => Decode.bufOffsetF64 .decodeFloatI32F64 c.operands
  | 0x3E => Decode.bufOffsetF64 .decodeFloatU64F64 c.operands
  | 0x3F => Decode.bufOffsetF64 .decodeFloatI64F64 c.operands
  | 0x40 => Decode.oneBuf .xor8Buf c.operands
  | 0x41 => Decode.oneBuf .crc8Buf c.operands
  | 0x42 => Decode.noOperands .crcClr c.operands
  | 0x43 => Decode.oneByte .crcUpd c.operands
  | 0x44 => Decode.noOperands .crcRd c.operands
  | 0x50 => Decode.versionCodeBuf .pack c.operands
  | 0x51 => Decode.codeBuf .send c.operands
  | 0x60 => Decode.versionBuf .unpack c.operands
  | 0x61 => Decode.noOperands .recv c.operands
  | 0x70 => Decode.oneVersion .setVer c.operands
  | 0x71 => Decode.noOperands .getVer c.operands
  | 0x72 => Decode.noOperands .getMaxp c.operands
  | 0x73 => Decode.noOperands .flush c.operands
  | _ => .error .illegalOpcode

/-- The encoder: the command a host presents for an operation (R71, R73). -/
def encode : Instr → Command
  | .decodeIntU8 buf offset => ⟨0x10, [.buf buf, .offset offset]⟩
  | .decodeIntI8 buf offset => ⟨0x11, [.buf buf, .offset offset]⟩
  | .decodeIntU16 buf offset => ⟨0x12, [.buf buf, .offset offset]⟩
  | .decodeIntI16 buf offset => ⟨0x13, [.buf buf, .offset offset]⟩
  | .decodeIntU32 buf offset => ⟨0x14, [.buf buf, .offset offset]⟩
  | .decodeIntI32 buf offset => ⟨0x15, [.buf buf, .offset offset]⟩
  | .decodeIntU64 buf offset => ⟨0x16, [.buf buf, .offset offset]⟩
  | .decodeIntI64 buf offset => ⟨0x17, [.buf buf, .offset offset]⟩
  | .encodeIntU8 value outBuf => ⟨0x20, [.int value, .buf outBuf]⟩
  | .encodeIntI8 value outBuf => ⟨0x21, [.int value, .buf outBuf]⟩
  | .encodeIntU16 value outBuf => ⟨0x22, [.int value, .buf outBuf]⟩
  | .encodeIntI16 value outBuf => ⟨0x23, [.int value, .buf outBuf]⟩
  | .encodeIntU32 value outBuf => ⟨0x24, [.int value, .buf outBuf]⟩
  | .encodeIntI32 value outBuf => ⟨0x25, [.int value, .buf outBuf]⟩
  | .encodeIntU64 value outBuf => ⟨0x26, [.int value, .buf outBuf]⟩
  | .encodeIntI64 value outBuf => ⟨0x27, [.int value, .buf outBuf]⟩
  | .decodeFloatU8F32 buf offset scale => ⟨0x30, [.buf buf, .offset offset, .f32 scale]⟩
  | .decodeFloatI8F32 buf offset scale => ⟨0x31, [.buf buf, .offset offset, .f32 scale]⟩
  | .decodeFloatU16F32 buf offset scale => ⟨0x32, [.buf buf, .offset offset, .f32 scale]⟩
  | .decodeFloatI16F32 buf offset scale => ⟨0x33, [.buf buf, .offset offset, .f32 scale]⟩
  | .decodeFloatU32F32 buf offset scale => ⟨0x34, [.buf buf, .offset offset, .f32 scale]⟩
  | .decodeFloatI32F32 buf offset scale => ⟨0x35, [.buf buf, .offset offset, .f32 scale]⟩
  | .decodeFloatU64F32 buf offset scale => ⟨0x36, [.buf buf, .offset offset, .f32 scale]⟩
  | .decodeFloatI64F32 buf offset scale => ⟨0x37, [.buf buf, .offset offset, .f32 scale]⟩
  | .decodeFloatU8F64 buf offset scale => ⟨0x38, [.buf buf, .offset offset, .f64 scale]⟩
  | .decodeFloatI8F64 buf offset scale => ⟨0x39, [.buf buf, .offset offset, .f64 scale]⟩
  | .decodeFloatU16F64 buf offset scale => ⟨0x3A, [.buf buf, .offset offset, .f64 scale]⟩
  | .decodeFloatI16F64 buf offset scale => ⟨0x3B, [.buf buf, .offset offset, .f64 scale]⟩
  | .decodeFloatU32F64 buf offset scale => ⟨0x3C, [.buf buf, .offset offset, .f64 scale]⟩
  | .decodeFloatI32F64 buf offset scale => ⟨0x3D, [.buf buf, .offset offset, .f64 scale]⟩
  | .decodeFloatU64F64 buf offset scale => ⟨0x3E, [.buf buf, .offset offset, .f64 scale]⟩
  | .decodeFloatI64F64 buf offset scale => ⟨0x3F, [.buf buf, .offset offset, .f64 scale]⟩
  | .xor8Buf buf => ⟨0x40, [.buf buf]⟩
  | .crc8Buf buf => ⟨0x41, [.buf buf]⟩
  | .crcClr => ⟨0x42, []⟩
  | .crcUpd byte => ⟨0x43, [.byte byte]⟩
  | .crcRd => ⟨0x44, []⟩
  | .pack version code data => ⟨0x50, [.version version, .code code, .buf data]⟩
  | .send code data => ⟨0x51, [.code code, .buf data]⟩
  | .unpack version frame => ⟨0x60, [.version version, .buf frame]⟩
  | .recv => ⟨0x61, []⟩
  | .setVer version => ⟨0x70, [.version version]⟩
  | .getVer => ⟨0x71, []⟩
  | .getMaxp => ⟨0x72, []⟩
  | .flush => ⟨0x73, []⟩

/-- Operands of zeros for an opcode byte, in the types of R73: the empty buffer, offset 0, value 0, V1 (the
version whose bit is 0, R21), code 0, byte 0, the float whose bits are all 0. -/
def zeroOperands (op : Byte) : List Operand :=
  let n := op.toNat
  if 0x10 ≤ n ∧ n ≤ 0x17 then [.buf [], .offset 0]
  else if 0x20 ≤ n ∧ n ≤ 0x27 then [.int 0, .buf []]
  else if 0x30 ≤ n ∧ n ≤ 0x37 then [.buf [], .offset 0, .f32 0]
  else if 0x38 ≤ n ∧ n ≤ 0x3F then [.buf [], .offset 0, .f64 0]
  else if n = 0x40 ∨ n = 0x41 then [.buf []]
  else if n = 0x43 then [.byte 0]
  else if n = 0x50 then [.version .v1, .code 0, .buf []]
  else if n = 0x51 then [.code 0, .buf []]
  else if n = 0x60 then [.version .v1, .buf []]
  else if n = 0x70 then [.version .v1]
  else []

/-- The command whose opcode byte is the first byte of the table word and whose operands are zeros: every
command is one opcode byte (R71: "All commands have the same length (one opcode byte)"). Bits from `nbits` up
are 0. -/
def commandOfTableWord (nbits w : Nat) : Command :=
  let op : Byte := BitVec.ofNat 8 (w % 2 ^ nbits)
  ⟨op, zeroOperands op⟩

/-- The operation the decoder reads from a word of spec/opcode_table.json. -/
def decodeTableWord (nbits w : Nat) : Option Instr :=
  match decode (commandOfTableWord nbits w) with
  | .instr i => some i
  | .error _ => none

end Sys2Proof
end

