-- ==== Sys2Proof/Machine/State.lean ====
section
/-! DEFINITION. Machine/State.lean: all the state the spec gives the block and its environment (spec/10_state.md
R20 to R31), as plain data; the results of R9; the reasons a step can stop; the state after reset (R31). -/

namespace Sys2Proof.Machine

/-- The six states of the receive machine (10_state.md R24). -/
inductive RxState where
  | search
  | variant
  | hdr1
  | hdr2
  | payload
  | crc
deriving DecidableEq, Repr

/-- The receive machine's state and working registers (R24, R25). UNPACK works on a copy of its own. -/
structure RxRegs where
  /-- `RXS` -/
  rxs : RxState
  /-- `TYPE`, the direction byte -/
  type : Byte
  /-- `FLAG`, the V2 flag byte; not written under V1 -/
  flag : Byte
  /-- `CODE` -/
  code : Code
  /-- `LEN` -/
  len : BitVec 16
  /-- `DATA`, the payload bytes read so far -/
  data : Buf
  /-- `RXCRC`, the received checksum byte -/
  rxcrc : Byte
deriving DecidableEq, Repr

/-- The error kinds (60_exceptions.md R211), in the order of their numbers. -/
inductive ErrKind where
  | portClosed
  | payloadTooLarge
  | writeShort
  | shortRead
  | versionMismatch
  | remoteError
  | checksumError
  | shortBuffer
  | outOfRange
  | unsupported
  | badOperand
deriving DecidableEq, Repr

/-- The `ok` values of R73. `grown` is `ok()` of ENCODE_INT together with the grown `out_buf` the host sees
(40_codec.md R109; log 3). -/
inductive Value where
  | none
  | int (v : Int)
  | f32 (x : F32)
  | f64 (x : F64)
  | byte (b : Byte)
  | buf (b : Buf)
  | grown (outBuf : Buf)
  | packet (code : Code) (data : Buf)
  | version (v : Version)
deriving DecidableEq, Repr

/-- Every operation ends with exactly one result (00_scope.md R9). -/
inductive Result where
  | ok (v : Value)
  | err (k : ErrKind)
deriving DecidableEq, Repr

/-- A warning event (60_exceptions.md R227); the block has one kind. -/
inductive Warning where
  | versionMismatch
deriving DecidableEq, Repr

/-- The link peer's answer to one read of `n >= 1` bytes (20_memory.md R48): it gives `k` bytes, at most `n`
and at most what the stream holds, or it never answers (70 R248, 93 U1). -/
inductive ReadAnswer where
  | gives (k : Nat)
  | never
deriving DecidableEq, Repr

/-- What reaches the block from outside, one at a time, between two operations (log 1, log 20): a command on
CMD, a reset with the version it constructs (70 R240), a new PORT_OPEN level, bytes joining the end of RXQ, a stream without
end (or, for `[]`, its end) behind them (70 R248; log 25). -/
inductive Input where
  | command (c : Command)
  | reset (v : Version)
  | portLevel (level : Bool)
  | arrive (bytes : Buf)
  | endless (bytes : Buf)
deriving DecidableEq, Repr

/-- The state. `MAXP` is no field: it is the function `State.maxp` of `VER` (R22). -/
structure State where
  /-- The arguments of 00_scope.md R5 the machine is built with. No step changes them (log 24, log 26) -/
  params : Params
  /-- `VER` (R21) -/
  ver : Version
  /-- `CRCACC` (R23) -/
  crcAcc : Byte
  /-- `RXS` and the working registers (R24, R25) -/
  rx : RxRegs
  /-- `RXQ`: the bytes the link peer has sent or will send, in order (R29); the part that is not endless -/
  rxq : Buf
  /-- The rest of `RXQ` where it has no end (70 R248): these bytes, over and over, behind `rxq`. With `[]` the stream ends
  with `rxq` (log 25) -/
  rxTail : Buf
  /-- `TXLOG`: every byte put on the wire, in order (R29) -/
  txlog : Buf
  /-- `PORT_OPEN` (R29) -/
  portOpen : Bool
  /-- `WARNLOG`, oldest first (R29) -/
  warnlog : List Warning
  /-- The RXFLUSH port: how many requests to discard buffered input the block has made (00_scope.md R13; log 23) -/
  rxflush : Nat
  /-- The CMD port and the other inputs that wait, oldest first (R13; log 1) -/
  pending : List Input
  /-- The RES port: the results given, oldest first (R9, R13; log 3) -/
  resLog : List Result
  /-- The link peer's answers to its next reads, next first; with none listed, the finite-stream model of
  20_memory.md R48 (log 7) -/
  rxAnswers : List ReadAnswer
  /-- The link peer's answers to its next writes, next first; with none listed, a write is accepted whole
  (20_memory.md R49; log 9) -/
  txAnswers : List Nat
  /-- How many bytes of `RXQ` have arrived at the next flushes, next first; with none listed, all
  (44_control.md R203; log 10) -/
  flushAnswers : List Nat
  /-- THE MODEL'S OWN field: how many times the working registers were left unspecified (log 12) -/
  freeCount : Nat
deriving DecidableEq, Repr

/-- The reasons the machine stops. -/
inductive Fault where
  /-- Raised by RECV alone, when a read it makes is never answered: RECV does not return (70 R248, 93 U1
  `stuck`). SAFE: the machine goes nowhere, as the block does not (log 8). -/
  | readNeverAnswers
  /-- Raised by RECV alone, when the stream has no end, holds no `0x24` and every read of SEARCH succeeds: "SEARCH never
  ends" (70 R248). SAFE: the machine goes nowhere, as the block does not (log 8). -/
  | searchNeverEnds
deriving DecidableEq, Repr

/-- The reasons the model gives a command no meaning. -/
inductive Refusal where
  /-- Raised by the arms of `exec` that have no meaning yet (none is left). SAFE. -/
  | notModelled (mnemonic : String)
  /-- Raised by ENCODE_INT.T for a value outside range(T), which "cannot be written down" (40 R109), and by
  `step` for a command that carries one. SAFE (log 2). -/
  | valueOutOfRange
  /-- Raised by `step` for a legal opcode with operands of other types than R73's, which a host cannot
  present (30 R71). SAFE (log 2). -/
  | illTypedCommand
  /-- Raised by `step` for a command with a buffer longer than a finite `BUFCAP` or an offset wider than a finite `OFFW`
  (00_scope.md R5), which cannot be written down. Never at the defaults. SAFE (log 24). -/
  | operandBeyondParameters
  /-- Raised by an operation whose result is a buffer longer than a finite `BUFCAP`: the spec gives no failure for it (40
  R109, decision D14). Never at the default. SAFE (log 24). -/
  | bufferCapacity
deriving DecidableEq, Repr

/-- What one step answers. -/
abbrev Outcome := Host.Outcome State Fault Refusal

/-- The working registers at reset: `RXS = SEARCH` (R31); the rest, which R31 leaves unspecified, at zero
(DESIGN CHOICE, log 4). -/
def RxRegs.reset : RxRegs :=
  { rxs := .search, type := 0, flag := 0, code := 0, len := 0, data := [], rxcrc := 0 }

/-- The state after construction at version `v` with nothing yet done by the environment (R31): the block state
is the spec's; the environment, which reset does not touch, is as 95_test_vectors.md section 3 starts its
programs (DESIGN CHOICE, log 5); the other parameters of R5 are at their defaults (log 24). -/
def State.resetWith (v : Version) : State :=
  { params := Params.default, ver := v, crcAcc := 0x00, rx := RxRegs.reset, rxq := [], rxTail := [], txlog := [],
    portOpen := true, warnlog := [], rxflush := 0, pending := [], resLog := [], rxAnswers := [], txAnswers := [], flushAnswers := [], freeCount := 0 }

/-- The state after reset with the parameter `RESET_VERSION` (R31). -/
def State.reset : State := State.resetWith Config.RESET_VERSION

end Sys2Proof.Machine
end

