-- ==== Sys2Proof/Machine/Ops.lean ====
section
/-! DEFINITION. Machine/Ops.lean: the shared operations over the state: ending an operation with `ok` or with
an error (the block's only "exception", spec/60_exceptions.md R210, R224), the stream primitives of
20_memory.md R48 and R49, flushing, warning, reset, and taking the next input. -/

namespace Sys2Proof.Machine

/-- `max_payload(v)` (10_state.md R22). -/
def maxPayload : Version → Nat
  | .v1 => Config.MAXP_V1
  | .v2 => Config.MAXP_V2

/-- `MAXP`, at all times `max_payload(VER)` (R22). -/
def State.maxp (s : State) : Nat := maxPayload s.ver

/-- One result appears on RES (R9, R13). -/
def State.answer (s : State) (r : Result) : State := { s with resLog := s.resLog ++ [r] }

/-- A buffer of `n` bytes exists: `BUFCAP` allows it (20_memory.md R41). -/
def Params.holds (P : Params) (n : Nat) : Bool :=
  match P.bufCap with
  | none => true
  | some c => decide (n ≤ c)

/-- The buffers of a result exist. -/
def Value.fits (P : Params) : Value → Bool
  | .buf b => P.holds b.length
  | .grown b => P.holds b.length
  | .packet _ b => P.holds b.length
  | .none | .int _ | .f32 _ | .f64 _ | .byte _ | .version _ => true

/-- A host can write this operand down at these parameters (00_scope.md R5 `BUFCAP`, `OFFW`). -/
def Operand.admitted (P : Params) : Operand → Bool
  | .buf b => P.holds b.length
  | .offset n => match P.offW with
    | none => true
    | some w => decide (n < 2 ^ w)
  | .int _ | .version _ | .code _ | .f32 _ | .f64 _ | .byte _ => true

/-- A host can write this command down at these parameters. -/
def Params.admits (P : Params) (c : Command) : Bool := c.operands.all (Operand.admitted P)

/-- The float format `F` of an opcode that stands for DECODE_FLOAT.I.F, by the float field `f = op[3]` (30_encoding.md R72,
R73); none for every other opcode. -/
def floatFormat (op : Byte) : Option FloatType :=
  if op.toNat / 16 = 3 then (if op.toNat / 8 % 2 = 0 then some .f32 else some .f64) else none

/-- The block has what this opcode computes: a DECODE_FLOAT's format is one of its `FLOAT_TYPES` (00_scope.md R5; log 26). -/
def Params.offers (P : Params) (op : Byte) : Bool :=
  match floatFormat op with
  | none => true
  | some F => decide (F ∈ P.floatTypes)

/-- The decoder of a block with these parameters: the opcode map of R73 with the rows of its own `FLOAT_TYPES`; a byte of no
such row names no operation (R74). At the default it is `decode`. -/
def Params.decodes (P : Params) (c : Command) : Decoded :=
  if P.offers c.op then decode c else .error .illegalOpcode

/-- `return v` (R8): the operation ends with result `ok(v)`. A buffer that a finite `BUFCAP` has no room for is the one
result the spec gives no meaning (40 R109, decision D14; log 24). -/
def ret (v : Value) (s : State) : Outcome :=
  if v.fits s.params then .next (s.answer (.ok v)) else .refused .bufferCapacity

/-- `raise K` (R8), the one way an operation fails: it ends at once with result `err(K)`, what it wrote before
stays written, nothing is saved, no handler is entered and the block is ready for the next operation (60
R224). There is nothing to return from: no return instruction, nothing to restore or acknowledge (R225). -/
def raise (k : ErrKind) (s : State) : Outcome := .next (s.answer (.err k))

/-- A byte stream as the receive machine reads it: the bytes in order, the answers its next reads get, and the bytes that
follow over and over where the stream has no end (70 R248; `[]` where it ends). -/
structure RxStream where
  bytes : Buf
  answers : List ReadAnswer
  tail : Buf
deriving DecidableEq, Repr

/-- How a read ends. -/
inductive ReadResult where
  | got (r : Buf) (rest : RxStream)
  | never
deriving DecidableEq, Repr

/-- The first `n` bytes of a buffer repeated without end; none of the empty one. -/
def cycleTake : Nat → Buf → Buf
  | 0, _ => []
  | _ + 1, [] => []
  | n + 1, b :: bs => b :: cycleTake n (bs ++ [b])

/-- The first `m` bytes leave the stream, fewer where it ends before. -/
def RxStream.take (st : RxStream) (m : Nat) (answers : List ReadAnswer) : ReadResult :=
  .got (st.bytes.take m ++ cycleTake (m - st.bytes.length) st.tail)
    ⟨st.bytes.drop m, answers, st.tail.rotate (m - st.bytes.length)⟩

/-- `RxRead(n)` (20_memory.md R48). `RxRead(0)` touches nothing. Otherwise the peer answers a sequence `r`,
`0 <= r.len <= n`, the first bytes of the stream, and they are gone from it; or it never answers. With no answer
listed the read yields `min(n, RXQ.len)` bytes, the finite-stream model (log 7). -/
def RxStream.read (st : RxStream) : Nat → ReadResult
  | 0 => .got [] st
  | n + 1 =>
    match st.answers with
    | [] => st.take (n + 1) []
    | .gives k :: as => st.take (min k (n + 1)) as
    | .never :: _ => .never

/-- `TxWrite(bytes)` (20_memory.md R49): the peer accepts `k <= bytes.len` bytes, the first `k` are on the wire
and stay there. Answers `k` and the state. -/
def txWrite (s : State) (bytes : Buf) : Nat × State :=
  match s.txAnswers with
  | [] => (bytes.length, { s with txlog := s.txlog ++ bytes })
  | a :: as =>
    let k := min a bytes.length
    (k, { s with txlog := s.txlog ++ bytes.take k, txAnswers := as })

/-- One RXFLUSH request (44_control.md R203): the bytes of `RXQ` that have arrived and have not been read are
discarded, the ones still in flight stay. The request stands on the port whatever it discards (00_scope.md R13). -/
def flushRx (s : State) : State :=
  match s.flushAnswers with
  | [] => { s with rxq := [], rxflush := s.rxflush + 1 }
  | k :: ks =>
    { s with rxq := s.rxq.drop k, rxTail := s.rxTail.rotate (k - s.rxq.length), flushAnswers := ks,
             rxflush := s.rxflush + 1 }

/-- The working registers with the content R25 leaves unspecified after a failed receive: free values, `DATA`
kept to its 65535 bytes (R20), `RXS = SEARCH` (R24). Free value, log 11. -/
def RxRegs.unspecified (n : Nat) : RxRegs :=
  { rxs := .search
    type := Config.freeByte (3 * n)
    flag := Config.freeByte (3 * n + 1)
    code := Config.freeWord (2 * n)
    len := Config.freeWord (2 * n + 1)
    data := (Config.freeBuf n).take 65535
    rxcrc := Config.freeByte (3 * n + 2) }

/-- Reset at version `v`, the one event that sets block state without an operation (70 R240). It sets the block
state as R31 says and touches nothing of the environment (R241). -/
def State.resetBlock (s : State) (v : Version) : State :=
  { s with ver := v, crcAcc := 0x00, rx := RxRegs.reset }

/-- Take the next input that waits, if any (00_scope.md R12: one at a time). -/
def State.takeInput (s : State) : Option (Input × State) :=
  match s.pending with
  | [] => none
  | i :: rest => some (i, { s with pending := rest })

/-- Present an input as the very next one. -/
def State.present (s : State) (i : Input) : State := { s with pending := i :: s.pending }

/-- What the block does with a command that is no operation: an opcode outside the table is answered
`err(BadOperand)` and changes no state (30 R74, 60 R222); the two kinds of command no host can write down are
refused by name (log 2). -/
def rejectCommand (e : DecodeError) (s : State) : Outcome :=
  match e with
  | .illegalOpcode => raise .badOperand s
  | .operandTypes => .refused .illTypedCommand
  | .valueRange => .refused .valueOutOfRange

end Sys2Proof.Machine
end

