-- ==== Sys2Proof/Machine/Operands.lean ====
section
/-! DEFINITION. Machine/Operands.lean: the operand forms: reading a buffer at an offset and appending to one
(spec/20_memory.md R42, R43), the bounds check (40_codec.md R91), the value functions of the codec (R90, R109),
and the byte slices of 16-bit fields (30_encoding.md R65). -/

namespace Sys2Proof.Machine

/-- `v[7:0]` of a 16-bit value (R6). -/
def lo8 (v : BitVec 16) : Byte := v.extractLsb' 0 8

/-- `v[15:8]` of a 16-bit value (R6). -/
def hi8 (v : BitVec 16) : Byte := v.extractLsb' 8 8

/-- `zext_16(b)` (R6). -/
def zext16 (b : Byte) : BitVec 16 := b.setWidth 16

/-- `lo | (hi << 8)` at 16 bits (R65). -/
def word16 (lo hi : Byte) : BitVec 16 := zext16 lo ||| (zext16 hi <<< 8)

/-- `MemRead(buf, off, n)`: the `n` bytes from offset `off` (R42); every use stands behind the bounds check. -/
def memRead (buf : Buf) (off n : Nat) : Buf := (buf.drop off).take n

/-- `MemWrite(buf, n, bytes)`: append; no existing byte changes (R43). -/
def memWrite (buf bytes : Buf) : Buf := buf ++ bytes

/-- The bounds check `buf.len - offset < n`, the subtraction on unbounded integers (R91). -/
def shortOf (buf : Buf) (offset n : Nat) : Bool :=
  decide ((buf.length : Int) - (offset : Int) < (n : Int))

/-- `le_uint` (R90): the byte at the lowest index is the least significant. -/
def leUint : Buf → Nat
  | [] => 0
  | b :: bs => b.toNat + 256 * leUint bs

/-- `le_sint` (R90), two's complement (93 G1). -/
def leSint (b : Buf) : Int :=
  if leUint b < 2 ^ (8 * b.length - 1) then (leUint b : Int) else (leUint b : Int) - 2 ^ (8 * b.length)

/-- `value_T` (R90). -/
def valueOf (T : IntType) (b : Buf) : Int := if T.signed then leSint b else (leUint b : Int)

/-- The `n` low bytes of `u`, least significant first: `[u[7:0], u[15:8], ...]` (R109). -/
def leImage : Nat → Nat → Buf
  | 0, _ => []
  | n + 1, u => BitVec.ofNat 8 u :: leImage n (u / 256)

/-- `le_bytes_T` (R109): a negative value is taken at `value + 2^(8n)`. -/
def leBytes (T : IntType) (value : Int) : Buf :=
  leImage T.size (if 0 ≤ value then value.toNat else (value + 2 ^ (8 * T.size)).toNat)

/-- The fetch shared by DECODE_INT and DECODE_FLOAT: `none` where the bounds check fails (R91, first), else the
integer at the offset (R90, R100). -/
def fetchInt (T : IntType) (buf : Buf) (offset : Nat) : Option Int :=
  if shortOf buf offset T.size then none else some (valueOf T (memRead buf offset T.size))

end Sys2Proof.Machine
end

