-- ==== Sys2Proof/Machine/Flags.lean ====
section
/-! DEFINITION. Machine/Flags.lean: the block has no flags register and no sticky status (spec/10_state.md R28,
00_scope.md R9). What stands in their place is the result of each operation; here are the numbers of the
results (60_exceptions.md R211). -/

namespace Sys2Proof.Machine

/-- The number of an error kind (R211). -/
def ErrKind.number : ErrKind → Nat
  | .portClosed => 1
  | .payloadTooLarge => 2
  | .writeShort => 3
  | .shortRead => 4
  | .versionMismatch => 5
  | .remoteError => 6
  | .checksumError => 7
  | .shortBuffer => 8
  | .outOfRange => 9
  | .unsupported => 10
  | .badOperand => 11

/-- The number of a result: 0 is success (R211). -/
def Result.number : Result → Nat
  | .ok _ => 0
  | .err k => k.number

end Sys2Proof.Machine
end

