-- ==== Sys2Proof/Machine/Checksum.lean ====
section
/-! DEFINITION. Machine/Checksum.lean: the XOR-sum and CRC-8/DVB-S2 (spec/41_checksum.md R130 to R133) and the five
checksum operations (R131, R134 to R137). -/

namespace Sys2Proof.Machine

/-- `xor8` (R130). -/
def xor8 (b : Buf) : Byte := b.foldl (fun c x => c ^^^ x) 0x00

/-- One of the eight iterations of R132: shift left, the bit leaving position 7 dropped, and fold in 0xD5 if it
was set. -/
def crc8Shift (c : Byte) : Byte :=
  if c.getLsbD 7 then (c <<< 1) ^^^ Config.CRC_POLY else c <<< 1

/-- `repeat n times` of R132. -/
def crc8Shifts : Nat → Byte → Byte
  | 0, c => c
  | n + 1, c => crc8Shifts n (crc8Shift c)

/-- `crc8_step` (R132): one byte into the running value. -/
def crc8Step (c b : Byte) : Byte := crc8Shifts 8 (c ^^^ b)

/-- `crc8` (R133): index 0 first, no final XOR. -/
def crc8 (b : Buf) : Byte := b.foldl crc8Step Config.CRC_INIT

/-- XOR8.BUF (R131). -/
def execXor8Buf (buf : Buf) (s : State) : Outcome := ret (.byte (xor8 buf)) s

/-- CRC8.BUF (R134). -/
def execCrc8Buf (buf : Buf) (s : State) : Outcome := ret (.byte (crc8 buf)) s

/-- CRC.CLR (R135). -/
def execCrcClr (s : State) : Outcome := ret .none { s with crcAcc := 0x00 }

/-- CRC.UPD (R136). It does not clear first. -/
def execCrcUpd (byte : Byte) (s : State) : Outcome := ret .none { s with crcAcc := crc8Step s.crcAcc byte }

/-- CRC.RD (R137). Reading changes nothing. -/
def execCrcRd (s : State) : Outcome := ret (.byte s.crcAcc) s

end Sys2Proof.Machine
end

