-- ==== Sys2Proof/Machine/Float.lean ====
section
/-! DEFINITION. Machine/Float.lean: `cvt` and `fmul` of DECODE_FLOAT (spec/40_codec.md R100), the arguments of 00_scope.md
R5: at the spec's default (decision D13) IEEE 754 convertFromInt and multiplication, round to nearest, ties to even,
in binary32 and binary64, computed on natural numbers and rounded once at the end; otherwise free functions. -/

namespace Sys2Proof.Machine

/-- An interchange format: `p` bits of precision (the hidden one included), `w` bits of exponent. -/
structure FloatFormat where
  p : Nat
  w : Nat
deriving DecidableEq, Repr

/-- IEEE 754 binary32. -/
def binary32 : FloatFormat := ⟨24, 8⟩

/-- IEEE 754 binary64. -/
def binary64 : FloatFormat := ⟨53, 11⟩

namespace FloatFormat

/-- The least positive value of the format is `2^(-Q)`: 149 for binary32, 1074 for binary64. -/
def Q (f : FloatFormat) : Nat := 2 ^ (f.w - 1) + f.p - 3

/-- The magnitude field (everything but the sign) of infinity. -/
def infMag (f : FloatFormat) : Nat := (2 ^ f.w - 1) * 2 ^ (f.p - 1)

/-- The weight of the sign bit. -/
def signWeight (f : FloatFormat) : Nat := 2 ^ (f.w + f.p - 1)

/-- The magnitude field of an encoding. -/
def mag (f : FloatFormat) (x : Nat) : Nat := x % f.signWeight

/-- The sign bit of an encoding. -/
def neg (f : FloatFormat) (x : Nat) : Bool := decide (f.signWeight ≤ x)

/-- The encoding is a NaN. -/
def isNaN (f : FloatFormat) (x : Nat) : Bool := decide (f.infMag < f.mag x)

/-- The encoding is an infinity. -/
def isInf (f : FloatFormat) (x : Nat) : Bool := decide (f.mag x = f.infMag)

/-- The exponent step of a finite encoding: its value is `sig * 2^(step - Q)`. -/
def step (f : FloatFormat) (x : Nat) : Nat := f.mag x / 2 ^ (f.p - 1) - 1

/-- The significand of a finite encoding as an integer: subnormals have no hidden bit. -/
def sig (f : FloatFormat) (x : Nat) : Nat :=
  if f.mag x / 2 ^ (f.p - 1) = 0 then f.mag x else f.mag x % 2 ^ (f.p - 1) + 2 ^ (f.p - 1)

/-- `m / 2^d` to the nearest integer, ties to even. -/
def roundShift (m d : Nat) : Nat :=
  let q := m / 2 ^ d
  let r := m % 2 ^ d
  if 2 ^ d < 2 * r ∨ (2 * r = 2 ^ d ∧ q % 2 = 1) then q + 1 else q

/-- The magnitude field of the value of the format nearest to `m * 2^(k - 2 Q)`, ties to even, infinity on
overflow. A carry out of the significand runs into the exponent field as it should. -/
def roundMag (f : FloatFormat) (m k : Nat) : Nat :=
  if m = 0 then 0
  else
    let j := Nat.log2 m + k - (f.p - 1 + f.Q)
    let sg := if j + f.Q ≤ k then m * 2 ^ (k - (j + f.Q)) else roundShift m (j + f.Q - k)
    min (j * 2 ^ (f.p - 1) + sg) f.infMag

/-- A sign and a magnitude field as an encoding. -/
def signed (f : FloatFormat) (s : Bool) (m : Nat) : Nat := (if s then f.signWeight else 0) + m

/-- convertFromInt: the encoding of the value nearest to `i`; 0 becomes +0. -/
def ofInt (f : FloatFormat) (i : Int) : Nat :=
  f.signed (decide (i < 0)) (f.roundMag i.natAbs (2 * f.Q))

/-- Multiplication of two encodings; `none` where the result is a NaN (an operand is, or 0 times infinity). -/
def mul (f : FloatFormat) (a b : Nat) : Option Nat :=
  let s := f.neg a != f.neg b
  if f.isNaN a || f.isNaN b then none
  else if f.isInf a || f.isInf b then
    if f.mag a = 0 ∨ f.mag b = 0 then none else some (f.signed s f.infMag)
  else some (f.signed s (f.roundMag (f.sig a * f.sig b) (f.step a + f.step b)))

end FloatFormat

/-- A NaN of binary32 of which nothing but being a NaN is known (free value, log 14). -/
def someNaN32 (x scale : F32) : F32 :=
  let b := Config.freeNaN32 x scale ||| 0x7F800000#32
  if b &&& 0x007FFFFF#32 = 0#32 then b ||| 1#32 else b

/-- A NaN of binary64 of which nothing but being a NaN is known (free value, log 14). -/
def someNaN64 (x scale : F64) : F64 :=
  let b := Config.freeNaN64 x scale ||| 0x7FF0000000000000#64
  if b &&& 0x000FFFFFFFFFFFFF#64 = 0#64 then b ||| 1#64 else b

/-- `cvt_{I,F32}` at the default. -/
def cvt32 (i : Int) : F32 := BitVec.ofNat 32 (binary32.ofInt i)

/-- `cvt_{I,F64}` at the default. -/
def cvt64 (i : Int) : F64 := BitVec.ofNat 64 (binary64.ofInt i)

/-- `fmul_F32` at the default, `x` the left operand. -/
def fmul32 (x scale : F32) : F32 :=
  match binary32.mul x.toNat scale.toNat with
  | some r => BitVec.ofNat 32 r
  | none => someNaN32 x scale

/-- `fmul_F64` at the default, `x` the left operand. -/
def fmul64 (x scale : F64) : F64 :=
  match binary64.mul x.toNat scale.toNat with
  | some r => BitVec.ofNat 64 r
  | none => someNaN64 x scale

/-- `cvt_{T,F32}` (R100) of the machine's float arithmetic (00_scope.md R5; log 13). -/
def FloatArith.cvt32 (a : FloatArith) (T : IntType) (i : Int) : F32 :=
  match a with
  | .ieee => Machine.cvt32 i
  | .other n => Config.otherCvt32 n T i

/-- `cvt_{T,F64}` (R100) of the machine's float arithmetic. -/
def FloatArith.cvt64 (a : FloatArith) (T : IntType) (i : Int) : F64 :=
  match a with
  | .ieee => Machine.cvt64 i
  | .other n => Config.otherCvt64 n T i

/-- `fmul_F32` (R100) of the machine's float arithmetic, `x` the left operand. -/
def FloatArith.fmul32 (a : FloatArith) (x scale : F32) : F32 :=
  match a with
  | .ieee => Machine.fmul32 x scale
  | .other n => Config.otherFmul32 n x scale

/-- `fmul_F64` (R100) of the machine's float arithmetic, `x` the left operand. -/
def FloatArith.fmul64 (a : FloatArith) (x scale : F64) : F64 :=
  match a with
  | .ieee => Machine.fmul64 x scale
  | .other n => Config.otherFmul64 n x scale

end Sys2Proof.Machine
end

