-- ==== Sys2Proof/Machine/Codec.lean ====
section
/-! DEFINITION. Machine/Codec.lean: DECODE_INT, ENCODE_INT and DECODE_FLOAT (spec/40_codec.md R91 to R117). Every one
is a pure function of its operands; it reads and writes no state but RES (10_state.md R33). -/

namespace Sys2Proof.Machine

/-- DECODE_INT.T: the bounds check first (R91), then the integer at the offset (R90). -/
def decodeInt (T : IntType) (buf : Buf) (offset : Nat) (s : State) : Outcome :=
  match fetchInt T buf offset with
  | none => raise .shortBuffer s
  | some i => ret (.int i) s

/-- ENCODE_INT.T (R109): append the bytes of the value; the host sees the grown buffer. A value outside
range(T) cannot be written down and is refused by name (log 2). -/
def encodeInt (T : IntType) (value : Int) (outBuf : Buf) (s : State) : Outcome :=
  if T.inRange value then ret (.grown (memWrite outBuf (leBytes T value))) s
  else .refused .valueOutOfRange

/-- DECODE_FLOAT.I.F (R100), the conversion and the multiplication its parameters: bounds check, the integer
that DECODE_INT.I returns, cast, multiply with the cast value on the left. -/
def decodeFloat {F : Type} (cvt : IntType → Int → F) (fmul : F → F → F) (val : F → Value) (T : IntType) (buf : Buf)
    (offset : Nat) (scale : F) (s : State) : Outcome :=
  match fetchInt T buf offset with
  | none => raise .shortBuffer s
  | some i => ret (val (fmul (cvt T i) scale)) s

/-- DECODE_FLOAT.I.F32 with the machine's `cvt` and `fmul` (00_scope.md R5); on a block without F32 among its `FLOAT_TYPES` no
command stands for it (`Params.decodes`, log 26). -/
def decodeFloat32 (T : IntType) (buf : Buf) (offset : Nat) (scale : F32) (s : State) : Outcome :=
  decodeFloat s.params.floats.cvt32 s.params.floats.fmul32 .f32 T buf offset scale s

/-- DECODE_FLOAT.I.F64 with the machine's `cvt` and `fmul` (00_scope.md R5); on a block without F64 among its `FLOAT_TYPES` no
command stands for it (`Params.decodes`, log 26). -/
def decodeFloat64 (T : IntType) (buf : Buf) (offset : Nat) (scale : F64) (s : State) : Outcome :=
  decodeFloat s.params.floats.cvt64 s.params.floats.fmul64 .f64 T buf offset scale s

/-- DECODE_INT.U8 (R92). -/
def execDecodeIntU8 (buf : Buf) (offset : Nat) (s : State) : Outcome :=
  decodeInt .u8 buf offset s

/-- DECODE_INT.I8 (R93). -/
def execDecodeIntI8 (buf : Buf) (offset : Nat) (s : State) : Outcome :=
  decodeInt .i8 buf offset s

/-- DECODE_INT.U16 (R94). -/
def execDecodeIntU16 (buf : Buf) (offset : Nat) (s : State) : Outcome :=
  decodeInt .u16 buf offset s

/-- DECODE_INT.I16 (R95). -/
def execDecodeIntI16 (buf : Buf) (offset : Nat) (s : State) : Outcome :=
  decodeInt .i16 buf offset s

/-- DECODE_INT.U32 (R96). -/
def execDecodeIntU32 (buf : Buf) (offset : Nat) (s : State) : Outcome :=
  decodeInt .u32 buf offset s

/-- DECODE_INT.I32 (R97). -/
def execDecodeIntI32 (buf : Buf) (offset : Nat) (s : State) : Outcome :=
  decodeInt .i32 buf offset s

/-- DECODE_INT.U64 (R98). -/
def execDecodeIntU64 (buf : Buf) (offset : Nat) (s : State) : Outcome :=
  decodeInt .u64 buf offset s

/-- DECODE_INT.I64 (R99). -/
def execDecodeIntI64 (buf : Buf) (offset : Nat) (s : State) : Outcome :=
  decodeInt .i64 buf offset s

/-- ENCODE_INT.U8 (R110). -/
def execEncodeIntU8 (value : Int) (outBuf : Buf) (s : State) : Outcome :=
  encodeInt .u8 value outBuf s

/-- ENCODE_INT.I8 (R111). -/
def execEncodeIntI8 (value : Int) (outBuf : Buf) (s : State) : Outcome :=
  encodeInt .i8 value outBuf s

/-- ENCODE_INT.U16 (R112). -/
def execEncodeIntU16 (value : Int) (outBuf : Buf) (s : State) : Outcome :=
  encodeInt .u16 value outBuf s

/-- ENCODE_INT.I16 (R113). -/
def execEncodeIntI16 (value : Int) (outBuf : Buf) (s : State) : Outcome :=
  encodeInt .i16 value outBuf s

/-- ENCODE_INT.U32 (R114). -/
def execEncodeIntU32 (value : Int) (outBuf : Buf) (s : State) : Outcome :=
  encodeInt .u32 value outBuf s

/-- ENCODE_INT.I32 (R115). -/
def execEncodeIntI32 (value : Int) (outBuf : Buf) (s : State) : Outcome :=
  encodeInt .i32 value outBuf s

/-- ENCODE_INT.U64 (R116). -/
def execEncodeIntU64 (value : Int) (outBuf : Buf) (s : State) : Outcome :=
  encodeInt .u64 value outBuf s

/-- ENCODE_INT.I64 (R117). -/
def execEncodeIntI64 (value : Int) (outBuf : Buf) (s : State) : Outcome :=
  encodeInt .i64 value outBuf s

/-- DECODE_FLOAT.U8.F32 (R101). -/
def execDecodeFloatU8F32 (buf : Buf) (offset : Nat) (scale : F32) (s : State) : Outcome :=
  decodeFloat32 .u8 buf offset scale s

/-- DECODE_FLOAT.I8.F32 (R102). -/
def execDecodeFloatI8F32 (buf : Buf) (offset : Nat) (scale : F32) (s : State) : Outcome :=
  decodeFloat32 .i8 buf offset scale s

/-- DECODE_FLOAT.U16.F32 (R103). -/
def execDecodeFloatU16F32 (buf : Buf) (offset : Nat) (scale : F32) (s : State) : Outcome :=
  decodeFloat32 .u16 buf offset scale s

/-- DECODE_FLOAT.I16.F32 (R104). -/
def execDecodeFloatI16F32 (buf : Buf) (offset : Nat) (scale : F32) (s : State) : Outcome :=
  decodeFloat32 .i16 buf offset scale s

/-- DECODE_FLOAT.U32.F32 (R105). -/
def execDecodeFloatU32F32 (buf : Buf) (offset : Nat) (scale : F32) (s : State) : Outcome :=
  decodeFloat32 .u32 buf offset scale s

/-- DECODE_FLOAT.I32.F32 (R106). -/
def execDecodeFloatI32F32 (buf : Buf) (offset : Nat) (scale : F32) (s : State) : Outcome :=
  decodeFloat32 .i32 buf offset scale s

/-- DECODE_FLOAT.U64.F32 (R107). -/
def execDecodeFloatU64F32 (buf : Buf) (offset : Nat) (scale : F32) (s : State) : Outcome :=
  decodeFloat32 .u64 buf offset scale s

/-- DECODE_FLOAT.I64.F32 (R108). -/
def execDecodeFloatI64F32 (buf : Buf) (offset : Nat) (scale : F32) (s : State) : Outcome :=
  decodeFloat32 .i64 buf offset scale s

/-- DECODE_FLOAT.U8.F64 (R101). -/
def execDecodeFloatU8F64 (buf : Buf) (offset : Nat) (scale : F64) (s : State) : Outcome :=
  decodeFloat64 .u8 buf offset scale s

/-- DECODE_FLOAT.I8.F64 (R102). -/
def execDecodeFloatI8F64 (buf : Buf) (offset : Nat) (scale : F64) (s : State) : Outcome :=
  decodeFloat64 .i8 buf offset scale s

/-- DECODE_FLOAT.U16.F64 (R103). -/
def execDecodeFloatU16F64 (buf : Buf) (offset : Nat) (scale : F64) (s : State) : Outcome :=
  decodeFloat64 .u16 buf offset scale s

/-- DECODE_FLOAT.I16.F64 (R104). -/
def execDecodeFloatI16F64 (buf : Buf) (offset : Nat) (scale : F64) (s : State) : Outcome :=
  decodeFloat64 .i16 buf offset scale s

/-- DECODE_FLOAT.U32.F64 (R105). -/
def execDecodeFloatU32F64 (buf : Buf) (offset : Nat) (scale : F64) (s : State) : Outcome :=
  decodeFloat64 .u32 buf offset scale s

/-- DECODE_FLOAT.I32.F64 (R106). -/
def execDecodeFloatI32F64 (buf : Buf) (offset : Nat) (scale : F64) (s : State) : Outcome :=
  decodeFloat64 .i32 buf offset scale s

/-- DECODE_FLOAT.U64.F64 (R107). -/
def execDecodeFloatU64F64 (buf : Buf) (offset : Nat) (scale : F64) (s : State) : Outcome :=
  decodeFloat64 .u64 buf offset scale s

/-- DECODE_FLOAT.I64.F64 (R108). -/
def execDecodeFloatI64F64 (buf : Buf) (offset : Nat) (scale : F64) (s : State) : Outcome :=
  decodeFloat64 .i64 buf offset scale s

end Sys2Proof.Machine
end

