-- ==== Sys2Proof/Machine/FramerTx.lean ====
section
/-! DEFINITION. Machine/FramerTx.lean: the transmit framer, PACK and SEND (spec/42_framer_tx.md R150 to R153; frame
layouts 30_encoding.md R62, R63). -/

namespace Sys2Proof.Machine

/-- The checksummed bytes of a V1 frame: `len`, `code` and the data (30 R67). -/
def bodyV1 (len code : BitVec 16) (data : Buf) : Buf := [lo8 len, lo8 code] ++ data

/-- The checksummed bytes of a V2 frame: `flag`, the code and the length low byte first, and the data (30 R67). -/
def bodyV2 (flag : Byte) (code len : BitVec 16) (data : Buf) : Buf :=
  [flag, lo8 code, hi8 code, lo8 len, hi8 len] ++ data

/-- `pack_v1` (R150). -/
def packV1 (code : Code) (data : Buf) : Buf :=
  let body := bodyV1 (BitVec.ofNat 16 data.length) code data
  [Config.SOF, Config.VAR_V1, Config.DIR_REQ] ++ body ++ [xor8 body]

/-- `pack_v2` (R151); the flag is 0x00 on transmit. -/
def packV2 (code : Code) (data : Buf) : Buf :=
  let body := bodyV2 0x00 code (BitVec.ofNat 16 data.length) data
  [Config.SOF, Config.VAR_V2, Config.DIR_REQ] ++ body ++ [crc8 body]

/-- The frame of a version. -/
def packFrame (v : Version) (code : Code) (data : Buf) : Buf :=
  match v with
  | .v1 => packV1 code data
  | .v2 => packV2 code data

/-- The two guards PACK and SEND share, in the order of R152 and R153: the length against `max_payload` with
`>=`, then the 8-bit code of V1. -/
def packGuard (v : Version) (code : Code) (data : Buf) : Option ErrKind :=
  if maxPayload v ≤ data.length then some .payloadTooLarge
  else if v = .v1 ∧ 255 < code.toNat then some .badOperand
  else none

/-- PACK (R152): a pure function; the version is an operand, `VER` is not read. -/
def execPack (version : Version) (code : Code) (data : Buf) (s : State) : Outcome :=
  match packGuard version code data with
  | some k => raise k s
  | none => ret (.buf (packFrame version code data)) s

/-- SEND (R153): the port sampled once and first, then the guards at `VER` (`MAXP` is `max_payload(VER)`), then
one write of the whole frame. -/
def execSend (code : Code) (data : Buf) (s : State) : Outcome :=
  if s.portOpen then
    match packGuard s.ver code data with
    | some k => raise k s
    | none =>
      let frame := packFrame s.ver code data
      let w := txWrite s frame
      if w.1 < frame.length then raise .writeShort w.2 else ret .none w.2
  else raise .portClosed s

end Sys2Proof.Machine
end

