-- ==== Sys2Proof/Machine/FramerRx.lean ====
section
/-! DEFINITION. Machine/FramerRx.lean: the receive machine as one function (spec/43_framer_rx.md R172 to R181), one
definition per state, and RECV and UNPACK over it (R182, R183). -/

namespace Sys2Proof.Machine

/-- What a run of the machine delivers or fails with (R181 `Outcome`). -/
inductive RxOutcome where
  | deliver (code : Code) (data : Buf)
  | fail (k : ErrKind)
deriving DecidableEq, Repr

/-- How a run ended: its outcome, the version after it, the warnings it emitted, the working registers and what is
left of the stream. -/
structure RxEnd where
  outcome : RxOutcome
  version : Version
  warnings : List Warning
  regs : RxRegs
  stream : RxStream
deriving DecidableEq, Repr

/-- A run ends, or it does not, for one of the two reasons of 70 R248. -/
inductive RxRun where
  | ended (e : RxEnd)
  | hung (why : Fault)
deriving DecidableEq, Repr

/-- `RXS <- SEARCH; return (out, v)`: every run ends in SEARCH (R171). -/
def rxStop (out : RxOutcome) (v : Version) (regs : RxRegs) (st : RxStream) : RxRun :=
  .ended ⟨out, v, [], { regs with rxs := .search }, st⟩

/-- One `read(n)` of the machine: short ends the run with ShortRead, the bytes it gave being gone (R179); full
goes on with them. -/
def rxReadThen (n : Nat) (v : Version) (regs : RxRegs) (st : RxStream) (next : Buf → RxStream → RxRun) : RxRun :=
  match st.read n with
  | .never => .hung .readNeverAnswers
  | .got r rest => if r.length < n then rxStop (.fail .shortRead) v regs rest else next r rest

/-- The checksum state CRC expects, computed over the bytes as received (R178). -/
def rxExpected (v : Version) (regs : RxRegs) : Byte :=
  match v with
  | .v1 => xor8 (bodyV1 regs.len regs.code regs.data)
  | .v2 => crc8 (bodyV2 regs.flag regs.code regs.len regs.data)

/-- State CRC (R178). -/
def rxCrc (v : Version) (regs : RxRegs) (st : RxStream) : RxRun :=
  let regs := { regs with rxs := .crc }
  rxReadThen 1 v regs st fun r rest =>
    let regs := { regs with rxcrc := r.headD 0 }
    if regs.rxcrc = rxExpected v regs then rxStop (.deliver regs.code regs.data) v regs rest
    else rxStop (.fail .checksumError) v regs rest

/-- State PAYLOAD (R177): one read of LEN bytes, compared with nothing. -/
def rxPayload (v : Version) (regs : RxRegs) (st : RxStream) : RxRun :=
  let regs := { regs with rxs := .payload }
  rxReadThen regs.len.toNat v regs st fun r rest => rxCrc v { regs with data := r } rest

/-- The direction test, after the whole header and before any payload byte (R176). -/
def rxDirection (v : Version) (regs : RxRegs) (st : RxStream) : RxRun :=
  if regs.type = Config.DIR_ERR then rxStop (.fail .remoteError) v regs st else rxPayload v regs st

/-- The registers after a V1 header `type, len, code` (R174); FLAG is not written (10_state.md R25). -/
def RxRegs.header1 (regs : RxRegs) (h : Buf) : RxRegs :=
  { regs with type := h.getD 0 0, len := zext16 (h.getD 1 0), code := zext16 (h.getD 2 0) }

/-- The registers after a V2 header `type, flag, code_lo, code_hi, len_lo, len_hi` (R175, 90_conflicts.md C1). -/
def RxRegs.header2 (regs : RxRegs) (h : Buf) : RxRegs :=
  { regs with type := h.getD 0 0, flag := h.getD 1 0, code := word16 (h.getD 2 0) (h.getD 3 0),
              len := word16 (h.getD 4 0) (h.getD 5 0) }

/-- State HDR1 (R174). -/
def rxHdr1 (v : Version) (regs : RxRegs) (st : RxStream) : RxRun :=
  let regs := { regs with rxs := .hdr1 }
  rxReadThen 3 v regs st fun h rest => rxDirection v (regs.header1 h) rest

/-- State HDR2 (R175). -/
def rxHdr2 (v : Version) (regs : RxRegs) (st : RxStream) : RxRun :=
  let regs := { regs with rxs := .hdr2 }
  rxReadThen 6 v regs st fun h rest => rxDirection v (regs.header2 h) rest

/-- The mismatch arm of VARIANT (R173): warn, switch the version, read nothing more. -/
def rxMismatch (v : Version) (regs : RxRegs) (st : RxStream) : RxRun :=
  .ended ⟨.fail .versionMismatch, v.other, [.versionMismatch], { regs with rxs := .search }, st⟩

/-- State VARIANT (R173): every byte but the expected letter takes the mismatch arm (92 D22, 90 C6). -/
def rxVariant (v : Version) (regs : RxRegs) (st : RxStream) : RxRun :=
  let regs := { regs with rxs := .variant }
  rxReadThen 1 v regs st fun r rest =>
    if r.headD 0 = Config.VAR_V1 ∧ v = .v1 then rxHdr1 v regs rest
    else if r.headD 0 = Config.VAR_V2 ∧ v = .v2 then rxHdr2 v regs rest
    else rxMismatch v regs rest

/-- How the scan of state SEARCH ends. -/
inductive SearchEnd where
  | found (st : RxStream)
  | short (st : RxStream)
  | hung (why : Fault)
deriving DecidableEq, Repr

/-- The scan where the listed bytes are used up and `tail` repeats without end behind them, or nothing does. As long as
answers are listed they rule; then every read succeeds, and a `tail` with no `$` is scanned for ever (70 R248). -/
def rxScanTail : List ReadAnswer → Buf → SearchEnd
  | [], [] => .short ⟨[], [], []⟩
  | [], b :: bs =>
    if Config.SOF ∈ b :: bs then .found ⟨[], [], (b :: bs).rotate ((b :: bs).idxOf Config.SOF + 1)⟩
    else .hung .searchNeverEnds
  | .never :: _, _ => .hung .readNeverAnswers
  | .gives _ :: as, [] => .short ⟨[], as, []⟩
  | .gives 0 :: as, b :: bs => .short ⟨[], as, b :: bs⟩
  | .gives (_ + 1) :: as, b :: bs =>
    if b = Config.SOF then .found ⟨[], as, bs ++ [b]⟩ else rxScanTail as (bs ++ [b])

/-- State SEARCH (R172): one-byte reads until one gives `$`; every other byte is consumed and forgotten. The
clauses are those of `RxStream.read` for one byte, written over the bytes so that the recursion is seen to end. -/
def rxScan (tail : Buf) : Buf → List ReadAnswer → SearchEnd
  | [], as => rxScanTail as tail
  | _ :: _, .never :: _ => .hung .readNeverAnswers
  | b :: bs, [] => if b = Config.SOF then .found ⟨bs, [], tail⟩ else rxScan tail bs []
  | b :: bs, .gives 0 :: as => .short ⟨b :: bs, as, tail⟩
  | b :: bs, .gives (_ + 1) :: as => if b = Config.SOF then .found ⟨bs, as, tail⟩ else rxScan tail bs as

/-- The machine as one function (R181): from SEARCH, expecting version `v`. -/
def rxMachine (v : Version) (regs : RxRegs) (st : RxStream) : RxRun :=
  let regs := { regs with rxs := .search }
  match rxScan st.tail st.bytes st.answers with
  | .hung why => .hung why
  | .short rest => rxStop (.fail .shortRead) v regs rest
  | .found rest => rxVariant v regs rest

/-- The working registers after a failed RECV: unspecified (10_state.md R25, 93 U10; free, log 11), but for CODE
after RemoteError, which holds the code of the failing frame (60 R217). -/
def rxRegsAfterFail (k : ErrKind) (regs : RxRegs) (n : Nat) : RxRegs :=
  match k with
  | .remoteError => { RxRegs.unspecified n with code := regs.code }
  | _ => RxRegs.unspecified n

/-- What an ended run leaves in the state (R182): the stream consumed, the version, the warnings. -/
def State.afterRun (s : State) (e : RxEnd) : State :=
  { s with rxq := e.stream.bytes, rxTail := e.stream.tail, rxAnswers := e.stream.answers, ver := e.version,
           warnlog := s.warnlog ++ e.warnings }

/-- `RXD` as RECV reads it. -/
def State.rxStream (s : State) : RxStream := ⟨s.rxq, s.rxAnswers, s.rxTail⟩

/-- RECV (R182): the port sampled once and first; then the machine on RXQ at `VER`. -/
def execRecv (s : State) : Outcome :=
  if s.portOpen then
    match rxMachine s.ver s.rx s.rxStream with
    | .hung why => .fault why
    | .ended e =>
      match e.outcome with
      | .deliver code data => ret (.packet code data) { s.afterRun e with rx := e.regs }
      | .fail k =>
        raise k { s.afterRun e with
          rx := rxRegsAfterFail k e.regs s.freeCount, freeCount := s.freeCount + 1 }
  else raise .portClosed s

/-- UNPACK (R183): the same machine on the operand buffer, on a private copy of the registers; the warning and
the new version are dropped, so no state is written. A read of a buffer is always answered, and a buffer ends. -/
def execUnpack (version : Version) (frame : Buf) (s : State) : Outcome :=
  match rxMachine version RxRegs.reset ⟨frame, [], []⟩ with
  | .hung why => .fault why
  | .ended e =>
    match e.outcome with
    | .deliver code data => ret (.packet code data) s
    | .fail k => raise k s

end Sys2Proof.Machine
end

