-- ==== Sys2Proof/Machine/RxTable.lean ====
section
/-! DEFINITION. Machine/RxTable.lean: the receive machine as spec/43_framer_rx.md R171 tabulates it, one arrow at a
time. `exec` runs the function of R181 (`rxMachine`); the obligation
RunningTheR171TableGivesTheR181Function says the two are one machine. -/

namespace Sys2Proof.Machine

/-- One arrow: to another state, or the end of the run. -/
inductive RxMove where
  | goto (regs : RxRegs) (st : RxStream)
  | stop (run : RxRun)
deriving DecidableEq, Repr

/-- The row "any, any read, the read is short: end ShortRead", and its complement. -/
def rxArrow (n : Nat) (v : Version) (regs : RxRegs) (st : RxStream) (full : Buf → RxStream → RxMove) : RxMove :=
  match st.read n with
  | .never => .stop (.hung .readNeverAnswers)
  | .got r rest => if r.length < n then .stop (rxStop (.fail .shortRead) v regs rest) else full r rest

/-- One step of the table of R171. -/
def rxTableStep (v : Version) (regs : RxRegs) (st : RxStream) : RxMove :=
  match regs.rxs with
  | .search => rxArrow 1 v regs st fun r rest =>
      if r = [Config.SOF] then .goto { regs with rxs := .variant } rest else .goto regs rest
  | .variant => rxArrow 1 v regs st fun r rest =>
      if r = [Config.VAR_V1] ∧ v = .v1 then .goto { regs with rxs := .hdr1 } rest
      else if r = [Config.VAR_V2] ∧ v = .v2 then .goto { regs with rxs := .hdr2 } rest
      else .stop (rxMismatch v regs rest)
  | .hdr1 => rxArrow 3 v regs st fun h rest =>
      let regs := regs.header1 h
      if regs.type = Config.DIR_ERR then .stop (rxStop (.fail .remoteError) v regs rest)
      else .goto { regs with rxs := .payload } rest
  | .hdr2 => rxArrow 6 v regs st fun h rest =>
      let regs := regs.header2 h
      if regs.type = Config.DIR_ERR then .stop (rxStop (.fail .remoteError) v regs rest)
      else .goto { regs with rxs := .payload } rest
  | .payload => rxArrow regs.len.toNat v regs st fun r rest =>
      .goto { regs with data := r, rxs := .crc } rest
  | .crc => rxArrow 1 v regs st fun r rest =>
      let regs := { regs with rxcrc := r.headD 0 }
      if regs.rxcrc = rxExpected v regs then .stop (rxStop (.deliver regs.code regs.data) v regs rest)
      else .stop (rxStop (.fail .checksumError) v regs rest)

/-- Follow at most `n` arrows of the table; `none` if the run has not ended by then. -/
def rxTableRun : Nat → Version → RxRegs → RxStream → Option RxRun
  | 0, _, _, _ => none
  | n + 1, v, regs, st =>
    match rxTableStep v regs st with
    | .stop run => some run
    | .goto regs' st' => rxTableRun n v regs' st'

end Sys2Proof.Machine
end

