-- ==== Sys2Proof/Machine/Control.lean ====
section
/-! DEFINITION. Machine/Control.lean: SETVER, GETVER, GETMAXP, FLUSH (spec/44_control.md R200 to R203). None is
privileged, none can fail, none tests the port (60_exceptions.md R228, 93 U8). -/

namespace Sys2Proof.Machine

/-- SETVER (R200): `MAXP`, the function of `VER`, follows in the same step. -/
def execSetVer (version : Version) (s : State) : Outcome := ret .none { s with ver := version }

/-- GETVER (R201). -/
def execGetVer (s : State) : Outcome := ret (.version s.ver) s

/-- GETMAXP (R202). -/
def execGetMaxp (s : State) : Outcome := ret (.int s.maxp) s

/-- FLUSH (R203). -/
def execFlush (s : State) : Outcome := ret .none (flushRx s)

end Sys2Proof.Machine
end

