-- ==== Sys2Proof/Machine/Dispatch.lean ====
section
/-! DEFINITION. Machine/Dispatch.lean: one arm per operation, each one call of its meaning. -/

namespace Sys2Proof.Machine

def exec (i : Instr) (s : State) : Host.Outcome State Fault Refusal :=
  match i with
  | .decodeIntU8 buf offset => Sys2Proof.Machine.execDecodeIntU8 buf offset s
  | .decodeIntI8 buf offset => Sys2Proof.Machine.execDecodeIntI8 buf offset s
  | .decodeIntU16 buf offset => Sys2Proof.Machine.execDecodeIntU16 buf offset s
  | .decodeIntI16 buf offset => Sys2Proof.Machine.execDecodeIntI16 buf offset s
  | .decodeIntU32 buf offset => Sys2Proof.Machine.execDecodeIntU32 buf offset s
  | .decodeIntI32 buf offset => Sys2Proof.Machine.execDecodeIntI32 buf offset s
  | .decodeIntU64 buf offset => Sys2Proof.Machine.execDecodeIntU64 buf offset s
  | .decodeIntI64 buf offset => Sys2Proof.Machine.execDecodeIntI64 buf offset s
  | .encodeIntU8 value outBuf => Sys2Proof.Machine.execEncodeIntU8 value outBuf s
  | .encodeIntI8 value outBuf => Sys2Proof.Machine.execEncodeIntI8 value outBuf s
  | .encodeIntU16 value outBuf => Sys2Proof.Machine.execEncodeIntU16 value outBuf s
  | .encodeIntI16 value outBuf => Sys2Proof.Machine.execEncodeIntI16 value outBuf s
  | .encodeIntU32 value outBuf => Sys2Proof.Machine.execEncodeIntU32 value outBuf s
  | .encodeIntI32 value outBuf => Sys2Proof.Machine.execEncodeIntI32 value outBuf s
  | .encodeIntU64 value outBuf => Sys2Proof.Machine.execEncodeIntU64 value outBuf s
  | .encodeIntI64 value outBuf => Sys2Proof.Machine.execEncodeIntI64 value outBuf s
  | .decodeFloatU8F32 buf offset scale => Sys2Proof.Machine.execDecodeFloatU8F32 buf offset scale s
  | .decodeFloatI8F32 buf offset scale => Sys2Proof.Machine.execDecodeFloatI8F32 buf offset scale s
  | .decodeFloatU16F32 buf offset scale => Sys2Proof.Machine.execDecodeFloatU16F32 buf offset scale s
  | .decodeFloatI16F32 buf offset scale => Sys2Proof.Machine.execDecodeFloatI16F32 buf offset scale s
  | .decodeFloatU32F32 buf offset scale => Sys2Proof.Machine.execDecodeFloatU32F32 buf offset scale s
  | .decodeFloatI32F32 buf offset scale => Sys2Proof.Machine.execDecodeFloatI32F32 buf offset scale s
  | .decodeFloatU64F32 buf offset scale => Sys2Proof.Machine.execDecodeFloatU64F32 buf offset scale s
  | .decodeFloatI64F32 buf offset scale => Sys2Proof.Machine.execDecodeFloatI64F32 buf offset scale s
  | .decodeFloatU8F64 buf offset scale => Sys2Proof.Machine.execDecodeFloatU8F64 buf offset scale s
  | .decodeFloatI8F64 buf offset scale => Sys2Proof.Machine.execDecodeFloatI8F64 buf offset scale s
  | .decodeFloatU16F64 buf offset scale => Sys2Proof.Machine.execDecodeFloatU16F64 buf offset scale s
  | .decodeFloatI16F64 buf offset scale => Sys2Proof.Machine.execDecodeFloatI16F64 buf offset scale s
  | .decodeFloatU32F64 buf offset scale => Sys2Proof.Machine.execDecodeFloatU32F64 buf offset scale s
  | .decodeFloatI32F64 buf offset scale => Sys2Proof.Machine.execDecodeFloatI32F64 buf offset scale s
  | .decodeFloatU64F64 buf offset scale => Sys2Proof.Machine.execDecodeFloatU64F64 buf offset scale s
  | .decodeFloatI64F64 buf offset scale => Sys2Proof.Machine.execDecodeFloatI64F64 buf offset scale s
  | .xor8Buf buf => Sys2Proof.Machine.execXor8Buf buf s
  | .crc8Buf buf => Sys2Proof.Machine.execCrc8Buf buf s
  | .crcClr => Sys2Proof.Machine.execCrcClr s
  | .crcUpd byte => Sys2Proof.Machine.execCrcUpd byte s
  | .crcRd => Sys2Proof.Machine.execCrcRd s
  | .pack version code data => Sys2Proof.Machine.execPack version code data s
  | .send code data => Sys2Proof.Machine.execSend code data s
  | .unpack version frame => Sys2Proof.Machine.execUnpack version frame s
  | .recv => Sys2Proof.Machine.execRecv s
  | .setVer version => Sys2Proof.Machine.execSetVer version s
  | .getVer => Sys2Proof.Machine.execGetVer s
  | .getMaxp => Sys2Proof.Machine.execGetMaxp s
  | .flush => Sys2Proof.Machine.execFlush s

end Sys2Proof.Machine
end

