-- ==== Sys2Proof/Machine/Step.lean ====
section
/-! DEFINITION. Machine/Step.lean: one step: the block takes the next input that waits and runs it to its end
(spec/00_scope.md R12, 70_reset_and_hazards.md R255; log 1). -/

namespace Sys2Proof.Machine

/-- A command is decoded and executed; one that is no operation of this block is rejected (30_encoding.md R74; log 26), and one that cannot be
written down at a finite `BUFCAP` or `OFFW` is refused by name (log 24). -/
def runCommand (c : Command) (s : State) : Outcome :=
  match s.params.decodes c with
  | .instr i => if s.params.admits c then exec i s else .refused .operandBeyondParameters
  | .error e => rejectCommand e s

/-- What one input does: a command runs, a reset sets the block state (70 R240), the link peer's inputs change the
environment only. -/
def runInput (i : Input) (s : State) : Outcome :=
  match i with
  | .command c => runCommand c s
  | .reset v => .next (s.resetBlock v)
  | .portLevel level => .next { s with portOpen := level }
  | .arrive bytes => .next { s with rxq := s.rxq ++ bytes }
  | .endless bytes => .next { s with rxTail := bytes }

/-- One step. With nothing waiting the block is idle and nothing changes (log 1). -/
def step (s : State) : Host.Outcome State Fault Refusal :=
  match s.takeInput with
  | none => .next s
  | some (i, rest) => runInput i rest

/-- `s` with the command of a table word, its operands zeros, as the very next input. -/
def State.withFetchWord (s : State) (nbits w : Nat) : State :=
  s.present (.command (commandOfTableWord nbits w))

end Sys2Proof.Machine
end

