-- ==== Sys2Proof/Safety.lean ====
section
/-! DEFINITION. Safety.lean: what the claims are stated in: the invariant of the block (spec/10_state.md R32), the reads
a run makes and which of them are answered in full, frames byte by byte as 30_encoding.md R62 and R63 lay them out, a bit
flip, and the real number an encoding of a float stands for. -/

namespace Sys2Proof.Safety

open Sys2Proof.Machine

/-- `u[8k+7 : 8k]`, byte `k` of a number. -/
def byteOf (u k : Nat) : Byte := BitVec.ofNat 8 (u / 256 ^ k)

/-- The two's complement reading of an `n`-byte number `u` (40_codec.md R90). -/
def twosComplement (n u : Nat) : Int := if u < 2 ^ (8 * n - 1) then (u : Int) else (u : Int) - 2 ^ (8 * n)

/-- The two's complement image of a value in `n` bytes (R109): `value` itself, or `value + 2^(8n)` below 0. -/
def imageOf (n : Nat) (value : Int) : Nat := if 0 ≤ value then value.toNat else (value + 2 ^ (8 * n)).toNat

/-- DECODE_INT.T, the type as an argument. -/
def decodeIntOf : IntType → Buf → Nat → Instr
  | .u8 => .decodeIntU8 | .i8 => .decodeIntI8 | .u16 => .decodeIntU16 | .i16 => .decodeIntI16
  | .u32 => .decodeIntU32 | .i32 => .decodeIntI32 | .u64 => .decodeIntU64 | .i64 => .decodeIntI64

/-- ENCODE_INT.T, the type as an argument. -/
def encodeIntOf : IntType → Int → Buf → Instr
  | .u8 => .encodeIntU8 | .i8 => .encodeIntI8 | .u16 => .encodeIntU16 | .i16 => .encodeIntI16
  | .u32 => .encodeIntU32 | .i32 => .encodeIntI32 | .u64 => .encodeIntU64 | .i64 => .encodeIntI64

/-- The letter a version's frames carry as their second byte (R61). -/
def letter : Version → Byte
  | .v1 => 0x4D
  | .v2 => 0x58

/-- A valid frame, byte by byte from R62 and R63: any direction byte `typ`, and under V2 any flag. -/
def validFrame (v : Version) (typ flag : Byte) (code : Code) (data : Buf) : Buf :=
  match v with
  | .v1 =>
    [0x24, 0x4D, typ, byteOf data.length 0, byteOf code.toNat 0] ++ data ++
      [xor8 ([byteOf data.length 0, byteOf code.toNat 0] ++ data)]
  | .v2 =>
    [0x24, 0x58, typ, flag, byteOf code.toNat 0, byteOf code.toNat 1, byteOf data.length 0, byteOf data.length 1]
      ++ data ++
      [crc8 ([flag, byteOf code.toNat 0, byteOf code.toNat 1, byteOf data.length 0, byteOf data.length 1] ++ data)]

/-- The frame SEND emits: direction `<`, flag 0 (42_framer_tx.md R150, R151). -/
def frameBytes (v : Version) (code : Code) (data : Buf) : Buf := validFrame v 0x3C 0x00 code data

/-- The code and the length fit the fields of a frame of version `v` (30_encoding.md R62, R63). -/
def framable (v : Version) (code : Code) (data : Buf) : Prop :=
  match v with
  | .v1 => data.length ≤ 255 ∧ code.toNat ≤ 255
  | .v2 => data.length ≤ 65535

/-- PACK and SEND accept these operands under version `v` (42_framer_tx.md R152). -/
def sendable (v : Version) (code : Code) (data : Buf) : Prop :=
  match v with
  | .v1 => data.length < 255 ∧ code.toNat ≤ 255
  | .v2 => data.length < 65535

/-- Reads of these sizes, one after the other, are answered in full as far as answers are listed; behind the list the
finite-stream model supplies every byte (20_memory.md R48). A read of 0 bytes uses no answer up. What the list says
of later reads does not matter. -/
def answeredInFull : List Nat → List ReadAnswer → Prop
  | [], _ => True
  | 0 :: ns, as => answeredInFull ns as
  | (_ + 1) :: _, [] => True
  | (n + 1) :: ns, .gives k :: as => n + 1 ≤ k ∧ answeredInFull ns as
  | (_ + 1) :: _, .never :: _ => False

/-- The answers that reads of these sizes leave on the list. -/
def answersLeft : List Nat → List ReadAnswer → List ReadAnswer
  | [], as => as
  | 0 :: ns, as => answersLeft ns as
  | (_ + 1) :: ns, as => answersLeft ns as.tail

/-- The size of a header after the preamble (43_framer_rx.md R174, R175). -/
def headerSize : Version → Nat
  | .v1 => 3
  | .v2 => 6

/-- The reads of SEARCH and VARIANT when `n` bytes stand before the `$`. -/
def preambleReads (n : Nat) : List Nat := List.replicate (n + 2) 1

/-- The reads of a run on a whole frame of `v` with `len` bytes of payload behind `n` bytes without `$`. -/
def frameReads (v : Version) (n len : Nat) : List Nat := preambleReads n ++ [headerSize v, len, 1]

/-- Where a run can stand before a read (43_framer_rx.md R171), with VER = `v` and garbage `g` in front of the frame:
`NextRead v g consumed reads n` says that it has consumed these bytes in reads of these sizes, and that its next read
asks for `n` bytes. -/
inductive NextRead (v : Version) (g : Buf) : Buf → List Nat → Nat → Prop where
  | search : NextRead v g g (List.replicate g.length 1) 1
  | variant : NextRead v g (g ++ [0x24]) (List.replicate (g.length + 1) 1) 1
  | header : NextRead v g (g ++ [0x24, letter v]) (preambleReads g.length) (headerSize v)
  | payloadV1 (typ len code : Byte) : v = .v1 → typ ≠ 0x21 →
      NextRead v g (g ++ [0x24, 0x4D, typ, len, code]) (preambleReads g.length ++ [3]) len.toNat
  | payloadV2 (typ flag codeLo codeHi lenLo lenHi : Byte) : v = .v2 → typ ≠ 0x21 →
      NextRead v g (g ++ [0x24, 0x58, typ, flag, codeLo, codeHi, lenLo, lenHi]) (preambleReads g.length ++ [6])
        (lenLo.toNat + 256 * lenHi.toNat)
  | crcV1 (typ len code : Byte) (data : Buf) : v = .v1 → typ ≠ 0x21 → data.length = len.toNat →
      NextRead v g (g ++ [0x24, 0x4D, typ, len, code] ++ data) (preambleReads g.length ++ [3, data.length]) 1
  | crcV2 (typ flag codeLo codeHi lenLo lenHi : Byte) (data : Buf) : v = .v2 → typ ≠ 0x21 →
      data.length = lenLo.toNat + 256 * lenHi.toNat →
      NextRead v g (g ++ [0x24, 0x58, typ, flag, codeLo, codeHi, lenLo, lenHi] ++ data)
        (preambleReads g.length ++ [6, data.length]) 1

/-- The next write of `n` bytes is accepted whole (20_memory.md R49). -/
def acceptsWhole (s : State) (n : Nat) : Prop := ∀ k ∈ s.txAnswers.head?, n ≤ k

/-- The checksum of a version (30_encoding.md R67). -/
def checksum : Version → Buf → Byte
  | .v1 => xor8
  | .v2 => crc8

/-- The length a frame's header states. -/
def statedLength (v : Version) (f : Buf) : Nat :=
  match v with
  | .v1 => (f.getD 3 0).toNat
  | .v2 => (f.getD 6 0).toNat + 256 * (f.getD 7 0).toNat

/-- One bit of one byte flipped. -/
def flipBit (b : Buf) (i k : Nat) : Buf := b.modify i (fun x => x ^^^ BitVec.ofNat 8 (2 ^ k))

/-- A piece of TXLOG: the first bytes of one frame SEND makes; `whole` when it is all of it. -/
structure TxPart where
  bytes : Buf
  whole : Bool
deriving DecidableEq, Repr

def TxPart.ok (p : TxPart) : Prop :=
  ∃ v code data, sendable v code data ∧ p.bytes <+: frameBytes v code data ∧
    (p.whole = true → p.bytes = frameBytes v code data)

/-- (I-3) of R32: TXLOG is a concatenation of such pieces, and the pieces that are not whole frames are no more
than the SENDs that ended with WriteShort. -/
def TxFramed (s : State) : Prop :=
  ∃ parts : List TxPart, (parts.map TxPart.bytes).flatten = s.txlog ∧ (∀ p ∈ parts, p.ok) ∧
    parts.countP (fun p => !p.whole) ≤ s.resLog.count (.err .writeShort)

/-- The invariant between any two operations: (I-1), (I-2), (I-3) of R32, the bound on DATA (R20), and that the
two kinds the block never raises stand nowhere on RES (60_exceptions.md R220, R221). -/
structure Invariant (s : State) : Prop where
  maxp : s.maxp = match s.ver with | .v1 => 255 | .v2 => 65535
  idle : s.rx.rxs = .search
  data : s.rx.data.length ≤ 65535
  framed : TxFramed s
  kinds : .err .outOfRange ∉ s.resLog ∧ .err .unsupported ∉ s.resLog

/-- An encoding of a finite number. -/
def finite (f : FloatFormat) (x : Nat) : Prop := x < 2 * f.signWeight ∧ f.mag x < f.infMag

/-- The number a finite encoding stands for (IEEE 754): `(-1)^sign * sig * 2^(step - Q)`. -/
def toRat (f : FloatFormat) (x : Nat) : ℚ :=
  (if f.neg x then -1 else 1) * f.sig x * 2 ^ f.step x / 2 ^ f.Q

/-- `r` encodes the number of the format nearest to `q`; between two equally near, the one whose significand is
even (round to nearest, ties to even). -/
def NearestEven (f : FloatFormat) (q : ℚ) (r : Nat) : Prop :=
  finite f r ∧ ∀ y, finite f y → |toRat f r - q| ≤ |toRat f y - q| ∧
    (|toRat f r - q| = |toRat f y - q| → toRat f y ≠ toRat f r → f.sig r % 2 = 0)

/-- From this magnitude on round to nearest overflows to infinity: half a unit beyond the greatest number. -/
def overflowBound (f : FloatFormat) : ℚ :=
  2 ^ (2 ^ (f.w - 1) : ℕ) - 2 ^ (2 ^ (f.w - 1) - 1 - f.p : ℕ)

end Sys2Proof.Safety
end

