-- ==== Sys2Proof/Certificates/Slice0/Obligations.lean ====
section
/-! DEFINITION. Certificates/Slice0/Obligations.lean: the statements for the provers. A docstring cites the rules of
spec/ and, where a clause rests on a decision (D<n>) or an inference the spec marks as its own or on a choice of the
model (log <n>), says so. Next states are written out as record updates: the fields not named are unchanged. -/

open Sys2Proof Sys2Proof.Machine Sys2Proof.Safety

/-! ### Commands, the step, reset -/

/-- 30_encoding.md R71 to R73: the decoder accepts exactly the commands the encoder makes of the operations a host can
write down, and reads each back whole, operands and all. Both directions; every operand value. (The opcode values
are the spec's decision D3; commands no host can present are turned away by name, log 2.) -/
def Obligations.DecoderAcceptsExactlyTheEncodedOperations : Prop :=
  ∀ (c : Command) (i : Instr), decode c = .instr i ↔ (i.wellFormed = true ∧ encode i = c)

/-- 30_encoding.md R72, R73 (decision D3): words written out bit by bit, one or more of every family, are read as the operations
they stand for; their operands are the zeros with which the model completes a bare table word (DESIGN CHOICE, log 1).
The last word is one of R74 (decision D7): it stands for nothing. -/
def Obligations.WordsOfTheOpcodeMapDecode : Prop :=
  decodeTableWord 8 0b00010011 = some (.decodeIntI16 [] 0) ∧
  decodeTableWord 8 0b00100110 = some (.encodeIntU64 0 []) ∧
  decodeTableWord 8 0b00110101 = some (.decodeFloatI32F32 [] 0 0) ∧
  decodeTableWord 8 0b00111101 = some (.decodeFloatI32F64 [] 0 0) ∧
  decodeTableWord 8 0b01000001 = some (.crc8Buf []) ∧
  decodeTableWord 8 0b01000011 = some (.crcUpd 0) ∧
  decodeTableWord 8 0b01010001 = some (.send 0 []) ∧
  decodeTableWord 8 0b01100001 = some .recv ∧
  decodeTableWord 8 0b01110000 = some (.setVer .v1) ∧
  decodeTableWord 8 0b00011000 = none

/-- 30_encoding.md R74, 60_exceptions.md R222 cause (a) (decision D7): a byte outside the table, with any operands, is
answered `err(BadOperand)`; nothing else changes. -/
def Obligations.IllegalOpcodeAnswersBadOperand : Prop :=
  ∀ (op : Byte) (operands : List Operand) (rest : List Input) (s : State),
    s.pending = .command ⟨op, operands⟩ :: rest →
    (op.toNat ≤ 0x0F ∨ (0x18 ≤ op.toNat ∧ op.toNat ≤ 0x1F) ∨ (0x28 ≤ op.toNat ∧ op.toNat ≤ 0x2F) ∨
      (0x45 ≤ op.toNat ∧ op.toNat ≤ 0x4F) ∨ (0x52 ≤ op.toNat ∧ op.toNat ≤ 0x5F) ∨
      (0x62 ≤ op.toNat ∧ op.toNat ≤ 0x6F) ∨ 0x74 ≤ op.toNat) →
    step s = .next { s with pending := rest, resLog := s.resLog ++ [.err .badOperand] }

/-- 00_scope.md R12 says that the block runs one operation at a time; that CMD is a list whose head one step takes, and that an
operation is one step, are the model's DESIGN CHOICES (log 1, log 21). When the command at the head decodes to an
operation, and its float format, if it has one, is among the block's FLOAT_TYPES (00_scope.md R5), the step is that
operation run at the state with the command taken; a command whose operands cannot be written down at a finite BUFCAP or
OFFW is refused (log 24); at the defaults neither restriction takes anything away. A DECODE_FLOAT opcode of a format that
is not among FLOAT_TYPES, with any operands, is answered `err(BadOperand)` and changes nothing else (DEDUCED, log 26). -/
def Obligations.StepRunsTheDecodedCommand : Prop :=
  ∀ (c : Command) (rest : List Input) (s : State), s.pending = .command c :: rest →
    let absent : Prop :=
      (0x30 ≤ c.op.toNat ∧ c.op.toNat ≤ 0x37 ∧ .f32 ∉ s.params.floatTypes) ∨
      (0x38 ≤ c.op.toNat ∧ c.op.toNat ≤ 0x3F ∧ .f64 ∉ s.params.floatTypes)
    (∀ i, decode c = .instr i → ¬ absent →
      (s.params.admits c = true → step s = exec i { s with pending := rest }) ∧
      (s.params.admits c = false → step s = .refused .operandBeyondParameters)) ∧
    (absent → step s = .next { s with pending := rest, resLog := s.resLog ++ [.err .badOperand] }) ∧
    (s.params.bufCap = none → s.params.offW = none → s.params.admits c = true) ∧
    (s.params = Params.default → ¬ absent)

/-- 70_reset_and_hazards.md R240, R241: a reset at version `v`, taken between two operations, leaves VER = `v`, MAXP
with it, CRCACC 0, RXS = SEARCH, and changes neither stream, nor the port, nor the logs. R31 leaves the working
registers unspecified, and so does this statement. That a reset is an input of its own is log 20. -/
def Obligations.ResetSetsBlockStateAndNothingElse : Prop :=
  ∀ (v : Version) (rest : List Input) (s : State),
    s.pending = .reset v :: rest →
    ∃ regs t, step s = .next t ∧ t = { s with pending := rest, ver := v, crcAcc := 0, rx := regs } ∧
      regs.rxs = .search ∧ t.maxp = (match v with | .v1 => 255 | .v2 => 65535)

/-- 00_scope.md R12, 20_memory.md R50, R52, 70 R248, as the model renders them (log 1, log 20, log 25): bytes that arrive join the
end of RXQ, a stream without end is only one behind RXQ, a new port level is only a new level, and with no input
waiting nothing changes. -/
def Obligations.LinkInputsChangeTheEnvironmentOnly : Prop :=
  ∀ (s : State) (rest : List Input),
    (∀ bytes, s.pending = .arrive bytes :: rest →
      step s = .next { s with pending := rest, rxq := s.rxq ++ bytes }) ∧
    (∀ bytes, s.pending = .endless bytes :: rest →
      step s = .next { s with pending := rest, rxTail := bytes }) ∧
    (∀ level, s.pending = .portLevel level :: rest →
      step s = .next { s with pending := rest, portOpen := level }) ∧
    (s.pending = [] → step s = .next s)

/-- 10_state.md R31: the state after reset, at every value of the parameter RESET_VERSION, and its default V1 (decisions
D8, D10); the other parameters at the defaults of 00_scope.md R5. -/
def Obligations.StateAfterResetIsTheSpecs : Prop :=
  (∀ v, (State.resetWith v).ver = v ∧ (State.resetWith v).crcAcc = 0x00 ∧ (State.resetWith v).rx.rxs = .search ∧
    (State.resetWith v).maxp = (match v with | .v1 => 255 | .v2 => 65535) ∧
    (State.resetWith v).params =
      { floatTypes := [.f32, .f64], floats := .ieee, bufCap := none, offW := none }) ∧
  State.reset = State.resetWith .v1

/-! ### The byte codec -/

/-- 40_codec.md R92, R94, R96, R98: DECODE_INT of U8, U16, U32, U64 at offset `p.len` returns the bytes there as a
little-endian number, whatever stands before and after; where fewer bytes remain than the type has it reports
ShortBuffer; the state is untouched. `buf` and `offset` are any operands. -/
def Obligations.DecodeIntUnsignedReadsLittleEndian : Prop :=
  ∀ (p q buf : Buf) (offset : Nat) (b0 b1 b2 b3 b4 b5 b6 b7 : Byte) (s : State),
    decode ⟨0x10, [.buf buf, .offset offset]⟩ = .instr (.decodeIntU8 buf offset) ∧
    exec (.decodeIntU8 (p ++ [b0] ++ q) p.length) s =
      .next { s with resLog := s.resLog ++ [.ok (.int ((b0.toNat : Nat)))] } ∧
    (buf.length < offset + 1 → exec (.decodeIntU8 buf offset) s =
      .next { s with resLog := s.resLog ++ [.err .shortBuffer] }) ∧
    decode ⟨0x12, [.buf buf, .offset offset]⟩ = .instr (.decodeIntU16 buf offset) ∧
    exec (.decodeIntU16 (p ++ [b0, b1] ++ q) p.length) s =
      .next { s with resLog := s.resLog ++ [.ok (.int ((b0.toNat + b1.toNat * 2 ^ 8 : Nat)))] } ∧
    (buf.length < offset + 2 → exec (.decodeIntU16 buf offset) s =
      .next { s with resLog := s.resLog ++ [.err .shortBuffer] }) ∧
    decode ⟨0x14, [.buf buf, .offset offset]⟩ = .instr (.decodeIntU32 buf offset) ∧
    exec (.decodeIntU32 (p ++ [b0, b1, b2, b3] ++ q) p.length) s =
      .next { s with resLog := s.resLog ++ [.ok (.int ((b0.toNat + b1.toNat * 2 ^ 8 + b2.toNat * 2 ^ 16 + b3.toNat * 2 ^ 24 : Nat)))] } ∧
    (buf.length < offset + 4 → exec (.decodeIntU32 buf offset) s =
      .next { s with resLog := s.resLog ++ [.err .shortBuffer] }) ∧
    decode ⟨0x16, [.buf buf, .offset offset]⟩ = .instr (.decodeIntU64 buf offset) ∧
    exec (.decodeIntU64 (p ++ [b0, b1, b2, b3, b4, b5, b6, b7] ++ q) p.length) s =
      .next { s with resLog := s.resLog ++ [.ok (.int ((b0.toNat + b1.toNat * 2 ^ 8 + b2.toNat * 2 ^ 16 + b3.toNat * 2 ^ 24 + b4.toNat * 2 ^ 32 + b5.toNat * 2 ^ 40 + b6.toNat * 2 ^ 48 + b7.toNat * 2 ^ 56 : Nat)))] } ∧
    (buf.length < offset + 8 → exec (.decodeIntU64 buf offset) s =
      .next { s with resLog := s.resLog ++ [.err .shortBuffer] })

/-- 40_codec.md R93, R95, R97, R99: the same for I8, I16, I32, I64, the number read as two's complement (general knowledge
G1 of the spec, written into these rules). -/
def Obligations.DecodeIntSignedReadsTwosComplement : Prop :=
  ∀ (p q buf : Buf) (offset : Nat) (b0 b1 b2 b3 b4 b5 b6 b7 : Byte) (s : State),
    decode ⟨0x11, [.buf buf, .offset offset]⟩ = .instr (.decodeIntI8 buf offset) ∧
    exec (.decodeIntI8 (p ++ [b0] ++ q) p.length) s =
      .next { s with resLog := s.resLog ++ [.ok (.int (twosComplement 1 (b0.toNat)))] } ∧
    (buf.length < offset + 1 → exec (.decodeIntI8 buf offset) s =
      .next { s with resLog := s.resLog ++ [.err .shortBuffer] }) ∧
    decode ⟨0x13, [.buf buf, .offset offset]⟩ = .instr (.decodeIntI16 buf offset) ∧
    exec (.decodeIntI16 (p ++ [b0, b1] ++ q) p.length) s =
      .next { s with resLog := s.resLog ++ [.ok (.int (twosComplement 2 (b0.toNat + b1.toNat * 2 ^ 8)))] } ∧
    (buf.length < offset + 2 → exec (.decodeIntI16 buf offset) s =
      .next { s with resLog := s.resLog ++ [.err .shortBuffer] }) ∧
    decode ⟨0x15, [.buf buf, .offset offset]⟩ = .instr (.decodeIntI32 buf offset) ∧
    exec (.decodeIntI32 (p ++ [b0, b1, b2, b3] ++ q) p.length) s =
      .next { s with resLog := s.resLog ++ [.ok (.int (twosComplement 4 (b0.toNat + b1.toNat * 2 ^ 8 + b2.toNat * 2 ^ 16 + b3.toNat * 2 ^ 24)))] } ∧
    (buf.length < offset + 4 → exec (.decodeIntI32 buf offset) s =
      .next { s with resLog := s.resLog ++ [.err .shortBuffer] }) ∧
    decode ⟨0x17, [.buf buf, .offset offset]⟩ = .instr (.decodeIntI64 buf offset) ∧
    exec (.decodeIntI64 (p ++ [b0, b1, b2, b3, b4, b5, b6, b7] ++ q) p.length) s =
      .next { s with resLog := s.resLog ++ [.ok (.int (twosComplement 8 (b0.toNat + b1.toNat * 2 ^ 8 + b2.toNat * 2 ^ 16 + b3.toNat * 2 ^ 24 + b4.toNat * 2 ^ 32 + b5.toNat * 2 ^ 40 + b6.toNat * 2 ^ 48 + b7.toNat * 2 ^ 56)))] } ∧
    (buf.length < offset + 8 → exec (.decodeIntI64 buf offset) s =
      .next { s with resLog := s.resLog ++ [.err .shortBuffer] })

/-- 20_memory.md R44, R46: at any offset of any residue, the U16 there is the low 16 bits of the U32 there, and the U8 the
low byte of either. -/
def Obligations.MixedWidthReadsAgree : Prop :=
  ∀ (buf : Buf) (k : Nat) (s : State), k + 4 ≤ buf.length → ∃ n : Nat,
    exec (.decodeIntU32 buf k) s = .next { s with resLog := s.resLog ++ [.ok (.int n)] } ∧
    exec (.decodeIntU16 buf k) s = .next { s with resLog := s.resLog ++ [.ok (.int (n % 65536 : Nat))] } ∧
    exec (.decodeIntU8 buf k) s = .next { s with resLog := s.resLog ++ [.ok (.int (n % 256 : Nat))] }

/-- 40_codec.md R110, R112, R114, R116: ENCODE_INT of an unsigned value in range appends its bytes, least significant
first, to whatever `out_buf` held; the host sees the grown buffer, which the model puts on RES (log 3); the state is
untouched. The grown buffer has room (at the default BUFCAP every buffer has; log 24). -/
def Obligations.EncodeIntUnsignedAppendsLittleEndian : Prop :=
  ∀ (u : Nat) (out : Buf) (s : State),
    (u < 2 ^ 8 → s.params.holds (out.length + 1) = true → decode ⟨0x20, [.int u, .buf out]⟩ = .instr (.encodeIntU8 u out) ∧
      exec (.encodeIntU8 u out) s =
        .next { s with resLog := s.resLog ++ [.ok (.grown (out ++ [byteOf u 0]))] }) ∧
    (u < 2 ^ 16 → s.params.holds (out.length + 2) = true → decode ⟨0x22, [.int u, .buf out]⟩ = .instr (.encodeIntU16 u out) ∧
      exec (.encodeIntU16 u out) s =
        .next { s with resLog := s.resLog ++ [.ok (.grown (out ++ [byteOf u 0, byteOf u 1]))] }) ∧
    (u < 2 ^ 32 → s.params.holds (out.length + 4) = true → decode ⟨0x24, [.int u, .buf out]⟩ = .instr (.encodeIntU32 u out) ∧
      exec (.encodeIntU32 u out) s =
        .next { s with resLog := s.resLog ++ [.ok (.grown (out ++ [byteOf u 0, byteOf u 1, byteOf u 2, byteOf u 3]))] }) ∧
    (u < 2 ^ 64 → s.params.holds (out.length + 8) = true → decode ⟨0x26, [.int u, .buf out]⟩ = .instr (.encodeIntU64 u out) ∧
      exec (.encodeIntU64 u out) s =
        .next { s with resLog := s.resLog ++ [.ok (.grown (out ++ [byteOf u 0, byteOf u 1, byteOf u 2, byteOf u 3, byteOf u 4, byteOf u 5, byteOf u 6, byteOf u 7]))] })

/-- 40_codec.md R111, R113, R115, R117: the same for a signed value in range, a negative one at `value + 2^(8n)` (general
knowledge G1 of the spec, written into these rules). The grown buffer has room (log 24). -/
def Obligations.EncodeIntSignedAppendsTwosComplement : Prop :=
  ∀ (v : Int) (out : Buf) (s : State),
    (-2 ^ 7 ≤ v → v < 2 ^ 7 → s.params.holds (out.length + 1) = true → decode ⟨0x21, [.int v, .buf out]⟩ = .instr (.encodeIntI8 v out) ∧
      exec (.encodeIntI8 v out) s =
        .next { s with resLog := s.resLog ++ [.ok (.grown (out ++ [byteOf (imageOf 1 v) 0]))] }) ∧
    (-2 ^ 15 ≤ v → v < 2 ^ 15 → s.params.holds (out.length + 2) = true → decode ⟨0x23, [.int v, .buf out]⟩ = .instr (.encodeIntI16 v out) ∧
      exec (.encodeIntI16 v out) s =
        .next { s with resLog := s.resLog ++ [.ok (.grown (out ++ [byteOf (imageOf 2 v) 0, byteOf (imageOf 2 v) 1]))] }) ∧
    (-2 ^ 31 ≤ v → v < 2 ^ 31 → s.params.holds (out.length + 4) = true → decode ⟨0x25, [.int v, .buf out]⟩ = .instr (.encodeIntI32 v out) ∧
      exec (.encodeIntI32 v out) s =
        .next { s with resLog := s.resLog ++ [.ok (.grown (out ++ (List.range 4).map (byteOf (imageOf 4 v))))] }) ∧
    (-2 ^ 63 ≤ v → v < 2 ^ 63 → s.params.holds (out.length + 8) = true → decode ⟨0x27, [.int v, .buf out]⟩ = .instr (.encodeIntI64 v out) ∧
      exec (.encodeIntI64 v out) s =
        .next { s with resLog := s.resLog ++ [.ok (.grown (out ++ (List.range 8).map (byteOf (imageOf 8 v))))] })

/-- 40_codec.md R118 and the last sentence of R109 (both derived by the spec; conflict C7): encoding a value of a type
and decoding at the old end of the buffer gives it back, with any bytes before and after; and encoding what was
decoded from exactly the type's bytes appends those bytes. All eight types. The grown buffers have room (log 24). -/
def Obligations.CodecRoundTripsBothWays : Prop :=
  (∀ (T : IntType) (v : Int) (p q : Buf) (s : State), T.inRange v = true →
    s.params.holds (p.length + T.size) = true → ∃ image : Buf, image.length = T.size ∧
    exec (encodeIntOf T v p) s = .next { s with resLog := s.resLog ++ [.ok (.grown (p ++ image))] } ∧
    exec (decodeIntOf T (p ++ image ++ q) p.length) s = .next { s with resLog := s.resLog ++ [.ok (.int v)] }) ∧
  (∀ (T : IntType) (b out : Buf) (s : State), b.length = T.size →
    s.params.holds (out.length + T.size) = true → ∃ v : Int, T.inRange v = true ∧
    exec (decodeIntOf T b 0) s = .next { s with resLog := s.resLog ++ [.ok (.int v)] } ∧
    exec (encodeIntOf T v out) s = .next { s with resLog := s.resLog ++ [.ok (.grown (out ++ b))] })

/-- 40_codec.md R100 to R108 into F32: DECODE_FLOAT takes exactly the integer DECODE_INT of the same type returns, casts it,
multiplies by `scale` with the cast value on the left; ShortBuffer where the bytes do not suffice; the state is
untouched. `cvt` and `fmul` are the machine's arguments (00_scope.md R5), whatever they are. -/
def Obligations.DecodeFloatF32CastsAndScales : Prop :=
  ∀ (p q buf : Buf) (offset : Nat) (b0 b1 b2 b3 b4 b5 b6 b7 : Byte) (scale : F32) (s : State),
    decode ⟨0x30, [.buf buf, .offset offset, .f32 scale]⟩ = .instr (.decodeFloatU8F32 buf offset scale) ∧
    exec (.decodeFloatU8F32 (p ++ [b0] ++ q) p.length scale) s =
      .next { s with resLog := s.resLog ++ [.ok (.f32 (s.params.floats.fmul32 (s.params.floats.cvt32 .u8 ((b0.toNat : Nat))) scale))] } ∧
    (buf.length < offset + 1 → exec (.decodeFloatU8F32 buf offset scale) s =
      .next { s with resLog := s.resLog ++ [.err .shortBuffer] }) ∧
    decode ⟨0x31, [.buf buf, .offset offset, .f32 scale]⟩ = .instr (.decodeFloatI8F32 buf offset scale) ∧
    exec (.decodeFloatI8F32 (p ++ [b0] ++ q) p.length scale) s =
      .next { s with resLog := s.resLog ++ [.ok (.f32 (s.params.floats.fmul32 (s.params.floats.cvt32 .i8 (twosComplement 1 (b0.toNat))) scale))] } ∧
    (buf.length < offset + 1 → exec (.decodeFloatI8F32 buf offset scale) s =
      .next { s with resLog := s.resLog ++ [.err .shortBuffer] }) ∧
    decode ⟨0x32, [.buf buf, .offset offset, .f32 scale]⟩ = .instr (.decodeFloatU16F32 buf offset scale) ∧
    exec (.decodeFloatU16F32 (p ++ [b0, b1] ++ q) p.length scale) s =
      .next { s with resLog := s.resLog ++ [.ok (.f32 (s.params.floats.fmul32 (s.params.floats.cvt32 .u16 ((b0.toNat + b1.toNat * 2 ^ 8 : Nat))) scale))] } ∧
    (buf.length < offset + 2 → exec (.decodeFloatU16F32 buf offset scale) s =
      .next { s with resLog := s.resLog ++ [.err .shortBuffer] }) ∧
    decode ⟨0x33, [.buf buf, .offset offset, .f32 scale]⟩ = .instr (.decodeFloatI16F32 buf offset scale) ∧
    exec (.decodeFloatI16F32 (p ++ [b0, b1] ++ q) p.length scale) s =
      .next { s with resLog := s.resLog ++ [.ok (.f32 (s.params.floats.fmul32 (s.params.floats.cvt32 .i16 (twosComplement 2 (b0.toNat + b1.toNat * 2 ^ 8))) scale))] } ∧
    (buf.length < offset + 2 → exec (.decodeFloatI16F32 buf offset scale) s =
      .next { s with resLog := s.resLog ++ [.err .shortBuffer] }) ∧
    decode ⟨0x34, [.buf buf, .offset offset, .f32 scale]⟩ = .instr (.decodeFloatU32F32 buf offset scale) ∧
    exec (.decodeFloatU32F32 (p ++ [b0, b1, b2, b3] ++ q) p.length scale) s =
      .next { s with resLog := s.resLog ++ [.ok (.f32 (s.params.floats.fmul32 (s.params.floats.cvt32 .u32 ((b0.toNat + b1.toNat * 2 ^ 8 + b2.toNat * 2 ^ 16 + b3.toNat * 2 ^ 24 : Nat))) scale))] } ∧
    (buf.length < offset + 4 → exec (.decodeFloatU32F32 buf offset scale) s =
      .next { s with resLog := s.resLog ++ [.err .shortBuffer] }) ∧
    decode ⟨0x35, [.buf buf, .offset offset, .f32 scale]⟩ = .instr (.decodeFloatI32F32 buf offset scale) ∧
    exec (.decodeFloatI32F32 (p ++ [b0, b1, b2, b3] ++ q) p.length scale) s =
      .next { s with resLog := s.resLog ++ [.ok (.f32 (s.params.floats.fmul32 (s.params.floats.cvt32 .i32 (twosComplement 4 (b0.toNat + b1.toNat * 2 ^ 8 + b2.toNat * 2 ^ 16 + b3.toNat * 2 ^ 24))) scale))] } ∧
    (buf.length < offset + 4 → exec (.decodeFloatI32F32 buf offset scale) s =
      .next { s with resLog := s.resLog ++ [.err .shortBuffer] }) ∧
    decode ⟨0x36, [.buf buf, .offset offset, .f32 scale]⟩ = .instr (.decodeFloatU64F32 buf offset scale) ∧
    exec (.decodeFloatU64F32 (p ++ [b0, b1, b2, b3, b4, b5, b6, b7] ++ q) p.length scale) s =
      .next { s with resLog := s.resLog ++ [.ok (.f32 (s.params.floats.fmul32 (s.params.floats.cvt32 .u64 ((b0.toNat + b1.toNat * 2 ^ 8 + b2.toNat * 2 ^ 16 + b3.toNat * 2 ^ 24 + b4.toNat * 2 ^ 32 + b5.toNat * 2 ^ 40 + b6.toNat * 2 ^ 48 + b7.toNat * 2 ^ 56 : Nat))) scale))] } ∧
    (buf.length < offset + 8 → exec (.decodeFloatU64F32 buf offset scale) s =
      .next { s with resLog := s.resLog ++ [.err .shortBuffer] }) ∧
    decode ⟨0x37, [.buf buf, .offset offset, .f32 scale]⟩ = .instr (.decodeFloatI64F32 buf offset scale) ∧
    exec (.decodeFloatI64F32 (p ++ [b0, b1, b2, b3, b4, b5, b6, b7] ++ q) p.length scale) s =
      .next { s with resLog := s.resLog ++ [.ok (.f32 (s.params.floats.fmul32 (s.params.floats.cvt32 .i64 (twosComplement 8 (b0.toNat + b1.toNat * 2 ^ 8 + b2.toNat * 2 ^ 16 + b3.toNat * 2 ^ 24 + b4.toNat * 2 ^ 32 + b5.toNat * 2 ^ 40 + b6.toNat * 2 ^ 48 + b7.toNat * 2 ^ 56))) scale))] } ∧
    (buf.length < offset + 8 → exec (.decodeFloatI64F32 buf offset scale) s =
      .next { s with resLog := s.resLog ++ [.err .shortBuffer] })

/-- 40_codec.md R100 to R108 into F64: DECODE_FLOAT takes exactly the integer DECODE_INT of the same type returns, casts it,
multiplies by `scale` with the cast value on the left; ShortBuffer where the bytes do not suffice; the state is
untouched. `cvt` and `fmul` are the machine's arguments (00_scope.md R5), whatever they are. -/
def Obligations.DecodeFloatF64CastsAndScales : Prop :=
  ∀ (p q buf : Buf) (offset : Nat) (b0 b1 b2 b3 b4 b5 b6 b7 : Byte) (scale : F64) (s : State),
    decode ⟨0x38, [.buf buf, .offset offset, .f64 scale]⟩ = .instr (.decodeFloatU8F64 buf offset scale) ∧
    exec (.decodeFloatU8F64 (p ++ [b0] ++ q) p.length scale) s =
      .next { s with resLog := s.resLog ++ [.ok (.f64 (s.params.floats.fmul64 (s.params.floats.cvt64 .u8 ((b0.toNat : Nat))) scale))] } ∧
    (buf.length < offset + 1 → exec (.decodeFloatU8F64 buf offset scale) s =
      .next { s with resLog := s.resLog ++ [.err .shortBuffer] }) ∧
    decode ⟨0x39, [.buf buf, .offset offset, .f64 scale]⟩ = .instr (.decodeFloatI8F64 buf offset scale) ∧
    exec (.decodeFloatI8F64 (p ++ [b0] ++ q) p.length scale) s =
      .next { s with resLog := s.resLog ++ [.ok (.f64 (s.params.floats.fmul64 (s.params.floats.cvt64 .i8 (twosComplement 1 (b0.toNat))) scale))] } ∧
    (buf.length < offset + 1 → exec (.decodeFloatI8F64 buf offset scale) s =
      .next { s with resLog := s.resLog ++ [.err .shortBuffer] }) ∧
    decode ⟨0x3A, [.buf buf, .offset offset, .f64 scale]⟩ = .instr (.decodeFloatU16F64 buf offset scale) ∧
    exec (.decodeFloatU16F64 (p ++ [b0, b1] ++ q) p.length scale) s =
      .next { s with resLog := s.resLog ++ [.ok (.f64 (s.params.floats.fmul64 (s.params.floats.cvt64 .u16 ((b0.toNat + b1.toNat * 2 ^ 8 : Nat))) scale))] } ∧
    (buf.length < offset + 2 → exec (.decodeFloatU16F64 buf offset scale) s =
      .next { s with resLog := s.resLog ++ [.err .shortBuffer] }) ∧
    decode ⟨0x3B, [.buf buf, .offset offset, .f64 scale]⟩ = .instr (.decodeFloatI16F64 buf offset scale) ∧
    exec (.decodeFloatI16F64 (p ++ [b0, b1] ++ q) p.length scale) s =
      .next { s with resLog := s.resLog ++ [.ok (.f64 (s.params.floats.fmul64 (s.params.floats.cvt64 .i16 (twosComplement 2 (b0.toNat + b1.toNat * 2 ^ 8))) scale))] } ∧
    (buf.length < offset + 2 → exec (.decodeFloatI16F64 buf offset scale) s =
      .next { s with resLog := s.resLog ++ [.err .shortBuffer] }) ∧
    decode ⟨0x3C, [.buf buf, .offset offset, .f64 scale]⟩ = .instr (.decodeFloatU32F64 buf offset scale) ∧
    exec (.decodeFloatU32F64 (p ++ [b0, b1, b2, b3] ++ q) p.length scale) s =
      .next { s with resLog := s.resLog ++ [.ok (.f64 (s.params.floats.fmul64 (s.params.floats.cvt64 .u32 ((b0.toNat + b1.toNat * 2 ^ 8 + b2.toNat * 2 ^ 16 + b3.toNat * 2 ^ 24 : Nat))) scale))] } ∧
    (buf.length < offset + 4 → exec (.decodeFloatU32F64 buf offset scale) s =
      .next { s with resLog := s.resLog ++ [.err .shortBuffer] }) ∧
    decode ⟨0x3D, [.buf buf, .offset offset, .f64 scale]⟩ = .instr (.decodeFloatI32F64 buf offset scale) ∧
    exec (.decodeFloatI32F64 (p ++ [b0, b1, b2, b3] ++ q) p.length scale) s =
      .next { s with resLog := s.resLog ++ [.ok (.f64 (s.params.floats.fmul64 (s.params.floats.cvt64 .i32 (twosComplement 4 (b0.toNat + b1.toNat * 2 ^ 8 + b2.toNat * 2 ^ 16 + b3.toNat * 2 ^ 24))) scale))] } ∧
    (buf.length < offset + 4 → exec (.decodeFloatI32F64 buf offset scale) s =
      .next { s with resLog := s.resLog ++ [.err .shortBuffer] }) ∧
    decode ⟨0x3E, [.buf buf, .offset offset, .f64 scale]⟩ = .instr (.decodeFloatU64F64 buf offset scale) ∧
    exec (.decodeFloatU64F64 (p ++ [b0, b1, b2, b3, b4, b5, b6, b7] ++ q) p.length scale) s =
      .next { s with resLog := s.resLog ++ [.ok (.f64 (s.params.floats.fmul64 (s.params.floats.cvt64 .u64 ((b0.toNat + b1.toNat * 2 ^ 8 + b2.toNat * 2 ^ 16 + b3.toNat * 2 ^ 24 + b4.toNat * 2 ^ 32 + b5.toNat * 2 ^ 40 + b6.toNat * 2 ^ 48 + b7.toNat * 2 ^ 56 : Nat))) scale))] } ∧
    (buf.length < offset + 8 → exec (.decodeFloatU64F64 buf offset scale) s =
      .next { s with resLog := s.resLog ++ [.err .shortBuffer] }) ∧
    decode ⟨0x3F, [.buf buf, .offset offset, .f64 scale]⟩ = .instr (.decodeFloatI64F64 buf offset scale) ∧
    exec (.decodeFloatI64F64 (p ++ [b0, b1, b2, b3, b4, b5, b6, b7] ++ q) p.length scale) s =
      .next { s with resLog := s.resLog ++ [.ok (.f64 (s.params.floats.fmul64 (s.params.floats.cvt64 .i64 (twosComplement 8 (b0.toNat + b1.toNat * 2 ^ 8 + b2.toNat * 2 ^ 16 + b3.toNat * 2 ^ 24 + b4.toNat * 2 ^ 32 + b5.toNat * 2 ^ 40 + b6.toNat * 2 ^ 48 + b7.toNat * 2 ^ 56))) scale))] } ∧
    (buf.length < offset + 8 → exec (.decodeFloatI64F64 buf offset scale) s =
      .next { s with resLog := s.resLog ++ [.err .shortBuffer] })

/-- 40_codec.md R100 (decision D13, general knowledge G2), with `cvt` at its default: the cast of any of the eight types rounds to
nearest, ties to even, in both formats for every integer the codec can fetch, is exact up to 2^24 and 2^53, and has the
sign of the integer, 0 becoming +0. -/
def Obligations.CastRoundsToNearestEven : Prop :=
  ∀ (T : IntType) (i : Int), |i| ≤ 2 ^ 64 →
    NearestEven binary32 i (FloatArith.ieee.cvt32 T i).toNat ∧
    NearestEven binary64 i (FloatArith.ieee.cvt64 T i).toNat ∧
    (|i| ≤ 2 ^ 24 → toRat binary32 (FloatArith.ieee.cvt32 T i).toNat = i) ∧
    (|i| ≤ 2 ^ 53 → toRat binary64 (FloatArith.ieee.cvt64 T i).toNat = i) ∧
    binary32.neg (FloatArith.ieee.cvt32 T i).toNat = decide (i < 0) ∧
    binary64.neg (FloatArith.ieee.cvt64 T i).toNat = decide (i < 0)

/-- 40_codec.md R100 (decision D13, general knowledge G2), with `fmul` at its default: the product of two finite encodings is their exact product
rounded once, to nearest, ties to even; infinity on overflow; its sign is the exclusive-or of the signs. -/
def Obligations.ProductRoundsToNearestEven : Prop :=
  (∀ x y : F32, finite binary32 x.toNat → finite binary32 y.toNat →
    (|toRat binary32 x.toNat * toRat binary32 y.toNat| < overflowBound binary32 →
      NearestEven binary32 (toRat binary32 x.toNat * toRat binary32 y.toNat) (FloatArith.ieee.fmul32 x y).toNat) ∧
    (overflowBound binary32 ≤ |toRat binary32 x.toNat * toRat binary32 y.toNat| →
      binary32.isInf (FloatArith.ieee.fmul32 x y).toNat = true) ∧
    binary32.neg (FloatArith.ieee.fmul32 x y).toNat = (binary32.neg x.toNat != binary32.neg y.toNat)) ∧
  (∀ x y : F64, finite binary64 x.toNat → finite binary64 y.toNat →
    (|toRat binary64 x.toNat * toRat binary64 y.toNat| < overflowBound binary64 →
      NearestEven binary64 (toRat binary64 x.toNat * toRat binary64 y.toNat) (FloatArith.ieee.fmul64 x y).toNat) ∧
    (overflowBound binary64 ≤ |toRat binary64 x.toNat * toRat binary64 y.toNat| →
      binary64.isInf (FloatArith.ieee.fmul64 x y).toNat = true) ∧
    binary64.neg (FloatArith.ieee.fmul64 x y).toNat = (binary64.neg x.toNat != binary64.neg y.toNat))

/-- 40_codec.md R100 (decision D13), with `fmul` at its default: what a NaN or infinite scale gives: NaN, signed infinity, NaN for 0 times infinity.
Which NaN is free (log 14). `x` is any cast value: never NaN, never infinite. -/
def Obligations.NaNAndInfiniteScales : Prop :=
  (∀ x y : F32, finite binary32 x.toNat →
    (binary32.isNaN y.toNat = true → binary32.isNaN (FloatArith.ieee.fmul32 x y).toNat = true) ∧
    (binary32.isInf y.toNat = true → binary32.mag x.toNat = 0 → binary32.isNaN (FloatArith.ieee.fmul32 x y).toNat = true) ∧
    (binary32.isInf y.toNat = true → binary32.mag x.toNat ≠ 0 →
      (FloatArith.ieee.fmul32 x y).toNat = (if binary32.neg x.toNat != binary32.neg y.toNat then 0xFF800000 else 0x7F800000))) ∧
  (∀ x y : F64, finite binary64 x.toNat →
    (binary64.isNaN y.toNat = true → binary64.isNaN (FloatArith.ieee.fmul64 x y).toNat = true) ∧
    (binary64.isInf y.toNat = true → binary64.mag x.toNat = 0 → binary64.isNaN (FloatArith.ieee.fmul64 x y).toNat = true) ∧
    (binary64.isInf y.toNat = true → binary64.mag x.toNat ≠ 0 →
      (FloatArith.ieee.fmul64 x y).toNat =
        (if binary64.neg x.toNat != binary64.neg y.toNat then 0xFFF0000000000000 else 0x7FF0000000000000)))

/-! ### The checksums -/

/-- 41_checksum.md R131, R134 with the functions of R130, R132, R133: XOR8.BUF and CRC8.BUF return the XOR-sum and the
CRC-8 of the buffer and touch no state, CRCACC included. The two functions are pinned by their recurrences, the CRC
step by its eight iterations. -/
def Obligations.BufferChecksumsAreReturned : Prop :=
  ∀ (buf : Buf) (x c : Byte) (s : State),
    decode ⟨0x40, [.buf buf]⟩ = .instr (.xor8Buf buf) ∧ decode ⟨0x41, [.buf buf]⟩ = .instr (.crc8Buf buf) ∧
    exec (.xor8Buf buf) s = .next { s with resLog := s.resLog ++ [.ok (.byte (xor8 buf))] } ∧
    exec (.crc8Buf buf) s = .next { s with resLog := s.resLog ++ [.ok (.byte (crc8 buf))] } ∧
    xor8 [] = 0x00 ∧ xor8 (buf ++ [x]) = xor8 buf ^^^ x ∧
    crc8 [] = 0x00 ∧ crc8 (buf ++ [x]) = crc8Step (crc8 buf) x ∧
    crc8Step c x =
      (fun c : Byte => if c.getLsbD 7 then (c <<< 1) ^^^ 0xD5 else c <<< 1)^[8] (c ^^^ x)

/-- 41_checksum.md R135, R136, R137 (the register is decision D10): CRC.CLR clears CRCACC, CRC.UPD takes one step from
whatever it holds, CRC.RD returns it and changes nothing. -/
def Obligations.CrcAccumulatorOperations : Prop :=
  ∀ (x : Byte) (s : State),
    decode ⟨0x42, []⟩ = .instr .crcClr ∧ decode ⟨0x43, [.byte x]⟩ = .instr (.crcUpd x) ∧
    decode ⟨0x44, []⟩ = .instr .crcRd ∧
    exec .crcClr s = .next { s with crcAcc := 0x00, resLog := s.resLog ++ [.ok .none] } ∧
    exec (.crcUpd x) s = .next { s with crcAcc := crc8Step s.crcAcc x, resLog := s.resLog ++ [.ok .none] } ∧
    exec .crcRd s = .next { s with resLog := s.resLog ++ [.ok (.byte s.crcAcc)] }

/-- 41_checksum.md R136 (derived by the spec): CRC.CLR, one CRC.UPD for each byte of a buffer, CRC.RD, as a program on CMD
at any state: CRCACC ends at `crc8` of the buffer, which CRC.RD returns. -/
def Obligations.StreamedCrcEqualsBufferCrc : Prop :=
  ∀ (buf : Buf) (rest : List Input) (s : State),
    s.pending = .command ⟨0x42, []⟩ :: buf.map (fun x => Input.command ⟨0x43, [.byte x]⟩) ++
      .command ⟨0x44, []⟩ :: rest →
    core.run (buf.length + 2) s = .next { s with
      pending := rest, crcAcc := crc8 buf
      resLog := s.resLog ++ List.replicate (buf.length + 1) (.ok .none) ++ [.ok (.byte (crc8 buf))] }

/-- 41_checksum.md R138 (a) (derived by the spec): the CRC-8 is the remainder of `b(x) * x^8` divided by the generator
`x^8 + x^7 + x^6 + x^4 + x^2 + 1` over GF(2), the message read most significant bit first. -/
def Obligations.Crc8IsThePolynomialRemainder : Prop :=
  ∀ buf : Buf,
    let bits : Byte → Polynomial (ZMod 2) := fun b =>
      ∑ k ∈ Finset.range 8, if b.getLsbD k then Polynomial.X ^ k else 0
    let message : Polynomial (ZMod 2) := buf.foldl (fun p b => p * Polynomial.X ^ 8 + bits b) 0
    bits (crc8 buf) = (message * Polynomial.X ^ 8) %ₘ
      (Polynomial.X ^ 8 + Polynomial.X ^ 7 + Polynomial.X ^ 6 + Polynomial.X ^ 4 + Polynomial.X ^ 2 + 1)

/-- 41_checksum.md R138 (b), (c) (derived by the spec): both checksums are linear on buffers of equal length, and a buffer
followed by its own checksum has checksum 0. -/
def Obligations.ChecksumsAreLinearWithZeroResidue : Prop :=
  (∀ a b : Buf, a.length = b.length →
    crc8 (List.zipWith (· ^^^ ·) a b) = crc8 a ^^^ crc8 b ∧
    xor8 (List.zipWith (· ^^^ ·) a b) = xor8 a ^^^ xor8 b) ∧
  (∀ b : Buf, crc8 (b ++ [crc8 b]) = 0x00 ∧ xor8 (b ++ [xor8 b]) = 0x00)

/-- 41_checksum.md R138 (d) (derived by the spec): both checksums change under every single-bit change. -/
def Obligations.ChecksumsDetectEverySingleBitFlip : Prop :=
  ∀ (b : Buf) (i k : Nat), i < b.length → k < 8 →
    crc8 (flipBit b i k) ≠ crc8 b ∧ xor8 (flipBit b i k) ≠ xor8 b

/-! ### The transmit framer -/

/-- 42_framer_tx.md R150, R151, R152: PACK of sendable operands returns the frame, byte by byte as 30_encoding.md R62 and
R63 lay it out, whatever VER is; the state is untouched. The frame has room (log 24). -/
def Obligations.PackBuildsTheFrame : Prop :=
  ∀ (v : Version) (code : Code) (data : Buf) (s : State), sendable v code data →
    s.params.holds (frameBytes v code data).length = true →
    decode ⟨0x50, [.version v, .code code, .buf data]⟩ = .instr (.pack v code data) ∧
    exec (.pack v code data) s = .next { s with resLog := s.resLog ++ [.ok (.buf (frameBytes v code data))] }

/-- 42_framer_tx.md R152, 60_exceptions.md R213, R222 (b), R223 (decisions D15, D16, D17): PACK refuses a payload of
`max_payload` bytes or more first, then a V1 code above 255; the state is untouched. -/
def Obligations.PackRefusesByNameInOrder : Prop :=
  ∀ (code : Code) (data : Buf) (s : State),
    (255 ≤ data.length →
      exec (.pack .v1 code data) s = .next { s with resLog := s.resLog ++ [.err .payloadTooLarge] }) ∧
    (65535 ≤ data.length →
      exec (.pack .v2 code data) s = .next { s with resLog := s.resLog ++ [.err .payloadTooLarge] }) ∧
    (data.length < 255 → 255 < code.toNat →
      exec (.pack .v1 code data) s = .next { s with resLog := s.resLog ++ [.err .badOperand] })

/-- 42_framer_tx.md R153, 20_memory.md R49: SEND with the port open, sendable operands at VER and a write accepted whole
puts exactly the frame of VER on the wire; nothing else changes (the peer's answer is used up). -/
def Obligations.SendPutsTheWholeFrameOnTheWire : Prop :=
  ∀ (code : Code) (data : Buf) (s : State), s.portOpen = true → sendable s.ver code data →
    acceptsWhole s (frameBytes s.ver code data).length →
    decode ⟨0x51, [.code code, .buf data]⟩ = .instr (.send code data) ∧
    exec (.send code data) s = .next { s with
      txlog := s.txlog ++ frameBytes s.ver code data, txAnswers := s.txAnswers.tail
      resLog := s.resLog ++ [.ok .none] }

/-- 20_memory.md R49, 60_exceptions.md R214, 70 R249 (decision D24): when the peer accepts only `k` bytes, exactly the first
`k` bytes of the frame are on the wire and stay there, and SEND reports WriteShort. Every `k`. -/
def Obligations.ShortWriteLeavesTheAcceptedBytes : Prop :=
  ∀ (code : Code) (data : Buf) (k : Nat) (ks : List Nat) (s : State), s.portOpen = true → sendable s.ver code data →
    s.txAnswers = k :: ks → k < (frameBytes s.ver code data).length →
    exec (.send code data) s = .next { s with
      txlog := s.txlog ++ (frameBytes s.ver code data).take k, txAnswers := ks
      resLog := s.resLog ++ [.err .writeShort] }

/-- 42_framer_tx.md R153, 60_exceptions.md R212, R213, R222, R223 (decision D17 for the order): SEND tests the port, then the
length against MAXP with `>=`, then the V1 code; a SEND refused so writes nothing. -/
def Obligations.SendRefusesByNameInOrder : Prop :=
  ∀ (code : Code) (data : Buf) (s : State),
    (s.portOpen = false →
      exec (.send code data) s = .next { s with resLog := s.resLog ++ [.err .portClosed] }) ∧
    (s.portOpen = true → s.maxp ≤ data.length →
      exec (.send code data) s = .next { s with resLog := s.resLog ++ [.err .payloadTooLarge] }) ∧
    (s.portOpen = true → data.length < s.maxp → s.ver = .v1 → 255 < code.toNat →
      exec (.send code data) s = .next { s with resLog := s.resLog ++ [.err .badOperand] })

/-- 42_framer_tx.md R154 (derived by the spec; DOC0 laws 3 and 4): the checksum over a packed frame from index 3 on,
checksum byte included, is 0, and the last byte is the checksum of the bytes from index 3 before it. -/
def Obligations.PackedFrameChecksumCloses : Prop :=
  ∀ (v : Version) (code : Code) (data frame : Buf) (s : State),
    exec (.pack v code data) s = .next { s with resLog := s.resLog ++ [.ok (.buf frame)] } →
    (v = .v1 → xor8 (frame.drop 3) = 0x00) ∧
    (v = .v2 → crc8 (frame.drop 3) = 0x00 ∧ frame.getLast? = some (crc8 (frame.dropLast.drop 3)))

/-- 42_framer_tx.md R155 (derived by the spec): for one version, PACK gives different frames to different operands. -/
def Obligations.PackIsInjectivePerVersion : Prop :=
  ∀ (v : Version) (code code' : Code) (data data' frame : Buf) (s : State),
    exec (.pack v code data) s = .next { s with resLog := s.resLog ++ [.ok (.buf frame)] } →
    exec (.pack v code' data') s = .next { s with resLog := s.resLog ++ [.ok (.buf frame)] } →
    code = code' ∧ data = data'

/-! ### The receive framer -/

/-- 20_memory.md R48 (decision D18), one read of the receive machine: it yields at most `n` bytes, the first of the stream,
and they are gone from it; every count is admitted, never included; with no answer listed it yields `min(n, len)`
bytes of a stream that ends and `n` bytes of one that does not (70 R248, log 25); a read of 0 bytes touches nothing. -/
def Obligations.ReadTakesAFrontPartOfTheStream : Prop :=
  (∀ (st : RxStream) (n : Nat),
    (st.read n = .never ∧ 0 < n ∧ st.answers.head? = some .never) ∨
    ∃ r rest, st.read n = .got r rest ∧ r.length ≤ n ∧
      (st.tail = [] → r ++ rest.bytes = st.bytes ∧ rest.tail = []) ∧
      (r.length ≤ st.bytes.length → r ++ rest.bytes = st.bytes ∧ rest.tail = st.tail) ∧
      (st.bytes.length ≤ r.length → rest.bytes = [] ∧
        r = st.bytes ++ cycleTake (r.length - st.bytes.length) st.tail ∧
        rest.tail = st.tail.rotate (r.length - st.bytes.length)) ∧
      (n = 0 → rest = st) ∧ (0 < n → rest.answers = st.answers.tail) ∧
      (st.answers = [] → r.length = if st.tail = [] then min n st.bytes.length else n)) ∧
  (∀ (bytes tail : Buf) (answers : List ReadAnswer) (n k : Nat), 0 < n → k ≤ n → k ≤ bytes.length →
    RxStream.read ⟨bytes, .gives k :: answers, tail⟩ n = .got (bytes.take k) ⟨bytes.drop k, answers, tail⟩ ∧
    RxStream.read ⟨bytes, .never :: answers, tail⟩ n = .never)

/-- 43_framer_rx.md R172, R174, R176, R177, R178, R182 under VER = V1: after any bytes but `$`, a frame `$ M type len code
data crc` whose type is not `!` is delivered if the checksum is the XOR-sum of what was received and reported as
ChecksumError if not; either way exactly the frame is consumed. Any type but `!`, any length up to 255, any answers
that give this run's reads in full, whatever the list says of later ones. The working registers after a failure are
free (log 11). The payload has room (log 24). -/
def Obligations.RecvRunsAV1FrameToItsChecksum : Prop :=
  ∀ (g data rest : Buf) (typ len code crc : Byte) (s : State), s.ver = .v1 → s.portOpen = true →
    answeredInFull (frameReads .v1 g.length data.length) s.rxAnswers →
    s.params.holds data.length = true → 0x24 ∉ g → typ ≠ 0x21 → data.length = len.toNat →
    s.rxq = g ++ [0x24, 0x4D, typ, len, code] ++ data ++ [crc] ++ rest →
    (crc = xor8 ([len, code] ++ data) →
      exec .recv s = .next { s with
        rxq := rest, rxAnswers := answersLeft (frameReads .v1 g.length data.length) s.rxAnswers
        rx := { s.rx with rxs := .search, type := typ, len := len.setWidth 16, code := code.setWidth 16, data := data,
                          rxcrc := crc }
        resLog := s.resLog ++ [.ok (.packet (code.setWidth 16) data)] }) ∧
    (crc ≠ xor8 ([len, code] ++ data) → ∃ regs n, regs.rxs = .search ∧
      exec .recv s = .next { s with
        rxq := rest, rxAnswers := answersLeft (frameReads .v1 g.length data.length) s.rxAnswers
        rx := regs, freeCount := n
        resLog := s.resLog ++ [.err .checksumError] })

/-- 43_framer_rx.md R172, R175 to R178, R182 under VER = V2: the same for `$ X type flag code_lo code_hi len_lo len_hi data
crc` and the CRC-8, the flag second in the header (conflict C1). Any type but `!`, any flag, any length up to 65535. -/
def Obligations.RecvRunsAV2FrameToItsChecksum : Prop :=
  ∀ (g data rest : Buf) (typ flag codeLo codeHi lenLo lenHi crc : Byte) (s : State), s.ver = .v2 → s.portOpen = true →
    answeredInFull (frameReads .v2 g.length data.length) s.rxAnswers →
    s.params.holds data.length = true → 0x24 ∉ g → typ ≠ 0x21 → data.length = lenLo.toNat + 256 * lenHi.toNat →
    s.rxq = g ++ [0x24, 0x58, typ, flag, codeLo, codeHi, lenLo, lenHi] ++ data ++ [crc] ++ rest →
    (crc = crc8 ([flag, codeLo, codeHi, lenLo, lenHi] ++ data) →
      exec .recv s = .next { s with
        rxq := rest, rxAnswers := answersLeft (frameReads .v2 g.length data.length) s.rxAnswers
        rx := { rxs := .search, type := typ, flag := flag, len := lenHi ++ lenLo, code := codeHi ++ codeLo, data := data,
                rxcrc := crc }
        resLog := s.resLog ++ [.ok (.packet (codeHi ++ codeLo) data)] }) ∧
    (crc ≠ crc8 ([flag, codeLo, codeHi, lenLo, lenHi] ++ data) → ∃ regs n, regs.rxs = .search ∧
      exec .recv s = .next { s with
        rxq := rest, rxAnswers := answersLeft (frameReads .v2 g.length data.length) s.rxAnswers
        rx := regs, freeCount := n
        resLog := s.resLog ++ [.err .checksumError] })

/-- 43_framer_rx.md R173, 60_exceptions.md R216, R227, 70 R244 (decision D22, conflict C6 for "any byte"): a `$` followed by
any byte but the letter of VER warns once, flips VER and MAXP with it, consumes exactly the two bytes and reports
VersionMismatch. -/
def Obligations.RecvFlipsVersionOnAnyOtherLetter : Prop :=
  ∀ (g rest : Buf) (x : Byte) (s : State), s.portOpen = true → answeredInFull (preambleReads g.length) s.rxAnswers →
    0x24 ∉ g → x ≠ letter s.ver → s.rxq = g ++ [0x24, x] ++ rest →
    ∃ regs n t, regs.rxs = .search ∧ exec .recv s = .next t ∧
      t.maxp = (match s.ver with | .v1 => 65535 | .v2 => 255) ∧
      t = { s with
        rxq := rest, rxAnswers := answersLeft (preambleReads g.length) s.rxAnswers, rx := regs, freeCount := n
        ver := (match s.ver with | .v1 => .v2 | .v2 => .v1)
        warnlog := s.warnlog ++ [.versionMismatch]
        resLog := s.resLog ++ [.err .versionMismatch] }

/-- 43_framer_rx.md R176, 60_exceptions.md R217, 70 R243: an error frame ends the run after its header; payload and checksum
stay in RXQ; VER is unchanged. That CODE then holds the code of the failing frame is R217's sentence against the
general one of 10_state.md R25 (decision D21, 93 U10: any value): the model's settlement of the two, DEDUCED (log 11).
The other working registers are free. -/
def Obligations.RecvStopsAfterTheHeaderOfAnErrorFrame : Prop :=
  ∀ (g rest : Buf) (flag lo hi len lenHi : Byte) (s : State), s.portOpen = true →
    answeredInFull (preambleReads g.length ++ [headerSize s.ver]) s.rxAnswers → 0x24 ∉ g →
    (s.ver = .v1 → s.rxq = g ++ [0x24, 0x4D, 0x21, len, lo] ++ rest → ∃ regs n,
      regs.rxs = .search ∧ regs.code = lo.setWidth 16 ∧
      exec .recv s = .next { s with
        rxq := rest, rxAnswers := answersLeft (preambleReads g.length ++ [3]) s.rxAnswers, rx := regs, freeCount := n
        resLog := s.resLog ++ [.err .remoteError] }) ∧
    (s.ver = .v2 → s.rxq = g ++ [0x24, 0x58, 0x21, flag, lo, hi, len, lenHi] ++ rest → ∃ regs n,
      regs.rxs = .search ∧ regs.code = (hi ++ lo : BitVec 16) ∧
      exec .recv s = .next { s with
        rxq := rest, rxAnswers := answersLeft (preambleReads g.length ++ [6]) s.rxAnswers, rx := regs, freeCount := n
        resLog := s.resLog ++ [.err .remoteError] })

/-- 43_framer_rx.md R172, R179, 60_exceptions.md R215 in the finite-stream model of 20_memory.md R48 (decision D18): a stream
with no `$`, or cut before the variant byte, in the header, in the payload or before the checksum, is consumed whole
and reported as ShortRead. -/
def Obligations.RecvReportsAStreamCutAnywhere : Prop :=
  ∀ (g h data : Buf) (typ flag len lenHi lo hi : Byte) (s : State), s.portOpen = true → s.rxAnswers = [] → s.rxTail = [] →
    0x24 ∉ g → typ ≠ 0x21 →
    (s.rxq = g ∨ s.rxq = g ++ [0x24] ∨
      (s.ver = .v1 ∧ h.length < 3 ∧ s.rxq = g ++ [0x24, 0x4D] ++ h) ∨
      (s.ver = .v2 ∧ h.length < 6 ∧ s.rxq = g ++ [0x24, 0x58] ++ h) ∨
      (s.ver = .v1 ∧ data.length ≤ len.toNat ∧ s.rxq = g ++ [0x24, 0x4D, typ, len, lo] ++ data) ∨
      (s.ver = .v2 ∧ data.length ≤ len.toNat + 256 * lenHi.toNat ∧
        s.rxq = g ++ [0x24, 0x58, typ, flag, lo, hi, len, lenHi] ++ data)) →
    ∃ regs n, regs.rxs = .search ∧
      exec .recv s = .next { s with
        rxq := [], rx := regs, freeCount := n, resLog := s.resLog ++ [.err .shortRead] }

/-- 43_framer_rx.md R179, 20_memory.md R48 (decision D18), 60_exceptions.md R215: wherever a run can stand before a read, in SEARCH
after any garbage, VARIANT, HDR1, HDR2, PAYLOAD or CRC, when the peer gives `k` bytes and fewer than it was asked for, the
bytes it gave are gone, the rest of the stream stays, VER is unchanged, and RECV reports ShortRead. (Where `k` goes beyond
the listed bytes the endless part moves on, if there is one; log 25.) -/
def Obligations.ShortAnswerConsumesWhatItGave : Prop :=
  ∀ (g consumed rest : Buf) (reads : List Nat) (n k : Nat) (as : List ReadAnswer) (s : State), s.portOpen = true →
    0x24 ∉ g → NextRead s.ver g consumed reads n → s.rxq = consumed ++ rest → answeredInFull reads s.rxAnswers →
    answersLeft reads s.rxAnswers = .gives k :: as → k < n → ∃ regs m, regs.rxs = .search ∧
      exec .recv s = .next { s with
        rxq := rest.drop k, rxTail := s.rxTail.rotate (k - rest.length), rxAnswers := as, rx := regs, freeCount := m
        resLog := s.resLog ++ [.err .shortRead] }

/-- 43_framer_rx.md R182, 60_exceptions.md R212: with the port closed RECV reports PortClosed; no byte is read, nothing
changes. -/
def Obligations.RecvWithThePortClosed : Prop :=
  ∀ s : State, decode ⟨0x61, []⟩ = .instr .recv ∧
    (s.portOpen = false → exec .recv s = .next { s with resLog := s.resLog ++ [.err .portClosed] })

/-- 70_reset_and_hazards.md R248, 93 U1: a RECV does not return (the model's faults, log 8) when, wherever its run can stand before
a read, in SEARCH after any garbage, VARIANT, HDR1, HDR2, PAYLOAD or CRC, that read is never answered; and when the
stream has no end, holds no `$` and every read succeeds, because SEARCH then never ends. -/
def Obligations.RecvHangsWhereAReadOrTheSearchNeverEnds : Prop :=
  (∀ (g consumed rest : Buf) (reads : List Nat) (n : Nat) (as : List ReadAnswer) (s : State), s.portOpen = true →
    0x24 ∉ g → NextRead s.ver g consumed reads n → s.rxq = consumed ++ rest → answeredInFull reads s.rxAnswers →
    answersLeft reads s.rxAnswers = .never :: as → 0 < n → exec .recv s = .fault .readNeverAnswers) ∧
  (∀ s : State, s.portOpen = true → s.rxTail ≠ [] → 0x24 ∉ s.rxq → 0x24 ∉ s.rxTail →
    (∀ a ∈ s.rxAnswers, ∃ k, a = .gives k ∧ 1 ≤ k) → exec .recv s = .fault .searchNeverEnds)

/-- 43_framer_rx.md R183 (decision D25): UNPACK of any buffer always completes, writes no state, and its result is the result
RECV would give with VER at the version, the buffer as the whole finite stream and the port open. (The buffer is one
there is room for; log 24.) -/
def Obligations.UnpackGivesTheResultOfRecv : Prop :=
  ∀ (v : Version) (frame : Buf) (s : State), s.params.holds frame.length = true →
    decode ⟨0x60, [.version v, .buf frame]⟩ = .instr (.unpack v frame) ∧
    ∃ r t, exec (.unpack v frame) s = .next { s with resLog := s.resLog ++ [r] } ∧
      exec .recv { s with ver := v, rxq := frame, rxTail := [], rxAnswers := [], portOpen := true } = .next t ∧
      t.resLog = s.resLog ++ [r]

/-- 43_framer_rx.md R171, R181: following the arrows of the transition table from SEARCH until the run ends gives, for every
stream and every list of answers, the outcome, version, warnings, registers and rest of the stream of the function
RECV and UNPACK run; and where that function says that SEARCH never ends (70 R248), no number of arrows ends the run. -/
def Obligations.RunningTheR171TableGivesTheR181Function : Prop :=
  ∀ (v : Version) (regs : RxRegs) (st : RxStream) (n : Nat),
    (rxMachine v regs st ≠ .hung .searchNeverEnds →
      st.bytes.length + st.answers.length + st.tail.length + 6 ≤ n →
      rxTableRun n v { regs with rxs := .search } st = some (rxMachine v regs st)) ∧
    (rxMachine v regs st = .hung .searchNeverEnds → rxTableRun n v { regs with rxs := .search } st = none)

/-- 43_framer_rx.md R184 (derived by the spec; DOC0 law 1): what PACK makes, UNPACK gives back, for both versions and every
sendable code and payload. -/
def Obligations.UnpackInvertsPack : Prop :=
  ∀ (v : Version) (code : Code) (data frame : Buf) (s : State),
    exec (.pack v code data) s = .next { s with resLog := s.resLog ++ [.ok (.buf frame)] } →
    exec (.unpack v frame) s = .next { s with resLog := s.resLog ++ [.ok (.packet code data)] }

/-- 43_framer_rx.md R184 (derived by the spec): with VER = `v`, the port open and `RXQ = g ++ f ++ rest`, `g` without `$`, RECV
delivers what was packed into `f`, leaves `rest` and keeps VER. This run's reads are answered in full; the payload has
room (log 24). -/
def Obligations.RecvDeliversWhatWasPacked : Prop :=
  ∀ (code : Code) (data frame g rest : Buf) (s u : State),
    exec (.pack s.ver code data) u = .next { u with resLog := u.resLog ++ [.ok (.buf frame)] } →
    s.portOpen = true → answeredInFull (frameReads s.ver g.length data.length) s.rxAnswers →
    s.params.holds data.length = true → 0x24 ∉ g → s.rxq = g ++ frame ++ rest →
    ∃ regs, regs.rxs = .search ∧ exec .recv s = .next { s with
      rxq := rest, rxAnswers := answersLeft (frameReads s.ver g.length data.length) s.rxAnswers, rx := regs
      resLog := s.resLog ++ [.ok (.packet code data)] }

/-- 43_framer_rx.md R185, 70 R244 (derived by the spec; DOC0 law 8): a valid frame of the other version, of any direction byte, flag
and length, makes the first RECV fail and flip VER; the second RECV, provided the residue of that frame holds no `$`,
delivers the valid frame that follows (any direction byte but `!`, any flag, any length), under the new version, and
leaves what stands behind it. Both directions. The reads of the two runs are answered in full; the payload has room
(log 24). -/
def Obligations.VersionAutoSwitchThenDelivers : Prop :=
  ∀ (typ1 typ2 flag1 flag2 : Byte) (code1 code2 : Code) (data1 data2 residue rest : Buf) (s : State) (w : Version),
    w ≠ s.ver → s.portOpen = true → framable w code1 data1 → framable w code2 data2 → typ2 ≠ 0x21 →
    residue = (validFrame w typ1 flag1 code1 data1).drop 2 → 0x24 ∉ residue →
    s.rxq = validFrame w typ1 flag1 code1 data1 ++ validFrame w typ2 flag2 code2 data2 ++ rest →
    answeredInFull (preambleReads 0 ++ frameReads w residue.length data2.length) s.rxAnswers →
    s.params.holds data2.length = true →
    ∃ t regs1 regs2 n1, exec .recv s = .next t ∧
      t = { s with
        ver := w, warnlog := s.warnlog ++ [.versionMismatch], rx := regs1, freeCount := n1
        rxq := residue ++ validFrame w typ2 flag2 code2 data2 ++ rest
        rxAnswers := answersLeft (preambleReads 0) s.rxAnswers
        resLog := s.resLog ++ [.err .versionMismatch] } ∧
      t.maxp = (match w with | .v1 => 255 | .v2 => 65535) ∧
      exec .recv t = .next { t with
        rxq := rest, rx := regs2, rxAnswers := answersLeft (frameReads w residue.length data2.length) t.rxAnswers
        resLog := t.resLog ++ [.ok (.packet code2 data2)] }

/-- 43_framer_rx.md R186, 30_encoding.md R67 (derived by the spec; DOC0 law 4): UNPACK of a packed frame with one bit flipped, by
the place of the bit. From index 3 on, outside the length field, ChecksumError. In the length field, ShortRead if
the stated length grew; if it shrank, the payload is cut to it and the byte behind it is taken for the checksum, and
what comes out is a delivery if it is the checksum of what was read and ChecksumError if not. At index 2 the frame is
still delivered; at index 1 VersionMismatch; at index 0 the byte is skipped as garbage: the result is that of the rest
of the frame, ShortRead when no other byte is `$`. (The frame is a buffer there is room for; log 24.) -/
def Obligations.UnpackOfAFrameWithOneBitFlipped : Prop :=
  ∀ (v : Version) (code : Code) (data f : Buf) (i k : Nat) (s : State), sendable v code data → k < 8 →
    i < (frameBytes v code data).length → f = flipBit (frameBytes v code data) i k → s.params.holds f.length = true →
    (((v = .v1 ∧ 4 ≤ i) ∨ (v = .v2 ∧ 3 ≤ i ∧ i ≠ 6 ∧ i ≠ 7)) →
      exec (.unpack v f) s = .next { s with resLog := s.resLog ++ [.err .checksumError] }) ∧
    (((v = .v1 ∧ i = 3) ∨ (v = .v2 ∧ (i = 6 ∨ i = 7))) →
      statedLength v f ≠ data.length ∧
      (data.length < statedLength v f →
        exec (.unpack v f) s = .next { s with resLog := s.resLog ++ [.err .shortRead] }) ∧
      (statedLength v f < data.length →
        exec (.unpack v f) s = .next { s with resLog := s.resLog ++
          [if f.getD (2 + headerSize v + statedLength v f) 0 =
              checksum v ((f.take (2 + headerSize v + statedLength v f)).drop 3)
            then .ok (.packet code (data.take (statedLength v f))) else .err .checksumError] })) ∧
    (i = 2 → exec (.unpack v f) s = .next { s with resLog := s.resLog ++ [.ok (.packet code data)] }) ∧
    (i = 1 → exec (.unpack v f) s = .next { s with resLog := s.resLog ++ [.err .versionMismatch] }) ∧
    (i = 0 → exec (.unpack v f) s = exec (.unpack v ((frameBytes v code data).drop 1)) s ∧
      (0x24 ∉ (frameBytes v code data).drop 1 →
        exec (.unpack v f) s = .next { s with resLog := s.resLog ++ [.err .shortRead] }))

/-! ### Control -/

/-- 44_control.md R200, R201: SETVER writes VER, and MAXP with it in the same step, and nothing else; GETVER returns VER
and changes nothing. -/
def Obligations.SetverAndGetver : Prop :=
  ∀ (v : Version) (s : State),
    decode ⟨0x70, [.version v]⟩ = .instr (.setVer v) ∧ decode ⟨0x71, []⟩ = .instr .getVer ∧
    exec (.setVer v) s = .next { s with ver := v, resLog := s.resLog ++ [.ok .none] } ∧
    ({ s with ver := v, resLog := s.resLog ++ [.ok .none] } : State).maxp =
      (match v with | .v1 => 255 | .v2 => 65535) ∧
    exec .getVer s = .next { s with resLog := s.resLog ++ [.ok (.version s.ver)] }

/-- 44_control.md R202 (the operation is the spec's decision D9): GETMAXP returns 255 under V1 and 65535 under V2 and
changes nothing. -/
def Obligations.GetmaxpReturnsTheMaximumOfVer : Prop :=
  ∀ s : State, decode ⟨0x72, []⟩ = .instr .getMaxp ∧
    exec .getMaxp s = .next { s with
      resLog := s.resLog ++ [.ok (.int (match s.ver with | .v1 => 255 | .v2 => 65535))] }

/-- 44_control.md R203 (decision D26), 00_scope.md R13: FLUSH makes one request on RXFLUSH, whatever there is to discard, discards the
bytes of RXQ that have arrived and keeps those in flight; which have arrived is the link side's answer, and with none
listed all of `rxq` has (log 10). It tests no port and touches nothing else (the answer is used up). That the port is a
count of requests is log 23. -/
def Obligations.FlushDiscardsTheArrivedBytes : Prop :=
  ∀ (arrived flight : Buf) (k : Nat) (ks : List Nat) (s : State),
    decode ⟨0x73, []⟩ = .instr .flush ∧
    (s.flushAnswers = [] → exec .flush s =
      .next { s with rxq := [], rxflush := s.rxflush + 1, resLog := s.resLog ++ [.ok .none] }) ∧
    (s.flushAnswers = arrived.length :: ks → s.rxq = arrived ++ flight → exec .flush s =
      .next { s with
        rxq := flight, rxflush := s.rxflush + 1, flushAnswers := ks, resLog := s.resLog ++ [.ok .none] }) ∧
    (s.flushAnswers = k :: ks → s.rxq.length ≤ k → exec .flush s =
      .next { s with
        rxq := [], rxTail := s.rxTail.rotate (k - s.rxq.length), rxflush := s.rxflush + 1, flushAnswers := ks
        resLog := s.resLog ++ [.ok .none] })

/-! ### Whole-machine rules -/

/-- 00_scope.md R9, 60_exceptions.md R210: every operation that ends gives exactly one result. -/
def Obligations.EveryOperationGivesExactlyOneResult : Prop :=
  ∀ (i : Instr) (s t : State), exec i s = .next t → ∃ r, t.resLog = s.resLog ++ [r]

/-- 10_state.md R33 (derived by the spec), the write columns: which operation can change which state; PORT_OPEN and CMD are
changed by none, and neither are the machine's parameters. RXFLUSH is written by FLUSH alone (R13). -/
def Obligations.WritesFollowTheAccessTable : Prop :=
  ∀ (i : Instr) (s t : State), exec i s = .next t →
    t.portOpen = s.portOpen ∧ t.pending = s.pending ∧ t.params = s.params ∧
    (t.rxflush ≠ s.rxflush → i = .flush) ∧ (t.rxTail ≠ s.rxTail → i = .recv ∨ i = .flush) ∧
    (t.ver ≠ s.ver → i = .recv ∨ ∃ v, i = .setVer v) ∧
    (t.crcAcc ≠ s.crcAcc → i = .crcClr ∨ ∃ x, i = .crcUpd x) ∧
    (t.rx ≠ s.rx → i = .recv) ∧
    (t.rxq ≠ s.rxq → i = .recv ∨ i = .flush) ∧
    (t.txlog ≠ s.txlog → ∃ code data, i = .send code data) ∧
    (t.warnlog ≠ s.warnlog → i = .recv) ∧
    (t.rxAnswers ≠ s.rxAnswers → i = .recv) ∧
    (t.txAnswers ≠ s.txAnswers → ∃ code data, i = .send code data) ∧
    (t.flushAnswers ≠ s.flushAnswers → i = .flush)

/-- 10_state.md R23, 70 R254: no operation but CRC.UPD and CRC.RD reads CRCACC: at another value of it they do the same to
everything else. -/
def Obligations.OnlyTheCrcOperationsReadCrcacc : Prop :=
  ∀ (i : Instr) (s t : State) (c : Byte), (∀ x, i ≠ .crcUpd x) → i ≠ .crcRd → exec i s = .next t →
    ∃ c', exec i { s with crcAcc := c } = .next { t with crcAcc := c' }

/-- 10_state.md R25 (decision D21): nothing of one receive reaches a later operation: at other contents of the working
registers every operation gives the same result and leaves the same state but for those registers (and the model's
own count, log 12). -/
def Obligations.NoOperationReadsOldWorkingRegisters : Prop :=
  ∀ (i : Instr) (s t : State) (regs : RxRegs) (n : Nat), exec i s = .next t →
    ∃ regs' n', exec i { s with rx := regs, freeCount := n } = .next { t with rx := regs', freeCount := n' }

/-- 10_state.md R33 (derived by the spec), the rows of dashes, with the opening paragraph of 40_codec.md ("gives the same result every
time it is given the same operands"): the codec, the buffer checksums, PACK and UNPACK are functions of their operands
and of the machine's parameters: one result, the same at every state, and no state changed; or the same refusal at every
state, where a finite BUFCAP has no room for the result (log 24). That the bits of a NaN are among what is the same is
DEDUCED (log 14). -/
def Obligations.CodecChecksumPackUnpackArePure : Prop :=
  ∀ (P : Params) (i : Instr), i.wellFormed = true →
    (match i with
      | .crcClr | .crcUpd _ | .crcRd | .send _ _ | .recv | .setVer _ | .getVer | .getMaxp | .flush => False
      | _ => True) →
    (∃ r, ∀ s : State, s.params = P → exec i s = .next { s with resLog := s.resLog ++ [r] }) ∨
    (P.bufCap ≠ none ∧ ∀ s : State, s.params = P → exec i s = .refused .bufferCapacity)

/-- 60_exceptions.md R224 with R212 to R222: all the lasting effects of a failed operation, kind by kind; OutOfRange and
Unsupported are never raised. The working registers after a failure are free (log 11). -/
def Obligations.FailuresLeaveOnlyWhatTheirKindAllows : Prop :=
  ∀ (i : Instr) (s t : State) (k : ErrKind), exec i s = .next t → t.resLog = s.resLog ++ [.err k] →
    match k with
    | .portClosed | .payloadTooLarge | .shortBuffer | .badOperand => t = { s with resLog := t.resLog }
    | .writeShort => ∃ code data m, i = .send code data ∧ m < (frameBytes s.ver code data).length ∧
        t = { s with
          txlog := s.txlog ++ (frameBytes s.ver code data).take m, txAnswers := s.txAnswers.tail
          resLog := t.resLog }
    | .shortRead | .remoteError | .checksumError =>
        (∃ v f, i = .unpack v f ∧ t = { s with resLog := t.resLog }) ∨
        (i = .recv ∧ t.rxq <:+ s.rxq ∧ t = { s with
          rxq := t.rxq, rxTail := t.rxTail, rxAnswers := t.rxAnswers, rx := t.rx
          freeCount := t.freeCount, resLog := t.resLog })
    | .versionMismatch =>
        (∃ v f, i = .unpack v f ∧ t = { s with resLog := t.resLog }) ∨
        (i = .recv ∧ t.rxq <:+ s.rxq ∧ t.ver ≠ s.ver ∧ t = { s with
          ver := t.ver, warnlog := s.warnlog ++ [.versionMismatch]
          rxq := t.rxq, rxTail := t.rxTail, rxAnswers := t.rxAnswers, rx := t.rx
          freeCount := t.freeCount, resLog := t.resLog })
    | .outOfRange | .unsupported => False

/-- 60_exceptions.md R210, R225, R228 and 70 R248: at an unbounded BUFCAP, from every state every operation a host can write down
ends with a next state, but a RECV that never returns: one of its reads is never answered, or SEARCH never ends on an
endless stream (log 8). The only refusals are of an operand that cannot be written down (log 2) and, at a finite BUFCAP, of
a result there is no room for (log 24). -/
def Obligations.OnlyARecvThatNeverReturnsStopsTheBlock : Prop :=
  ∀ (i : Instr) (s : State),
    (i.wellFormed = true → s.params.bufCap = none → .never ∉ s.rxAnswers → (s.rxTail = [] ∨ 0x24 ∈ s.rxTail) →
      ∃ t, exec i s = .next t) ∧
    (∀ r, exec i s = .fault r → i = .recv ∧ s.portOpen = true ∧
      ((r = .readNeverAnswers ∧ .never ∈ s.rxAnswers) ∨
        (r = .searchNeverEnds ∧ s.rxTail ≠ [] ∧ 0x24 ∉ s.rxTail))) ∧
    (∀ r, exec i s = .refused r →
      (r = .valueOutOfRange ∧ i.wellFormed = false) ∨ (r = .bufferCapacity ∧ s.params.bufCap ≠ none))

/-- 20_memory.md R52 (a), (b), R48, R49 for RXQ and TXLOG, 60_exceptions.md R227 and 10_state.md R29 for WARNLOG, 00_scope.md R9 with
log 3 for RES: an operation only appends to TXLOG, to WARNLOG and to RES, and only takes bytes off the front of RXQ: it
never puts one back, retracts one or changes one; the endless part behind RXQ moves on only once `rxq` is used up (log 25),
and answers to reads are used up in their order (log 7). -/
def Obligations.StreamsOnlyMoveForward : Prop :=
  ∀ (i : Instr) (s t : State), exec i s = .next t →
    s.txlog <+: t.txlog ∧ s.warnlog <+: t.warnlog ∧ s.resLog <+: t.resLog ∧ t.rxq <:+ s.rxq ∧
    List.IsRotated s.rxTail t.rxTail ∧ (t.rxq ≠ [] → t.rxTail = s.rxTail) ∧
    t.rxAnswers <:+ s.rxAnswers

/-- 10_state.md R32 (derived by the spec), with R20 and 60 R220, R221: every step, from every state where the invariant holds,
whatever input it takes, leaves it holding. -/
def Obligations.EveryStepKeepsTheInvariant : Prop :=
  ∀ s t : State, Invariant s → step s = .next t → Invariant t

/-- 10_state.md R31, R32: the invariant holds after reset at either version (the logs empty and the working registers at the
values log 4 and log 5 name). -/
def Obligations.TheInvariantHoldsAfterReset : Prop :=
  ∀ v : Version, Invariant (State.resetWith v)

/-- 60_exceptions.md R219: ShortBuffer is the result of an operation exactly when it is a DECODE_INT.T or DECODE_FLOAT.I.F whose
buffer has fewer than size(T) bytes from the offset on (`buf.len - offset < size(T)`, over the integers: decision D11); then
no state changes. No other operation raises it, ENCODE_INT among them. -/
def Obligations.ShortBufferIsTheBoundsCheckAndNothingElse : Prop :=
  ∀ (i : Instr) (s : State),
    let short : Prop := match i with
    | .decodeIntU8 buf offset | .decodeIntI8 buf offset | .decodeFloatU8F32 buf offset _
    | .decodeFloatI8F32 buf offset _ | .decodeFloatU8F64 buf offset _ | .decodeFloatI8F64 buf offset _ =>
      (buf.length : Int) - offset < 1
    | .decodeIntU16 buf offset | .decodeIntI16 buf offset | .decodeFloatU16F32 buf offset _
    | .decodeFloatI16F32 buf offset _ | .decodeFloatU16F64 buf offset _ | .decodeFloatI16F64 buf offset _ =>
      (buf.length : Int) - offset < 2
    | .decodeIntU32 buf offset | .decodeIntI32 buf offset | .decodeFloatU32F32 buf offset _
    | .decodeFloatI32F32 buf offset _ | .decodeFloatU32F64 buf offset _ | .decodeFloatI32F64 buf offset _ =>
      (buf.length : Int) - offset < 4
    | .decodeIntU64 buf offset | .decodeIntI64 buf offset | .decodeFloatU64F32 buf offset _
    | .decodeFloatI64F32 buf offset _ | .decodeFloatU64F64 buf offset _ | .decodeFloatI64F64 buf offset _ =>
      (buf.length : Int) - offset < 8
    | _ => False
    (short → exec i s = .next { s with resLog := s.resLog ++ [.err .shortBuffer] }) ∧
    (∀ t, exec i s = .next t → t.resLog = s.resLog ++ [.err .shortBuffer] → short)
end

