-- ==== Sys2Proof/Laws/State.lean ====
section
/-! SUPPORT. Laws/State.lean: one lemma per field per update of the state, true by rfl, so that no proof unfolds a
record update. -/

namespace Sys2Proof.Machine

variable (s : State)

@[simp] theorem State.answer_params (r : Result) : (s.answer r).params = s.params := rfl
@[simp] theorem State.answer_rxTail (r : Result) : (s.answer r).rxTail = s.rxTail := rfl
@[simp] theorem State.answer_rxflush (r : Result) : (s.answer r).rxflush = s.rxflush := rfl
@[simp] theorem State.answer_ver (r : Result) : (s.answer r).ver = s.ver := rfl
@[simp] theorem State.answer_crcAcc (r : Result) : (s.answer r).crcAcc = s.crcAcc := rfl
@[simp] theorem State.answer_rx (r : Result) : (s.answer r).rx = s.rx := rfl
@[simp] theorem State.answer_rxq (r : Result) : (s.answer r).rxq = s.rxq := rfl
@[simp] theorem State.answer_txlog (r : Result) : (s.answer r).txlog = s.txlog := rfl
@[simp] theorem State.answer_portOpen (r : Result) : (s.answer r).portOpen = s.portOpen := rfl
@[simp] theorem State.answer_warnlog (r : Result) : (s.answer r).warnlog = s.warnlog := rfl
@[simp] theorem State.answer_pending (r : Result) : (s.answer r).pending = s.pending := rfl
@[simp] theorem State.answer_resLog (r : Result) : (s.answer r).resLog = s.resLog ++ [r] := rfl
@[simp] theorem State.answer_rxAnswers (r : Result) : (s.answer r).rxAnswers = s.rxAnswers := rfl
@[simp] theorem State.answer_txAnswers (r : Result) : (s.answer r).txAnswers = s.txAnswers := rfl
@[simp] theorem State.answer_flushAnswers (r : Result) : (s.answer r).flushAnswers = s.flushAnswers := rfl
@[simp] theorem State.answer_freeCount (r : Result) : (s.answer r).freeCount = s.freeCount := rfl

@[simp] theorem State.present_params (i : Input) : (s.present i).params = s.params := rfl
@[simp] theorem State.present_rxTail (i : Input) : (s.present i).rxTail = s.rxTail := rfl
@[simp] theorem State.present_rxflush (i : Input) : (s.present i).rxflush = s.rxflush := rfl
@[simp] theorem State.present_ver (i : Input) : (s.present i).ver = s.ver := rfl
@[simp] theorem State.present_crcAcc (i : Input) : (s.present i).crcAcc = s.crcAcc := rfl
@[simp] theorem State.present_rx (i : Input) : (s.present i).rx = s.rx := rfl
@[simp] theorem State.present_rxq (i : Input) : (s.present i).rxq = s.rxq := rfl
@[simp] theorem State.present_txlog (i : Input) : (s.present i).txlog = s.txlog := rfl
@[simp] theorem State.present_portOpen (i : Input) : (s.present i).portOpen = s.portOpen := rfl
@[simp] theorem State.present_warnlog (i : Input) : (s.present i).warnlog = s.warnlog := rfl
@[simp] theorem State.present_pending (i : Input) : (s.present i).pending = i :: s.pending := rfl
@[simp] theorem State.present_resLog (i : Input) : (s.present i).resLog = s.resLog := rfl
@[simp] theorem State.present_rxAnswers (i : Input) : (s.present i).rxAnswers = s.rxAnswers := rfl
@[simp] theorem State.present_txAnswers (i : Input) : (s.present i).txAnswers = s.txAnswers := rfl
@[simp] theorem State.present_flushAnswers (i : Input) : (s.present i).flushAnswers = s.flushAnswers := rfl
@[simp] theorem State.present_freeCount (i : Input) : (s.present i).freeCount = s.freeCount := rfl

@[simp] theorem State.resetBlock_params (v : Version) : (s.resetBlock v).params = s.params := rfl
@[simp] theorem State.resetBlock_rxTail (v : Version) : (s.resetBlock v).rxTail = s.rxTail := rfl
@[simp] theorem State.resetBlock_rxflush (v : Version) : (s.resetBlock v).rxflush = s.rxflush := rfl
@[simp] theorem State.resetBlock_ver (v : Version) : (s.resetBlock v).ver = v := rfl
@[simp] theorem State.resetBlock_crcAcc (v : Version) : (s.resetBlock v).crcAcc = 0x00 := rfl
@[simp] theorem State.resetBlock_rx (v : Version) : (s.resetBlock v).rx = RxRegs.reset := rfl
@[simp] theorem State.resetBlock_rxq (v : Version) : (s.resetBlock v).rxq = s.rxq := rfl
@[simp] theorem State.resetBlock_txlog (v : Version) : (s.resetBlock v).txlog = s.txlog := rfl
@[simp] theorem State.resetBlock_portOpen (v : Version) : (s.resetBlock v).portOpen = s.portOpen := rfl
@[simp] theorem State.resetBlock_warnlog (v : Version) : (s.resetBlock v).warnlog = s.warnlog := rfl
@[simp] theorem State.resetBlock_pending (v : Version) : (s.resetBlock v).pending = s.pending := rfl
@[simp] theorem State.resetBlock_resLog (v : Version) : (s.resetBlock v).resLog = s.resLog := rfl
@[simp] theorem State.resetBlock_rxAnswers (v : Version) : (s.resetBlock v).rxAnswers = s.rxAnswers := rfl
@[simp] theorem State.resetBlock_txAnswers (v : Version) : (s.resetBlock v).txAnswers = s.txAnswers := rfl
@[simp] theorem State.resetBlock_flushAnswers (v : Version) : (s.resetBlock v).flushAnswers = s.flushAnswers := rfl
@[simp] theorem State.resetBlock_freeCount (v : Version) : (s.resetBlock v).freeCount = s.freeCount := rfl

@[simp] theorem State.afterRun_params (e : RxEnd) : (s.afterRun e).params = s.params := rfl
@[simp] theorem State.afterRun_rxTail (e : RxEnd) : (s.afterRun e).rxTail = e.stream.tail := rfl
@[simp] theorem State.afterRun_rxflush (e : RxEnd) : (s.afterRun e).rxflush = s.rxflush := rfl
@[simp] theorem State.afterRun_ver (e : RxEnd) : (s.afterRun e).ver = e.version := rfl
@[simp] theorem State.afterRun_crcAcc (e : RxEnd) : (s.afterRun e).crcAcc = s.crcAcc := rfl
@[simp] theorem State.afterRun_rx (e : RxEnd) : (s.afterRun e).rx = s.rx := rfl
@[simp] theorem State.afterRun_rxq (e : RxEnd) : (s.afterRun e).rxq = e.stream.bytes := rfl
@[simp] theorem State.afterRun_txlog (e : RxEnd) : (s.afterRun e).txlog = s.txlog := rfl
@[simp] theorem State.afterRun_portOpen (e : RxEnd) : (s.afterRun e).portOpen = s.portOpen := rfl
@[simp] theorem State.afterRun_warnlog (e : RxEnd) : (s.afterRun e).warnlog = s.warnlog ++ e.warnings := rfl
@[simp] theorem State.afterRun_pending (e : RxEnd) : (s.afterRun e).pending = s.pending := rfl
@[simp] theorem State.afterRun_resLog (e : RxEnd) : (s.afterRun e).resLog = s.resLog := rfl
@[simp] theorem State.afterRun_rxAnswers (e : RxEnd) : (s.afterRun e).rxAnswers = e.stream.answers := rfl
@[simp] theorem State.afterRun_txAnswers (e : RxEnd) : (s.afterRun e).txAnswers = s.txAnswers := rfl
@[simp] theorem State.afterRun_flushAnswers (e : RxEnd) : (s.afterRun e).flushAnswers = s.flushAnswers := rfl
@[simp] theorem State.afterRun_freeCount (e : RxEnd) : (s.afterRun e).freeCount = s.freeCount := rfl

@[simp] theorem txWrite_params (b : Buf) : (txWrite s b).2.params = s.params := by
  unfold txWrite; split <;> rfl
@[simp] theorem txWrite_rxTail (b : Buf) : (txWrite s b).2.rxTail = s.rxTail := by
  unfold txWrite; split <;> rfl
@[simp] theorem txWrite_rxflush (b : Buf) : (txWrite s b).2.rxflush = s.rxflush := by
  unfold txWrite; split <;> rfl
@[simp] theorem txWrite_ver (b : Buf) : (txWrite s b).2.ver = s.ver := by
  unfold txWrite; split <;> rfl
@[simp] theorem txWrite_crcAcc (b : Buf) : (txWrite s b).2.crcAcc = s.crcAcc := by
  unfold txWrite; split <;> rfl
@[simp] theorem txWrite_rx (b : Buf) : (txWrite s b).2.rx = s.rx := by
  unfold txWrite; split <;> rfl
@[simp] theorem txWrite_rxq (b : Buf) : (txWrite s b).2.rxq = s.rxq := by
  unfold txWrite; split <;> rfl
@[simp] theorem txWrite_portOpen (b : Buf) : (txWrite s b).2.portOpen = s.portOpen := by
  unfold txWrite; split <;> rfl
@[simp] theorem txWrite_warnlog (b : Buf) : (txWrite s b).2.warnlog = s.warnlog := by
  unfold txWrite; split <;> rfl
@[simp] theorem txWrite_pending (b : Buf) : (txWrite s b).2.pending = s.pending := by
  unfold txWrite; split <;> rfl
@[simp] theorem txWrite_resLog (b : Buf) : (txWrite s b).2.resLog = s.resLog := by
  unfold txWrite; split <;> rfl
@[simp] theorem txWrite_rxAnswers (b : Buf) : (txWrite s b).2.rxAnswers = s.rxAnswers := by
  unfold txWrite; split <;> rfl
@[simp] theorem txWrite_flushAnswers (b : Buf) : (txWrite s b).2.flushAnswers = s.flushAnswers := by
  unfold txWrite; split <;> rfl
@[simp] theorem txWrite_freeCount (b : Buf) : (txWrite s b).2.freeCount = s.freeCount := by
  unfold txWrite; split <;> rfl

@[simp] theorem flushRx_params : (flushRx s).params = s.params := by
  unfold flushRx; split <;> rfl
@[simp] theorem flushRx_rxflush : (flushRx s).rxflush = s.rxflush + 1 := by
  unfold flushRx; split <;> rfl
@[simp] theorem flushRx_ver : (flushRx s).ver = s.ver := by
  unfold flushRx; split <;> rfl
@[simp] theorem flushRx_crcAcc : (flushRx s).crcAcc = s.crcAcc := by
  unfold flushRx; split <;> rfl
@[simp] theorem flushRx_rx : (flushRx s).rx = s.rx := by
  unfold flushRx; split <;> rfl
@[simp] theorem flushRx_txlog : (flushRx s).txlog = s.txlog := by
  unfold flushRx; split <;> rfl
@[simp] theorem flushRx_portOpen : (flushRx s).portOpen = s.portOpen := by
  unfold flushRx; split <;> rfl
@[simp] theorem flushRx_warnlog : (flushRx s).warnlog = s.warnlog := by
  unfold flushRx; split <;> rfl
@[simp] theorem flushRx_pending : (flushRx s).pending = s.pending := by
  unfold flushRx; split <;> rfl
@[simp] theorem flushRx_resLog : (flushRx s).resLog = s.resLog := by
  unfold flushRx; split <;> rfl
@[simp] theorem flushRx_rxAnswers : (flushRx s).rxAnswers = s.rxAnswers := by
  unfold flushRx; split <;> rfl
@[simp] theorem flushRx_txAnswers : (flushRx s).txAnswers = s.txAnswers := by
  unfold flushRx; split <;> rfl
@[simp] theorem flushRx_freeCount : (flushRx s).freeCount = s.freeCount := by
  unfold flushRx; split <;> rfl

@[simp] theorem State.rxStream_bytes : s.rxStream.bytes = s.rxq := rfl
@[simp] theorem State.rxStream_answers : s.rxStream.answers = s.rxAnswers := rfl
@[simp] theorem State.rxStream_tail : s.rxStream.tail = s.rxTail := rfl

@[simp] theorem Params.holds_default (n : Nat) : Params.default.holds n = true := rfl

/-- A block lacks exactly the DECODE_FLOAT opcodes of the formats it lacks. -/
theorem Params.offers_eq_false_iff {P : Params} {op : Byte} : P.offers op = false ↔
    (0x30 ≤ op.toNat ∧ op.toNat ≤ 0x37 ∧ .f32 ∉ P.floatTypes) ∨
    (0x38 ≤ op.toNat ∧ op.toNat ≤ 0x3F ∧ .f64 ∉ P.floatTypes) := by
  unfold Params.offers floatFormat
  split
  · rename_i h; split at h
    · split at h <;> cases h
    · simp; omega
  · rename_i F h
    split at h
    · split at h <;> cases h <;> simp only [decide_eq_false_iff_not]
      · exact ⟨fun h => .inl ⟨by omega, by omega, h⟩, by rintro (⟨_, _, h⟩ | ⟨_, _, h⟩) <;> first | exact h | omega⟩
      · exact ⟨fun h => .inr ⟨by omega, by omega, h⟩, by rintro (⟨_, _, h⟩ | ⟨_, _, h⟩) <;> first | exact h | omega⟩
    · cases h

@[simp] theorem Params.offers_default (op : Byte) : Params.default.offers op = true := by
  unfold Params.offers; split
  · rfl
  · rename_i F _; cases F <;> rfl

/-- At the default FLOAT_TYPES the block's decoder is the whole opcode map. -/
@[simp] theorem Params.decodes_default (c : Command) : Params.default.decodes c = decode c := by
  simp [Params.decodes]

/-- The block's decoder takes rows away and nothing more. -/
theorem Params.decodes_cases (P : Params) (c : Command) :
    (P.offers c.op = true ∧ P.decodes c = decode c) ∨ (P.offers c.op = false ∧ P.decodes c = .error .illegalOpcode) := by
  unfold Params.decodes; cases P.offers c.op <;> simp

/-- What holds a buffer holds a shorter one. -/
theorem Params.holds_mono {P : Params} {m n : Nat} (h : P.holds n = true) (hmn : m ≤ n) : P.holds m = true := by
  unfold Params.holds at *
  split at h
  · rfl
  · simp at *; omega

@[simp] theorem RxRegs.unspecified_rxs (n : Nat) : (RxRegs.unspecified n).rxs = .search := rfl

/-- Presenting an input and taking it gives the state back. -/
@[simp] theorem State.takeInput_present (i : Input) : (s.present i).takeInput = some (i, s) := rfl

@[simp] theorem State.maxp_v1 (h : s.ver = .v1) : s.maxp = 255 := by
  unfold State.maxp maxPayload; rw [h]; rfl

@[simp] theorem State.maxp_v2 (h : s.ver = .v2) : s.maxp = 65535 := by
  unfold State.maxp maxPayload; rw [h]; rfl

end Sys2Proof.Machine
end

