-- ==== Sys2Proof/Laws/Ops.lean ====
section
/-! SUPPORT. Laws/Ops.lean: one lemma per shared operation that says everything it can do: a read of a stream, a write
on the wire, a flush, the end of an operation, a run of the machine. -/

namespace Sys2Proof.Machine

open Sys2Proof.Safety

/-- An operation that returns a value ends with it on RES, if the value's buffer exists. -/
theorem ret_eq {v : Value} {s : State} (h : v.fits s.params = true) :
    ret v s = .next { s with resLog := s.resLog ++ [.ok v] } := by
  simp [ret, h, State.answer]

/-- Otherwise it is refused; nothing else can happen. -/
theorem ret_full {v : Value} {s : State} (h : v.fits s.params = false) : ret v s = .refused .bufferCapacity := by
  simp [ret, h]

theorem raise_eq (k : ErrKind) (s : State) : raise k s = .next { s with resLog := s.resLog ++ [.err k] } := rfl

@[simp] theorem cycleTake_nil (n : Nat) : cycleTake n [] = [] := by cases n <;> rfl

theorem cycleTake_length_le (n : Nat) (c : Buf) : (cycleTake n c).length ≤ n := by
  induction n generalizing c with
  | zero => simp [cycleTake]
  | succ n ih =>
    cases c with
    | nil => simp
    | cons b bs => simp [cycleTake, ih]

/-- A read either is never answered, which only an answer `never` at the head of the list does, or takes a front part
of the stream and one answer; the endless part moves on only once the listed bytes are used up. -/
theorem RxStream.read_spec (st : RxStream) (n : Nat) :
    (st.read (n + 1) = .never ∧ ∃ as, st.answers = .never :: as) ∨
    ∃ m as, m ≤ n + 1 ∧ st.answers.tail = as ∧ .never ∉ st.answers.head? ∧ st.read (n + 1) = st.take m as := by
  obtain ⟨b, as, t⟩ := st
  match as with
  | [] => exact .inr ⟨n + 1, [], Nat.le_refl _, rfl, by simp, rfl⟩
  | .never :: as => exact .inl ⟨rfl, as, rfl⟩
  | .gives k :: as => exact .inr ⟨min k (n + 1), as, Nat.min_le_right _ _, rfl, by simp, rfl⟩

/-- Taking no more than the listed bytes leaves the endless part alone. -/
theorem RxStream.take_listed {b t : Buf} {as : List ReadAnswer} {m : Nat} {as' : List ReadAnswer}
    (h : m ≤ b.length) : RxStream.take ⟨b, as, t⟩ m as' = .got (b.take m) ⟨b.drop m, as', t⟩ := by
  simp [RxStream.take, Nat.sub_eq_zero_of_le h, cycleTake]

theorem answersLeft_append (ms ns : List Nat) (as : List ReadAnswer) :
    answersLeft (ms ++ ns) as = answersLeft ns (answersLeft ms as) := by
  induction ms generalizing as with
  | nil => rfl
  | cons m ms ih => cases m <;> simp [answersLeft, ih]

@[simp] theorem answersLeft_nil (ns : List Nat) : answersLeft ns [] = [] := by
  induction ns with
  | nil => rfl
  | cons n ns ih => cases n <;> simp [answersLeft, ih]

theorem answersLeft_suffix (ns : List Nat) (as : List ReadAnswer) : answersLeft ns as <:+ as := by
  induction ns generalizing as with
  | nil => exact List.suffix_refl _
  | cons n ns ih =>
    cases n
    · exact ih as
    · exact (ih _).trans (List.tail_suffix _)

@[simp] theorem answeredInFull_nil (ns : List Nat) : answeredInFull ns [] := by
  induction ns with
  | nil => trivial
  | cons n ns ih => cases n <;> simp [answeredInFull, ih]

theorem answeredInFull_append (ms ns : List Nat) (as : List ReadAnswer) :
    answeredInFull (ms ++ ns) as ↔ answeredInFull ms as ∧ answeredInFull ns (answersLeft ms as) := by
  induction ms generalizing as with
  | nil => simp [answeredInFull, answersLeft]
  | cons m ms ih =>
    cases m with
    | zero => simp [answeredInFull, answersLeft, ih]
    | succ m =>
      match as with
      | [] => simp [answeredInFull]
      | .gives k :: as => simp [answeredInFull, answersLeft, ih, and_assoc]
      | .never :: as => simp [answeredInFull]

/-- A read that is answered in full gives exactly the bytes it asked for. -/
theorem RxStream.read_full {n : Nat} {as : List ReadAnswer} (hf : answeredInFull [n] as) (r rest t : Buf)
    (hn : r.length = n) : RxStream.read ⟨r ++ rest, as, t⟩ n = .got r ⟨rest, answersLeft [n] as, t⟩ := by
  cases n with
  | zero => simp at hn; subst hn; rfl
  | succ n =>
    match as, hf with
    | [], _ => simp only [RxStream.read]; rw [RxStream.take_listed (by simp; omega)]; simp [← hn, answersLeft]
    | .gives k :: as, hf =>
      simp only [answeredInFull] at hf
      simp only [RxStream.read]
      rw [Nat.min_eq_right hf.1, RxStream.take_listed (by simp; omega)]; simp [← hn, answersLeft]

/-- In the finite-stream model a read yields `min(n, len)` bytes. -/
theorem RxStream.read_nil (b : Buf) (n : Nat) : RxStream.read ⟨b, [], []⟩ n = .got (b.take n) ⟨b.drop n, [], []⟩ := by
  cases n <;> simp [RxStream.read, RxStream.take]

/-- A write appends a front part of its bytes, all of them when none or enough is listed. -/
theorem txWrite_spec (s : State) (b : Buf) : ∃ k, k ≤ b.length ∧
    txWrite s b = (k, { s with txlog := s.txlog ++ b.take k, txAnswers := s.txAnswers.tail }) ∧
    (s.txAnswers = [] → k = b.length) ∧ (∀ a as, s.txAnswers = a :: as → k = min a b.length) := by
  unfold txWrite
  cases h : s.txAnswers with
  | nil =>
    refine ⟨b.length, Nat.le_refl _, ?_, by simp, by simp⟩
    obtain ⟨⟩ := s; simp at h; subst h; simp
  | cons a as => exact ⟨min a b.length, Nat.min_le_right _ _, rfl, by simp, by rintro _ _ ⟨⟩; rfl⟩

/-- A flush drops a front part of RXQ, uses up one answer and makes one request. -/
theorem flushRx_spec (s : State) : ∃ k, flushRx s = { s with
      rxq := s.rxq.drop k, rxTail := s.rxTail.rotate (k - s.rxq.length), flushAnswers := s.flushAnswers.tail
      rxflush := s.rxflush + 1 } ∧
    (s.flushAnswers = [] → k = s.rxq.length) ∧ (∀ a as, s.flushAnswers = a :: as → k = a) := by
  unfold flushRx
  cases h : s.flushAnswers with
  | nil =>
    refine ⟨s.rxq.length, ?_, by simp, by simp⟩
    obtain ⟨⟩ := s; simp at h; subst h; simp
  | cons a as => exact ⟨a, rfl, by simp, by rintro _ _ ⟨⟩; rfl⟩

/-- A run of `k + 1` steps is one step and a run of `k`. -/
theorem run_succ (k : Nat) (s t : State) (h : step s = .next t) : core.run (k + 1) s = core.run k t := by
  refine (Host.Core.run.eq_2 core s k).trans ?_
  rw [show core.step s = .next t from h]

end Sys2Proof.Machine
end

