-- ==== Sys2Proof/Laws/Codec.lean ====
section
/-! SUPPORT. Laws/Codec.lean: the operand forms of the codec: the bounds check, the fetch, the little-endian reading and
writing of a number. -/

namespace Sys2Proof.Machine

open Sys2Proof.Safety

theorem shortOf_eq (buf : Buf) (o n : Nat) : shortOf buf o n = decide (buf.length < o + n) := by
  unfold shortOf; congr 1; apply propext; omega

theorem fetchInt_short {T : IntType} {buf : Buf} {o : Nat} (h : buf.length < o + T.size) : fetchInt T buf o = none := by
  simp [fetchInt, shortOf_eq, h]

theorem fetchInt_full {T : IntType} {buf : Buf} {o : Nat} (h : o + T.size ≤ buf.length) :
    fetchInt T buf o = some (valueOf T (memRead buf o T.size)) := by
  simp [fetchInt, shortOf_eq, Nat.not_lt.2 h]

theorem memRead_mid (p b q : Buf) (n : Nat) (h : b.length = n) : memRead (p ++ b ++ q) p.length n = b := by
  subst h; simp [memRead]

theorem fetchInt_mid (T : IntType) (p b q : Buf) (h : b.length = T.size) :
    fetchInt T (p ++ b ++ q) p.length = some (valueOf T b) := by
  rw [fetchInt_full (by simp; omega), memRead_mid _ _ _ _ h]

theorem leImage_length (n u : Nat) : (leImage n u).length = n := by
  induction n generalizing u with
  | zero => rfl
  | succ n ih => simp [leImage, ih]

theorem leUint_lt (b : Buf) : leUint b < 256 ^ b.length := by
  induction b with
  | nil => simp [leUint]
  | cons x xs ih => simp [leUint, pow_succ]; have := x.isLt; omega

theorem leUint_leImage (n u : Nat) : leUint (leImage n u) = u % 256 ^ n := by
  induction n generalizing u with
  | zero => simp [leImage, leUint, Nat.mod_one]
  | succ n ih =>
    simp [leImage, leUint, ih]
    rw [pow_succ, mul_comm (256 ^ n), Nat.mod_mul]

theorem leImage_leUint (b : Buf) : leImage b.length (leUint b) = b := by
  induction b with
  | nil => rfl
  | cons x xs ih =>
    have := x.isLt
    simp [leImage, leUint]
    constructor
    · apply BitVec.eq_of_toNat_eq; simp; omega
    · rw [show (x.toNat + 256 * leUint xs) / 256 = leUint xs by omega]; exact ih

theorem exec_decodeIntOf (T : IntType) (b : Buf) (k : Nat) (s : State) :
    exec (decodeIntOf T b k) s = decodeInt T b k s := by cases T <;> rfl

theorem exec_encodeIntOf (T : IntType) (v : Int) (b : Buf) (s : State) :
    exec (encodeIntOf T v b) s = encodeInt T v b s := by cases T <;> rfl

end Sys2Proof.Machine
end

