-- ==== Sys2Proof/Laws/Framer.lean ====
section
/-! SUPPORT. Laws/Framer.lean: the framers: what the guards accept, the frame byte by byte, and one lemma per part of the
receive machine on a stream whose peer answers its reads in full. -/

namespace Sys2Proof.Machine

open Sys2Proof.Safety

theorem lo8_eq (c : BitVec 16) : lo8 c = byteOf c.toNat 0 := by
  apply BitVec.eq_of_toNat_eq; simp [lo8, byteOf]

theorem hi8_eq (c : BitVec 16) : hi8 c = byteOf c.toNat 1 := by
  apply BitVec.eq_of_toNat_eq; simp [hi8, byteOf, Nat.shiftRight_eq_div_pow]

theorem word16_eq (lo hi : Byte) : word16 lo hi = hi ++ lo := by
  apply BitVec.eq_of_toNat_eq
  rw [BitVec.toNat_append, Nat.shiftLeft_eq, Nat.or_comm]
  simp [word16, zext16, Nat.shiftLeft_eq]
  have := lo.isLt; have := hi.isLt
  rw [Nat.mod_eq_of_lt (by omega), Nat.mod_eq_of_lt (by omega)]

theorem word16_toNat (lo hi : Byte) : (word16 lo hi).toNat = lo.toNat + 256 * hi.toNat := by
  rw [word16_eq, BitVec.toNat_append, ← Nat.shiftLeft_add_eq_or_of_lt lo.isLt, Nat.shiftLeft_eq]; omega

theorem lo8_word16 (lo hi : Byte) : lo8 (word16 lo hi) = lo := by
  apply BitVec.eq_of_toNat_eq; rw [lo8_eq, word16_toNat]; simp [byteOf]; exact lo.isLt

theorem hi8_word16 (lo hi : Byte) : hi8 (word16 lo hi) = hi := by
  apply BitVec.eq_of_toNat_eq; rw [hi8_eq, word16_toNat]
  have := lo.isLt; have := hi.isLt
  simp [byteOf]; omega

theorem zext16_toNat (b : Byte) : (zext16 b).toNat = b.toNat := by
  simp [zext16]; have := b.isLt; omega

theorem lo8_zext16 (b : Byte) : lo8 (zext16 b) = b := by
  apply BitVec.eq_of_toNat_eq; simp [lo8, zext16]; have := b.isLt; omega

theorem packGuard_none (v : Version) (code : Code) (data : Buf) :
    packGuard v code data = none ↔ sendable v code data := by
  cases v <;> simp [packGuard, sendable, maxPayload, Config.MAXP_V1, Config.MAXP_V2] <;> split <;>
    (try split) <;> simp <;> omega

theorem packFrame_eq (v : Version) (code : Code) (data : Buf) (h : sendable v code data) :
    packFrame v code data = frameBytes v code data := by
  cases v
  · simp [sendable] at h
    have e : lo8 (BitVec.ofNat 16 data.length) = byteOf data.length 0 := by
      apply BitVec.eq_of_toNat_eq; simp [lo8, byteOf]
    simp only [packFrame, packV1, bodyV1, frameBytes, validFrame, e, lo8_eq code]; rfl
  · simp [sendable] at h
    have e : lo8 (BitVec.ofNat 16 data.length) = byteOf data.length 0 := by
      apply BitVec.eq_of_toNat_eq; simp [lo8, byteOf]
    have e2 : hi8 (BitVec.ofNat 16 data.length) = byteOf data.length 1 := by
      apply BitVec.eq_of_toNat_eq; simp [hi8, byteOf, Nat.shiftRight_eq_div_pow]; omega
    simp only [packFrame, packV2, bodyV2, frameBytes, validFrame, e, e2, lo8_eq code, hi8_eq code]; rfl

/-- State SEARCH over `n` bytes that are not `$`, each read answered: the scan goes on behind them. -/
theorem rxScan_skip {g : Buf} (hg : 0x24 ∉ g) (rest t : Buf) {as : List ReadAnswer}
    (hf : answeredInFull (List.replicate g.length 1) as) :
    rxScan t (g ++ rest) as = rxScan t rest (answersLeft (List.replicate g.length 1) as) := by
  induction g generalizing as with
  | nil => rfl
  | cons x xs ih =>
    simp at hg
    have hx : x ≠ Config.SOF := fun h => hg.1 (by rw [h]; rfl)
    match as, hf with
    | [], _ => simpa [rxScan, hx] using ih hg.2 (as := []) (by simp)
    | .gives (k + 1) :: as, hf =>
      simp only [List.length_cons, List.replicate_succ, answeredInFull] at hf
      simpa [rxScan, hx, answersLeft, List.replicate_succ] using ih hg.2 hf.2

/-- State SEARCH on a stream with a `$` whose peer answers the reads up to it in full. -/
theorem rxScan_full {g : Buf} (hg : 0x24 ∉ g) (rest t : Buf) {as : List ReadAnswer}
    (hf : answeredInFull (List.replicate (g.length + 1) 1) as) :
    rxScan t (g ++ 0x24 :: rest) as = .found ⟨rest, answersLeft (List.replicate (g.length + 1) 1) as, t⟩ := by
  rw [List.replicate_succ', answeredInFull_append] at hf
  rw [rxScan_skip hg _ _ hf.1, List.replicate_succ', answersLeft_append]
  match h : answersLeft (List.replicate g.length 1) as, hf.2 with
  | [], _ => simp [rxScan, Config.SOF]
  | .gives (k + 1) :: as, _ => simp [rxScan, Config.SOF, answersLeft]

/-- State SEARCH on a finite stream with no `$`. -/
theorem rxScan_short {g : Buf} (hg : 0x24 ∉ g) : rxScan [] g [] = .short ⟨[], [], []⟩ := by
  have := rxScan_skip hg [] [] (as := []) (by simp)
  simpa [rxScan, rxScanTail] using this

/-- The scan at a read the peer answers with nothing. -/
theorem rxScan_gives_zero (t b : Buf) (as : List ReadAnswer) :
    rxScan t b (.gives 0 :: as) = .short ⟨b, as, t⟩ := by
  cases b with
  | nil => cases t <;> rfl
  | cons x xs => rfl

theorem rxScan_never (t b : Buf) (as : List ReadAnswer) : rxScan t b (.never :: as) = .hung .readNeverAnswers := by
  cases b with
  | nil => cases t <;> rfl
  | cons x xs => rfl

/-- A peer that never answers short, an endless part with no `$`: the scan never ends. -/
theorem rxScanTail_endless {as : List ReadAnswer} (ha : ∀ a ∈ as, ∃ k, a = .gives k ∧ 1 ≤ k) {t : Buf} (ht : t ≠ [])
    (h : 0x24 ∉ t) : rxScanTail as t = .hung .searchNeverEnds := by
  induction as generalizing t with
  | nil =>
    cases t with
    | nil => exact absurd rfl ht
    | cons b bs => rw [rxScanTail, if_neg (show Config.SOF ∉ b :: bs from h)]
  | cons a as ih =>
    obtain ⟨k, rfl, hk⟩ := ha a (by simp)
    obtain ⟨k, rfl⟩ : ∃ j, k = j + 1 := ⟨k - 1, by omega⟩
    cases t with
    | nil => exact absurd rfl ht
    | cons b bs =>
      have hb : b ≠ Config.SOF := fun e => h (by rw [e]; simp [Config.SOF])
      rw [rxScanTail, if_neg hb]
      exact ih (fun a h => ha a (by simp [h])) (by simp) (by simp at h ⊢; tauto)

theorem rxScan_endless {as : List ReadAnswer} (ha : ∀ a ∈ as, ∃ k, a = .gives k ∧ 1 ≤ k) {b t : Buf} (hb : 0x24 ∉ b)
    (ht : t ≠ []) (h : 0x24 ∉ t) : rxScan t b as = .hung .searchNeverEnds := by
  induction b generalizing as with
  | nil => exact rxScanTail_endless ha ht h
  | cons x xs ih =>
    have hx : x ≠ Config.SOF := fun e => hb (by rw [e]; simp [Config.SOF])
    have hxs : 0x24 ∉ xs := by simp at hb; tauto
    match as with
    | [] => rw [rxScan, if_neg hx]; exact ih (by simp) hxs
    | a :: as =>
      obtain ⟨k, rfl, hk⟩ := ha a (by simp)
      obtain ⟨k, rfl⟩ : ∃ j, k = j + 1 := ⟨k - 1, by omega⟩
      rw [rxScan, if_neg hx]; exact ih (fun a h => ha a (by simp [h])) hxs

/-- What the scan can do on the endless part. -/
theorem rxScanTail_spec (as : List ReadAnswer) (t : Buf) :
    match rxScanTail as t with
    | .found st => st.bytes = [] ∧ st.answers <:+ as ∧ List.IsRotated t st.tail
    | .short st => st.bytes = [] ∧ st.answers <:+ as ∧ List.IsRotated t st.tail
    | .hung why => (why = .readNeverAnswers ∧ .never ∈ as) ∨ (why = .searchNeverEnds ∧ t ≠ [] ∧ 0x24 ∉ t) := by
  induction as generalizing t with
  | nil =>
    cases t with
    | nil => simp [rxScanTail]
    | cons b bs =>
      simp only [rxScanTail]
      by_cases h : Config.SOF ∈ b :: bs
      · rw [if_pos h]; exact ⟨rfl, List.suffix_refl _, _, rfl⟩
      · rw [if_neg h]; exact .inr ⟨rfl, by simp, h⟩
  | cons a as ih =>
    match a, t with
    | .never, _ => simp [rxScanTail]
    | .gives _, [] => simp [rxScanTail]
    | .gives 0, b :: bs => exact ⟨rfl, List.suffix_cons _ _, List.IsRotated.refl _⟩
    | .gives (k + 1), b :: bs =>
      have hr : List.IsRotated (b :: bs) (bs ++ [b]) := ⟨1, by simp⟩
      simp only [rxScanTail]
      by_cases hb : b = Config.SOF
      · rw [if_pos hb]; exact ⟨rfl, List.suffix_cons _ _, hr⟩
      · rw [if_neg hb]
        have := ih (bs ++ [b])
        revert this
        cases rxScanTail as (bs ++ [b]) <;> simp only
        · rintro ⟨h1, h2, h3⟩; exact ⟨h1, h2.trans (List.suffix_cons _ _), hr.trans h3⟩
        · rintro ⟨h1, h2, h3⟩; exact ⟨h1, h2.trans (List.suffix_cons _ _), hr.trans h3⟩
        · rintro (⟨h1, h2⟩ | ⟨h1, h2, h3⟩)
          · exact .inl ⟨h1, by simp [h2]⟩
          · refine .inr ⟨h1, by simp, fun h => h3 ?_⟩
            simp at h ⊢; tauto

/-- What a stretch of stream `st'` is to the stream `st` it comes from: bytes taken off the front, answers used up, and
the endless part moved on only once the listed bytes were used up. -/
structure RxStream.Later (st st' : RxStream) : Prop where
  bytes : st'.bytes <:+ st.bytes
  answers : st'.answers <:+ st.answers
  rotated : List.IsRotated st.tail st'.tail
  listed : st'.bytes ≠ [] → st'.tail = st.tail

theorem RxStream.Later.refl (st : RxStream) : st.Later st :=
  ⟨List.suffix_refl _, List.suffix_refl _, List.IsRotated.refl _, fun _ => rfl⟩

theorem RxStream.Later.trans {a b c : RxStream} (h : a.Later b) (k : b.Later c) : a.Later c where
  bytes := k.bytes.trans h.bytes
  answers := k.answers.trans h.answers
  rotated := h.rotated.trans k.rotated
  listed hc := (k.listed hc).trans (h.listed fun hb => hc (by have := k.bytes; rw [hb] at this; simpa using this))

/-- Everything the scan of SEARCH can do. -/
theorem rxScan_spec (t b : Buf) (as : List ReadAnswer) :
    match rxScan t b as with
    | .found st => RxStream.Later ⟨b, as, t⟩ st
    | .short st => RxStream.Later ⟨b, as, t⟩ st
    | .hung why => (why = .readNeverAnswers ∧ .never ∈ as) ∨ (why = .searchNeverEnds ∧ t ≠ [] ∧ 0x24 ∉ t) := by
  have cons : ∀ {x : Byte} {xs : Buf} {as as' : List ReadAnswer} {st : RxStream}, as' <:+ as →
      RxStream.Later ⟨xs, as', t⟩ st → RxStream.Later ⟨x :: xs, as, t⟩ st := by
    intro x xs as as' st ha h
    have : RxStream.Later ⟨x :: xs, as, t⟩ ⟨xs, as', t⟩ :=
      ⟨List.suffix_cons _ _, ha, List.IsRotated.refl _, fun _ => rfl⟩
    exact this.trans h
  induction b generalizing as with
  | nil =>
    have := rxScanTail_spec as t
    simp only [rxScan]
    revert this
    cases rxScanTail as t <;> simp only
    · rintro ⟨h1, h2, h3⟩; exact ⟨by simp [h1], h2, h3, fun h => absurd h1 h⟩
    · rintro ⟨h1, h2, h3⟩; exact ⟨by simp [h1], h2, h3, fun h => absurd h1 h⟩
    · exact id
  | cons x xs ih =>
    match as with
    | [] =>
      simp only [rxScan]
      by_cases hb : x = Config.SOF
      · rw [if_pos hb]; exact cons (List.suffix_refl _) (.refl _)
      · rw [if_neg hb]
        have := ih []
        revert this
        cases rxScan t xs [] <;> simp only
        · exact cons (List.suffix_refl _)
        · exact cons (List.suffix_refl _)
        · exact id
    | .gives 0 :: as => exact ⟨List.suffix_refl _, List.suffix_cons _ _, List.IsRotated.refl _, fun _ => rfl⟩
    | .gives (k + 1) :: as =>
      simp only [rxScan]
      by_cases hb : x = Config.SOF
      · rw [if_pos hb]; exact cons (List.suffix_cons _ _) (.refl _)
      · rw [if_neg hb]
        have := ih as
        revert this
        cases rxScan t xs as <;> simp only
        · exact cons (List.suffix_cons _ _)
        · exact cons (List.suffix_cons _ _)
        · rintro (⟨h1, h2⟩ | h)
          · exact .inl ⟨h1, by simp [h2]⟩
          · exact .inr h
    | .never :: as => simp [rxScan]

/-- One read of the machine that is answered in full. -/
theorem rxReadThen_full {n : Nat} {as : List ReadAnswer} (hf : answeredInFull [n] as) (r rest t : Buf)
    (hn : r.length = n) (v : Version) (regs : RxRegs) (k : Buf → RxStream → RxRun) :
    rxReadThen n v regs ⟨r ++ rest, as, t⟩ k = k r ⟨rest, answersLeft [n] as, t⟩ := by
  simp [rxReadThen, RxStream.read_full hf r rest t hn, hn]

/-- One read of the machine that is answered short: the bytes it gave are gone. -/
theorem rxReadThen_gives {n k : Nat} (hk : k < n) (b t : Buf) (as : List ReadAnswer) (v : Version) (regs : RxRegs)
    (next : Buf → RxStream → RxRun) : rxReadThen n v regs ⟨b, .gives k :: as, t⟩ next =
      .ended ⟨.fail .shortRead, v, [], { regs with rxs := .search },
        ⟨b.drop k, as, t.rotate (k - b.length)⟩⟩ := by
  obtain ⟨n, rfl⟩ : ∃ j, n = j + 1 := ⟨n - 1, by omega⟩
  have hl := cycleTake_length_le (k - b.length) t
  simp only [rxReadThen, RxStream.read, RxStream.take, Nat.min_eq_left (Nat.le_of_lt hk)]
  rw [if_pos (by simp; omega)]; rfl

/-- One read of the machine that is never answered. -/
theorem rxReadThen_never {n : Nat} (hn : 0 < n) (b t : Buf) (as : List ReadAnswer) (v : Version) (regs : RxRegs)
    (next : Buf → RxStream → RxRun) :
    rxReadThen n v regs ⟨b, .never :: as, t⟩ next = .hung .readNeverAnswers := by
  obtain ⟨n, rfl⟩ : ∃ j, n = j + 1 := ⟨n - 1, by omega⟩
  rfl

/-- A read of the machine that the finite stream cannot serve: all of it is consumed. -/
theorem rxReadThen_short {n : Nat} (r : Buf) (hn : r.length < n) (v : Version) (regs : RxRegs)
    (k : Buf → RxStream → RxRun) :
    rxReadThen n v regs ⟨r, [], []⟩ k =
      .ended ⟨.fail .shortRead, v, [], { regs with rxs := .search }, ⟨[], [], []⟩⟩ := by
  have h : ¬ n ≤ r.length := by omega
  simp [rxReadThen, RxStream.read_nil, rxStop, List.take_of_length_le (Nat.le_of_lt hn),
    List.drop_of_length_le (Nat.le_of_lt hn), hn]

/-- States SEARCH and VARIANT on a stream that holds a `$` and a byte after it. -/
theorem rxMachine_head {as : List ReadAnswer} (v : Version) (regs : RxRegs) (g : Buf)
    (hg : 0x24 ∉ g) (hf : answeredInFull (preambleReads g.length) as) (x : Byte) (rest t : Buf) :
    rxMachine v regs ⟨g ++ [0x24, x] ++ rest, as, t⟩ =
      (if x = 0x4D ∧ v = .v1 then
        rxHdr1 v { regs with rxs := .variant } ⟨rest, answersLeft (preambleReads g.length) as, t⟩
       else if x = 0x58 ∧ v = .v2 then
        rxHdr2 v { regs with rxs := .variant } ⟨rest, answersLeft (preambleReads g.length) as, t⟩
       else rxMismatch v { regs with rxs := .variant } ⟨rest, answersLeft (preambleReads g.length) as, t⟩) := by
  unfold preambleReads at *
  rw [List.replicate_succ', answeredInFull_append] at hf
  rw [List.replicate_succ', answersLeft_append]
  have h := rxReadThen_full hf.2 [x] rest t rfl v { regs with rxs := .variant } (fun r rest =>
      if r.headD 0 = Config.VAR_V1 ∧ v = .v1 then rxHdr1 v { regs with rxs := .variant } rest
      else if r.headD 0 = Config.VAR_V2 ∧ v = .v2 then rxHdr2 v { regs with rxs := .variant } rest
      else rxMismatch v { regs with rxs := .variant } rest)
  unfold rxMachine
  simp only [List.append_assoc, List.cons_append, List.nil_append]
  rw [rxScan_full hg (x :: rest) t hf.1]
  exact h

/-- A run over a whole V1 header of the version expected. -/
theorem rxMachine_header1 {as : List ReadAnswer} (regs : RxRegs) {g : Buf} (hg : 0x24 ∉ g)
    (hf : answeredInFull (preambleReads g.length ++ [3]) as) (typ len code : Byte) (rest t : Buf) :
    rxMachine .v1 regs ⟨g ++ [0x24, 0x4D, typ, len, code] ++ rest, as, t⟩ =
      rxDirection .v1 { regs with rxs := .hdr1, type := typ, len := zext16 len, code := zext16 code }
        ⟨rest, answersLeft (preambleReads g.length ++ [3]) as, t⟩ := by
  rw [answeredInFull_append] at hf
  have h := rxMachine_head .v1 regs g hg hf.1 0x4D ([typ, len, code] ++ rest) t
  have h2 := rxReadThen_full hf.2 [typ, len, code] rest t rfl .v1 { regs with rxs := .hdr1 }
    (fun h rest => rxDirection .v1 (RxRegs.header1 { regs with rxs := .hdr1 } h) rest)
  simp only [List.append_assoc, List.cons_append, List.nil_append] at h h2 ⊢
  rw [h, if_pos (by simp), answersLeft_append]
  exact h2

/-- A run over a whole V2 header of the version expected. -/
theorem rxMachine_header2 {as : List ReadAnswer} (regs : RxRegs) {g : Buf} (hg : 0x24 ∉ g)
    (hf : answeredInFull (preambleReads g.length ++ [6]) as) (typ flag codeLo codeHi lenLo lenHi : Byte) (rest t : Buf) :
    rxMachine .v2 regs ⟨g ++ [0x24, 0x58, typ, flag, codeLo, codeHi, lenLo, lenHi] ++ rest, as, t⟩ =
      rxDirection .v2 { regs with
          rxs := .hdr2, type := typ, flag := flag, code := word16 codeLo codeHi, len := word16 lenLo lenHi }
        ⟨rest, answersLeft (preambleReads g.length ++ [6]) as, t⟩ := by
  rw [answeredInFull_append] at hf
  have h := rxMachine_head .v2 regs g hg hf.1 0x58 ([typ, flag, codeLo, codeHi, lenLo, lenHi] ++ rest) t
  have h2 := rxReadThen_full hf.2 [typ, flag, codeLo, codeHi, lenLo, lenHi] rest t rfl .v2 { regs with rxs := .hdr2 }
    (fun h rest => rxDirection .v2 (RxRegs.header2 { regs with rxs := .hdr2 } h) rest)
  simp only [List.append_assoc, List.cons_append, List.nil_append] at h h2 ⊢
  rw [h, if_neg (by simp), if_pos (by simp), answersLeft_append]
  exact h2

/-- Behind the header of a frame that is no error frame the machine reads LEN bytes. -/
theorem rxDirection_payload (v : Version) {regs : RxRegs} (ht : regs.type ≠ 0x21) (st : RxStream) :
    ∃ next, rxDirection v regs st = rxReadThen regs.len.toNat v { regs with rxs := .payload } st next := by
  rw [rxDirection, if_neg (show regs.type ≠ Config.DIR_ERR from ht)]
  exact ⟨_, rfl⟩

/-- Behind its payload the machine reads the checksum byte. -/
theorem rxDirection_crc (v : Version) {regs : RxRegs} (ht : regs.type ≠ 0x21) {data : Buf}
    (hl : data.length = regs.len.toNat) {as : List ReadAnswer} (hf : answeredInFull [data.length] as) (rest t : Buf) :
    ∃ next, rxDirection v regs ⟨data ++ rest, as, t⟩ =
      rxReadThen 1 v { regs with rxs := .crc, data := data } ⟨rest, answersLeft [data.length] as, t⟩ next := by
  rw [rxDirection, if_neg (show regs.type ≠ Config.DIR_ERR from ht), rxPayload]
  simp only [← hl]
  rw [rxReadThen_full hf data rest t rfl]
  exact ⟨_, rfl⟩

/-- The direction test, PAYLOAD and CRC on a stream that holds the payload and the checksum byte. -/
theorem rxDirection_full {as : List ReadAnswer} (v : Version) (regs : RxRegs) (data : Buf)
    (hf : answeredInFull [data.length, 1] as) (c : Byte) (rest t : Buf) (hl : data.length = regs.len.toNat)
    (ht : regs.type ≠ 0x21) : rxDirection v regs ⟨data ++ [c] ++ rest, as, t⟩ =
      .ended ⟨if c = rxExpected v { regs with data := data } then .deliver regs.code data else .fail .checksumError,
        v, [], { regs with rxs := .search, data := data, rxcrc := c },
        ⟨rest, answersLeft [data.length, 1] as, t⟩⟩ := by
  rw [show [data.length, 1] = [data.length] ++ [1] from rfl, answeredInFull_append] at hf
  rw [show [data.length, 1] = [data.length] ++ [1] from rfl, answersLeft_append]
  have h1 := rxReadThen_full (n := regs.len.toNat) (hl ▸ hf.1) data ([c] ++ rest) t hl v { regs with rxs := .payload }
    (fun r rest => rxCrc v { regs with rxs := .payload, data := r } rest)
  have h2 := rxReadThen_full hf.2 [c] rest t rfl v { regs with rxs := .crc, data := data }
    (fun r rest =>
      let regs := { regs with rxs := .crc, data := data, rxcrc := r.headD 0 }
      if regs.rxcrc = rxExpected v regs then rxStop (.deliver regs.code regs.data) v regs rest
      else rxStop (.fail .checksumError) v regs rest)
  unfold rxDirection
  rw [if_neg (show regs.type ≠ Config.DIR_ERR from ht)]
  unfold rxPayload
  rw [← hl] at h1
  simp only [List.append_assoc] at h1 ⊢
  rw [← hl]
  refine h1.trans (h2.trans ?_)
  have e : rxExpected v { regs with rxs := .crc, data := data, rxcrc := c } = rxExpected v { regs with data := data } := by
    cases v <;> rfl
  simp only [List.headD_cons, e]
  split <;> rfl

/-- A run that stands before a read (43_framer_rx.md R171) goes on as that read does. -/
theorem nextRead_run {v : Version} {g consumed : Buf} {reads : List Nat} {n : Nat} (hr : NextRead v g consumed reads n)
    (hg : 0x24 ∉ g) (regs : RxRegs) (rest t : Buf) {as : List ReadAnswer} (hf : answeredInFull reads as) :
    (∃ regs' next, rxMachine v regs ⟨consumed ++ rest, as, t⟩ =
      rxReadThen n v regs' ⟨rest, answersLeft reads as, t⟩ next) ∨
    (n = 1 ∧ rxMachine v regs ⟨consumed ++ rest, as, t⟩ = rxMachine v regs ⟨rest, answersLeft reads as, t⟩) := by
  cases hr with
  | search =>
    refine .inr ⟨rfl, ?_⟩
    unfold rxMachine
    simp only [rxScan_skip hg rest t hf]
  | variant =>
    left
    unfold rxMachine
    simp only [List.append_assoc, List.cons_append, List.nil_append, rxScan_full hg rest t hf]
    unfold rxVariant
    exact ⟨_, _, rfl⟩
  | header =>
    left
    rw [rxMachine_head v regs g hg hf]
    cases v <;> simp only [letter]
    · rw [if_pos (by simp)]; exact ⟨_, _, rfl⟩
    · rw [if_neg (by simp), if_pos (by simp)]; exact ⟨_, _, rfl⟩
  | payloadV1 typ len code hv ht =>
    subst hv
    rw [rxMachine_header1 regs hg hf]
    obtain ⟨next, h⟩ := rxDirection_payload .v1
      (regs := { regs with rxs := .hdr1, type := typ, len := zext16 len, code := zext16 code }) ht
      ⟨rest, answersLeft (preambleReads g.length ++ [3]) as, t⟩
    rw [h, zext16_toNat]
    exact .inl ⟨_, _, rfl⟩
  | payloadV2 typ flag codeLo codeHi lenLo lenHi hv ht =>
    subst hv
    rw [rxMachine_header2 regs hg hf]
    obtain ⟨next, h⟩ := rxDirection_payload .v2 (regs := { regs with
        rxs := .hdr2, type := typ, flag := flag, code := word16 codeLo codeHi, len := word16 lenLo lenHi }) ht
      ⟨rest, answersLeft (preambleReads g.length ++ [6]) as, t⟩
    rw [h, word16_toNat]
    exact .inl ⟨_, _, rfl⟩
  | crcV1 typ len code data hv ht hl =>
    subst hv
    rw [show preambleReads g.length ++ [3, data.length] = (preambleReads g.length ++ [3]) ++ [data.length] by simp] at hf ⊢
    rw [answeredInFull_append] at hf
    rw [List.append_assoc, rxMachine_header1 regs hg hf.1, answersLeft_append (preambleReads g.length ++ [3])]
    obtain ⟨next, h⟩ := rxDirection_crc .v1
      (regs := { regs with rxs := .hdr1, type := typ, len := zext16 len, code := zext16 code }) ht
      (by rw [zext16_toNat, hl]) hf.2 rest t
    exact .inl ⟨_, _, h⟩
  | crcV2 typ flag codeLo codeHi lenLo lenHi data hv ht hl =>
    subst hv
    rw [show preambleReads g.length ++ [6, data.length] = (preambleReads g.length ++ [6]) ++ [data.length] by simp] at hf ⊢
    rw [answeredInFull_append] at hf
    rw [List.append_assoc, rxMachine_header2 regs hg hf.1, answersLeft_append (preambleReads g.length ++ [6])]
    obtain ⟨next, h⟩ := rxDirection_crc .v2 (regs := { regs with
        rxs := .hdr2, type := typ, flag := flag, code := word16 codeLo codeHi, len := word16 lenLo lenHi }) ht
      (by rw [word16_toNat, hl]) hf.2 rest t
    exact .inl ⟨_, _, h⟩

/-- When that read is answered short, the bytes it gave are gone and the run ends with ShortRead. -/
theorem nextRead_gives {v : Version} {g consumed : Buf} {reads : List Nat} {n k : Nat}
    (hr : NextRead v g consumed reads n) (hg : 0x24 ∉ g) (regs : RxRegs) (rest t : Buf) {as as' : List ReadAnswer}
    (hf : answeredInFull reads as) (ha : answersLeft reads as = .gives k :: as') (hk : k < n) :
    ∃ regs', rxMachine v regs ⟨consumed ++ rest, as, t⟩ =
      .ended ⟨.fail .shortRead, v, [], regs', ⟨rest.drop k, as', t.rotate (k - rest.length)⟩⟩ := by
  rcases nextRead_run hr hg regs rest t hf with ⟨regs', next, h⟩ | ⟨rfl, h⟩
  · rw [h, ha]; exact ⟨_, rxReadThen_gives hk rest t as' v regs' next⟩
  · obtain rfl : k = 0 := by omega
    rw [h, ha]; unfold rxMachine; simp only [rxScan_gives_zero]; exact ⟨_, by simp [rxStop]; rfl⟩

/-- When that read is never answered, the run hangs. -/
theorem nextRead_never {v : Version} {g consumed : Buf} {reads : List Nat} {n : Nat}
    (hr : NextRead v g consumed reads n) (hg : 0x24 ∉ g) (regs : RxRegs) (rest t : Buf) {as as' : List ReadAnswer}
    (hf : answeredInFull reads as) (ha : answersLeft reads as = .never :: as') (hn : 0 < n) :
    rxMachine v regs ⟨consumed ++ rest, as, t⟩ = .hung .readNeverAnswers := by
  rcases nextRead_run hr hg regs rest t hf with ⟨regs', next, h⟩ | ⟨rfl, h⟩
  · rw [h, ha]; exact rxReadThen_never hn rest t as' v regs' next
  · rw [h, ha]; unfold rxMachine; simp only [rxScan_never]

/-- RECV when the run delivers. -/
theorem execRecv_deliver {s : State} (ho : s.portOpen = true) {c : Code} {d : Buf} {v : Version} {w : List Warning}
    {regs : RxRegs} {st : RxStream} (hd : s.params.holds d.length = true)
    (h : rxMachine s.ver s.rx s.rxStream = .ended ⟨.deliver c d, v, w, regs, st⟩) :
    execRecv s = .next { s with
      rxq := st.bytes, rxTail := st.tail, rxAnswers := st.answers, ver := v, warnlog := s.warnlog ++ w, rx := regs
      resLog := s.resLog ++ [.ok (.packet c d)] } := by
  simp only [execRecv, ho, h, if_true]
  rw [ret_eq (by exact hd)]
  simp [ho, State.afterRun]

/-- RECV when the run fails. -/
theorem execRecv_fail {s : State} (ho : s.portOpen = true) {k : ErrKind} {v : Version} {w : List Warning}
    {regs : RxRegs} {st : RxStream}
    (h : rxMachine s.ver s.rx s.rxStream = .ended ⟨.fail k, v, w, regs, st⟩) :
    execRecv s = .next { s with
      rxq := st.bytes, rxTail := st.tail, rxAnswers := st.answers, ver := v, warnlog := s.warnlog ++ w
      rx := rxRegsAfterFail k regs s.freeCount, freeCount := s.freeCount + 1
      resLog := s.resLog ++ [.err k] } := by
  simp only [execRecv, ho, h, if_true]
  simp [ho, raise, State.answer, State.afterRun]

/-- UNPACK when the run delivers. -/
theorem execUnpack_deliver {v : Version} {f : Buf} {c : Code} {d : Buf} {w : Version} {ws : List Warning}
    {regs : RxRegs} {st : RxStream} (s : State) (hd : s.params.holds d.length = true)
    (h : rxMachine v RxRegs.reset ⟨f, [], []⟩ = .ended ⟨.deliver c d, w, ws, regs, st⟩) :
    execUnpack v f s = .next { s with resLog := s.resLog ++ [.ok (.packet c d)] } := by
  simp only [execUnpack, h]; exact ret_eq hd

/-- UNPACK when the run fails. -/
theorem execUnpack_fail {v : Version} {f : Buf} {k : ErrKind} {w : Version} {ws : List Warning}
    {regs : RxRegs} {st : RxStream} (s : State)
    (h : rxMachine v RxRegs.reset ⟨f, [], []⟩ = .ended ⟨.fail k, w, ws, regs, st⟩) :
    execUnpack v f s = .next { s with resLog := s.resLog ++ [.err k] } := by
  simp only [execUnpack, h]; rfl

/-- What an ended run is: its stream is a later one, it stands in SEARCH, a payload it delivers came out of the listed
bytes or the endless part, and it either kept the version with no warning or, on a mismatch, flipped it with one. -/
structure RxEnd.Good (v : Version) (st : RxStream) (e : RxEnd) : Prop where
  later : st.Later e.stream
  idle : e.regs.rxs = .search
  kinds : (e.version = v ∧ e.warnings = [] ∧ ((∃ c d, e.outcome = .deliver c d) ∨
      ∃ k, e.outcome = .fail k ∧ (k = .shortRead ∨ k = .remoteError ∨ k = .checksumError))) ∨
    (e.version = v.other ∧ e.warnings = [.versionMismatch] ∧ e.outcome = .fail .versionMismatch)
  data : ∀ c d, e.outcome = .deliver c d → e.regs.data.length ≤ 65535
  payload : ∀ c d, e.outcome = .deliver c d → st.tail = [] → d.length ≤ st.bytes.length

/-- A run ends well, or hangs for one of the two reasons of 70 R248. -/
def RxRun.Good (v : Version) (st : RxStream) : RxRun → Prop
  | .hung why => (why = .readNeverAnswers ∧ .never ∈ st.answers) ∨
      (why = .searchNeverEnds ∧ st.tail ≠ [] ∧ 0x24 ∉ st.tail)
  | .ended e => e.Good v st

theorem RxRun.Good.mono {v : Version} {st st' : RxStream} (h : st.Later st') {r : RxRun} (hr : r.Good v st') :
    r.Good v st := by
  cases r with
  | hung why =>
    rcases hr with ⟨h1, h2⟩ | ⟨h1, h2, h3⟩
    · exact .inl ⟨h1, h.answers.subset h2⟩
    · refine .inr ⟨h1, fun ht => h2 ?_, fun ht => h3 (h.rotated.mem_iff.1 ht)⟩
      have := h.rotated; rw [ht] at this; simpa using this
  | ended e =>
    refine ⟨h.trans hr.later, hr.idle, hr.kinds, hr.data, fun c d ho ht => (hr.payload c d ho ?_).trans h.bytes.length_le⟩
    have := h.rotated; rw [ht] at this; simpa using this

theorem rxStop_fail_good (v : Version) (regs : RxRegs) (st : RxStream) {k : ErrKind}
    (hk : k = .shortRead ∨ k = .remoteError ∨ k = .checksumError) : (rxStop (.fail k) v regs st).Good v st :=
  ⟨.refl _, rfl, .inl ⟨rfl, rfl, .inr ⟨_, rfl, hk⟩⟩, fun _ _ h => by (cases h), fun _ _ h => by cases h⟩

/-- What a read of the machine can give. -/
theorem RxStream.read_good (st : RxStream) (n : Nat) :
    match st.read n with
    | .never => .never ∈ st.answers
    | .got b rest => b.length ≤ n ∧ st.Later rest ∧ (st.tail = [] → b.length ≤ st.bytes.length) := by
  cases n with
  | zero => simp only [RxStream.read]; exact ⟨Nat.le_refl _, .refl _, fun _ => Nat.zero_le _⟩
  | succ n =>
    rcases RxStream.read_spec st n with ⟨h, as, ha⟩ | ⟨m, as, hm, ha, -, h⟩
    · rw [h]; simp [ha]
    · rw [h]
      have hl := cycleTake_length_le (m - st.bytes.length) st.tail
      refine ⟨by simp; omega, ⟨List.drop_suffix _ _, ha ▸ List.tail_suffix _, ⟨_, rfl⟩, fun hd => ?_⟩, fun ht => ?_⟩
      · have : m < st.bytes.length := by
          by_contra hc; exact hd (List.drop_eq_nil_of_le (by omega))
        simp [Nat.sub_eq_zero_of_le (Nat.le_of_lt this)]
      · simp [ht]

theorem rxReadThen_good {n : Nat} {v : Version} {regs : RxRegs} {st : RxStream} {k : Buf → RxStream → RxRun}
    (h : ∀ b rest, b.length ≤ n → (st.tail = [] → b.length ≤ st.bytes.length) → st.Later rest →
      (k b rest).Good v st) : (rxReadThen n v regs st k).Good v st := by
  unfold rxReadThen
  have := st.read_good n
  revert this
  cases st.read n with
  | never => exact fun h => .inl ⟨rfl, h⟩
  | got b rest =>
    rintro ⟨h0, h1, h2⟩
    simp only
    split
    · exact (rxStop_fail_good _ _ _ (.inl rfl)).mono h1
    · exact h b rest h0 h2 h1

theorem rxDirection_good {v : Version} {regs : RxRegs} {st : RxStream} : (rxDirection v regs st).Good v st := by
  unfold rxDirection
  split
  · exact rxStop_fail_good _ _ _ (.inr (.inl rfl))
  · unfold rxPayload
    apply rxReadThen_good
    intro b rest hb hb2 hl
    have := regs.len.isLt
    unfold rxCrc
    have hg := rest.read_good 1
    unfold rxReadThen
    revert hg
    cases rest.read 1 with
    | never => exact fun hn => .inl ⟨rfl, hl.answers.subset hn⟩
    | got b' rest' =>
      rintro ⟨-, hl', -⟩
      simp only at hb ⊢
      split
      · exact (rxStop_fail_good _ _ _ (.inl rfl)).mono (hl.trans hl')
      · split
        · exact ⟨hl.trans hl', rfl, .inl ⟨rfl, rfl, .inl ⟨_, _, rfl⟩⟩, fun _ _ _ => by simp; omega,
            fun c d hd ht => by cases hd; exact hb2 ht⟩
        · exact (rxStop_fail_good _ _ _ (.inr (.inr rfl))).mono (hl.trans hl')

/-- Everything a run of the machine can do. -/
theorem rxMachine_good (v : Version) (regs : RxRegs) (st : RxStream) : (rxMachine v regs st).Good v st := by
  unfold rxMachine
  have := rxScan_spec st.tail st.bytes st.answers
  revert this
  simp only
  cases rxScan st.tail st.bytes st.answers with
  | hung why => exact id
  | short rest => exact fun h => (rxStop_fail_good _ _ _ (.inl rfl)).mono h
  | found rest =>
    intro h
    refine RxRun.Good.mono h ?_
    unfold rxVariant
    apply rxReadThen_good
    intro b rest' _ _ hl
    refine RxRun.Good.mono hl ?_
    split
    · unfold rxHdr1; apply rxReadThen_good; intro b rest _ _ hl; exact rxDirection_good.mono hl
    · split
      · unfold rxHdr2; apply rxReadThen_good; intro b rest _ _ hl; exact rxDirection_good.mono hl
      · exact ⟨.refl _, rfl, .inr ⟨rfl, rfl, rfl⟩, fun _ _ h => by (cases h), fun _ _ h => by cases h⟩

/-- On a finite stream with no answers listed, an operand buffer for one, a run always ends. -/
theorem rxMachine_nil_ended (v : Version) (regs : RxRegs) (b : Buf) : ∃ e, rxMachine v regs ⟨b, [], []⟩ = .ended e := by
  have h := rxMachine_good v regs ⟨b, [], []⟩
  cases hm : rxMachine v regs ⟨b, [], []⟩ with
  | hung why => rw [hm] at h; simp [RxRun.Good] at h
  | ended e => exact ⟨e, rfl⟩

end Sys2Proof.Machine
end

