-- ==== Sys2Proof/Laws/Float.lean ====
section
/-! SUPPORT. Laws/Float.lean: the rounding of the float operations: the numbers the magnitude fields of a format stand
for, in units of its least positive value, and that `roundShift` and `roundMag` give the nearest one, ties to even. -/

namespace Sys2Proof.Machine

open Sys2Proof.Safety

/-- The significand of the magnitude field `m` of a format with `P = 2^(p-1)`. -/
def magSig (P m : Nat) : Nat := if m / P = 0 then m else m % P + P

/-- The number of the magnitude field `m`, in units of the format's least positive value. -/
def magUnits (P m : Nat) : Nat := magSig P m * 2 ^ (m / P - 1)

/-- `j * P + sg` is the field of the number `sg * 2^j`. -/
theorem magSig_of {P j sg : Nat} (hP : 0 < P) (hj : j = 0 ∨ P ≤ sg) (hs : sg < 2 * P) :
    (j * P + sg) / P - 1 = j ∧ magSig P (j * P + sg) = sg := by
  unfold magSig
  rcases Nat.lt_or_ge sg P with h | h
  · obtain rfl : j = 0 := by omega
    simp [Nat.div_eq_of_lt h]
  · have e : (j * P + sg) / P = j + 1 := by
      rw [Nat.div_eq_iff hP]; constructor
      · rw [Nat.add_mul]; omega
      · rw [Nat.add_mul]; omega
    have e2 : (j * P + sg) % P = sg - P := by
      rw [show j * P + sg = (sg - P) + (j + 1) * P by rw [Nat.add_mul]; omega, Nat.add_mul_mod_self_right, Nat.mod_eq_of_lt (by omega)]
    rw [e, e2]; simp; omega

theorem magUnits_of {P j sg : Nat} (hP : 0 < P) (hj : j = 0 ∨ P ≤ sg) (hs : sg ≤ 2 * P) :
    magUnits P (j * P + sg) = sg * 2 ^ j := by
  rcases Nat.lt_or_eq_of_le hs with h | rfl
  · obtain ⟨h1, h2⟩ := magSig_of hP hj h
    rw [magUnits, h1, h2]
  · obtain ⟨h1, h2⟩ := magSig_of (P := P) (j := j + 1) (sg := P) hP (Or.inr (Nat.le_refl _)) (by omega)
    rw [show j * P + 2 * P = (j + 1) * P + P by ring, magUnits, h1, h2, pow_succ]; ring

theorem magSig_even {P j sg : Nat} (hP : 0 < P) (hj : j = 0 ∨ P ≤ sg) (hs : sg ≤ 2 * P) (hP2 : P % 2 = 0)
    (he : sg % 2 = 0) : magSig P (j * P + sg) % 2 = 0 := by
  rcases Nat.lt_or_eq_of_le hs with h | rfl
  · rw [(magSig_of hP hj h).2, he]
  · obtain ⟨h1, h2⟩ := magSig_of (P := P) (j := j + 1) (sg := P) hP (Or.inr (Nat.le_refl _)) (by omega)
    rw [show j * P + 2 * P = (j + 1) * P + P by ring, h2, hP2]

theorem mag_split {P : Nat} (hP : 0 < P) (m : Nat) :
    ∃ j sg, m = j * P + sg ∧ (j = 0 ∨ P ≤ sg) ∧ sg < 2 * P ∧ magUnits P m = sg * 2 ^ j ∧ magSig P m = sg := by
  have h := Nat.div_add_mod m P
  have hlt := Nat.mod_lt m hP
  rcases Nat.eq_zero_or_pos (m / P) with h0 | h0
  · have hm : m < P := by rw [h0] at h; omega
    refine ⟨0, m, by simp, Or.inl rfl, by omega, ?_, ?_⟩
    · simpa using magUnits_of (P := P) (j := 0) (sg := m) hP (Or.inl rfl) (by omega)
    · simpa using (magSig_of (P := P) (j := 0) (sg := m) hP (Or.inl rfl) (by omega)).2
  · obtain ⟨j, hj⟩ : ∃ j, m / P = j + 1 := ⟨m / P - 1, by omega⟩
    have e : m = j * P + (m % P + P) := by
      rw [hj, Nat.mul_add, Nat.mul_comm P j] at h; omega
    have := magUnits_of (P := P) (j := j) (sg := m % P + P) hP (Or.inr (by omega)) (by omega)
    have h2 := (magSig_of (P := P) (j := j) (sg := m % P + P) hP (Or.inr (by omega)) (by omega)).2
    rw [← e] at this h2
    exact ⟨j, m % P + P, e, Or.inr (by omega), by omega, this, h2⟩

theorem magUnits_succ {P : Nat} (hP : 0 < P) (m : Nat) : magUnits P (m + 1) = magUnits P m + 2 ^ (m / P - 1) := by
  obtain ⟨j, sg, hm, hj, hs, hu, -⟩ := mag_split hP m
  have e : m / P - 1 = j := by rw [hm]; exact (magSig_of hP hj hs).1
  have := magUnits_of (P := P) (j := j) (sg := sg + 1) hP (by omega) (by omega)
  rw [e, hu, hm, show j * P + sg + 1 = j * P + (sg + 1) by ring, this]; ring

theorem magUnits_strictMono {P : Nat} (hP : 0 < P) : StrictMono (magUnits P) :=
  strictMono_nat_of_lt_succ fun m => by rw [magUnits_succ hP]; exact Nat.lt_add_of_pos_right (Nat.two_pow_pos _)

theorem magUnits_shape {P : Nat} (hP : 0 < P) (m j : Nat) :
    (0 < j ∧ magUnits P m < P * 2 ^ j) ∨ ∃ c, magUnits P m = c * 2 ^ j := by
  obtain ⟨i, sg, hm, hi, hs, hu, -⟩ := mag_split hP m
  rcases Nat.lt_or_ge i j with h | h
  · left
    refine ⟨by omega, ?_⟩
    rw [hu]
    calc sg * 2 ^ i < 2 * P * 2 ^ i := by apply Nat.mul_lt_mul_of_pos_right hs; positivity
      _ = P * 2 ^ (i + 1) := by ring
      _ ≤ P * 2 ^ j := by apply Nat.mul_le_mul_left; exact Nat.pow_le_pow_right (by omega) h
  · right
    refine ⟨sg * 2 ^ (i - j), ?_⟩
    rw [hu, mul_assoc, ← pow_add, Nat.sub_add_cancel h]

/-- `roundShift` is the nearest integer, ties to even. -/
theorem roundShift_spec (m d c : Nat) :
    |((FloatFormat.roundShift m d : ℤ) * 2 ^ d - m)| ≤ |((c : ℤ) * 2 ^ d - m)| ∧
    (|((FloatFormat.roundShift m d : ℤ) * 2 ^ d - m)| = |((c : ℤ) * 2 ^ d - m)| → c ≠ FloatFormat.roundShift m d →
      FloatFormat.roundShift m d % 2 = 0) := by
  have h := Nat.div_add_mod m (2 ^ d)
  have hlt := Nat.mod_lt m (Nat.two_pow_pos d)
  unfold FloatFormat.roundShift
  simp only
  generalize m / 2 ^ d = q at *
  generalize m % 2 ^ d = r at *
  have hD : ((2 : ℤ) ^ d) = ((2 ^ d : ℕ) : ℤ) := by push_cast; rfl
  rw [hD]
  generalize 2 ^ d = D at *
  subst h
  rcases Nat.lt_trichotomy c q with hc | rfl | hc
  · obtain ⟨e, rfl⟩ := Nat.exists_eq_add_of_lt hc
    split
    · rename_i hh
      rw [show (((c + e + 1 + 1 : ℕ) : ℤ) * (D : ℤ) - ((D * (c + e + 1) + r : ℕ) : ℤ)) = (D : ℤ) - r by push_cast; ring]
      rw [show ((c : ℤ) * (D : ℤ) - ((D * (c + e + 1) + r : ℕ) : ℤ)) = -(((D * e : ℕ) : ℤ) + D + r) by push_cast; ring]
      rw [abs_neg, abs_of_nonneg (by omega), abs_of_nonneg (by positivity)]
      constructor
      · omega
      · intro h1; omega
    · rename_i hh
      rw [show (((c + e + 1 : ℕ) : ℤ) * (D : ℤ) - ((D * (c + e + 1) + r : ℕ) : ℤ)) = -(r : ℤ) by push_cast; ring]
      rw [show ((c : ℤ) * (D : ℤ) - ((D * (c + e + 1) + r : ℕ) : ℤ)) = -(((D * e : ℕ) : ℤ) + D + r) by push_cast; ring]
      rw [abs_neg, abs_neg, abs_of_nonneg (by omega), abs_of_nonneg (by positivity)]
      constructor
      · omega
      · intro h1; omega
  · split
    · rename_i hh
      rw [show (((c + 1 : ℕ) : ℤ) * (D : ℤ) - ((D * c + r : ℕ) : ℤ)) = (D : ℤ) - r by push_cast; ring]
      rw [show ((c : ℤ) * (D : ℤ) - ((D * c + r : ℕ) : ℤ)) = -(r : ℤ) by push_cast; ring]
      rw [abs_neg, abs_of_nonneg (by omega), abs_of_nonneg (by omega)]
      constructor
      · omega
      · intro h1; omega
    · exact ⟨le_refl _, fun _ h => absurd rfl h⟩
  · obtain ⟨e, rfl⟩ := Nat.exists_eq_add_of_lt hc
    split
    · rename_i hh
      rw [show (((q + 1 : ℕ) : ℤ) * (D : ℤ) - ((D * q + r : ℕ) : ℤ)) = (D : ℤ) - r by push_cast; ring]
      rw [show (((q + e + 1 : ℕ) : ℤ) * (D : ℤ) - ((D * q + r : ℕ) : ℤ)) = ((D * e : ℕ) : ℤ) + (D - r) by push_cast; ring]
      have hp : (0:ℤ) ≤ ((D * e : ℕ) : ℤ) := by positivity
      rw [abs_of_nonneg (by omega), abs_of_nonneg (by omega)]
      constructor
      · omega
      · intro h1 h2
        have h3 : D * e = 0 := by omega
        rcases Nat.mul_eq_zero.1 h3 with h4 | h4
        · omega
        · omega
    · rename_i hh
      rw [show ((q : ℤ) * (D : ℤ) - ((D * q + r : ℕ) : ℤ)) = -(r : ℤ) by push_cast; ring]
      rw [show (((q + e + 1 : ℕ) : ℤ) * (D : ℤ) - ((D * q + r : ℕ) : ℤ)) = ((D * e : ℕ) : ℤ) + (D - r) by push_cast; ring]
      have : (0:ℤ) ≤ ((D * e : ℕ) : ℤ) := by positivity
      rw [abs_neg, abs_of_nonneg (by omega), abs_of_nonneg (by omega)]
      constructor
      · omega
      · intro h1 h2
        rw [not_or] at hh
        by_cases hq : q % 2 = 0
        · exact hq
        · exfalso; apply hh.2; constructor <;> omega

theorem roundShift_bounds (m d : Nat) :
    m / 2 ^ d ≤ FloatFormat.roundShift m d ∧ FloatFormat.roundShift m d ≤ m / 2 ^ d + 1 := by
  unfold FloatFormat.roundShift
  simp only
  split <;> omega

/-- What `roundMag` computes before the clamp at infinity. -/
theorem roundMag_cases (f : FloatFormat) (hp : 1 ≤ f.p) (m k : Nat) (hm : m ≠ 0) :
    ∃ j sg : ℕ, f.roundMag m k = min (j * 2 ^ (f.p - 1) + sg) f.infMag ∧
      (j = 0 ∨ 2 ^ (f.p - 1) ≤ sg) ∧ sg ≤ 2 * 2 ^ (f.p - 1) ∧
      (0 < j → (2 : ℚ) ^ (f.p - 1) * 2 ^ j ≤ m * 2 ^ k / 2 ^ f.Q) ∧
      (∀ c : ℕ, |(sg : ℚ) * 2 ^ j - m * 2 ^ k / 2 ^ f.Q| ≤ |(c : ℚ) * 2 ^ j - m * 2 ^ k / 2 ^ f.Q| ∧
        (|(sg : ℚ) * 2 ^ j - m * 2 ^ k / 2 ^ f.Q| = |(c : ℚ) * 2 ^ j - m * 2 ^ k / 2 ^ f.Q| → c ≠ sg → sg % 2 = 0)) := by
  have h1 : 2 ^ Nat.log2 m ≤ m := Nat.log2_self_le hm
  have h2 : m < 2 ^ (Nat.log2 m + 1) := Nat.lt_log2_self
  unfold FloatFormat.roundMag
  rw [if_neg hm]
  generalize f.Q = Q
  generalize hL : Nat.log2 m = L at *
  obtain ⟨p, hp'⟩ : ∃ p, f.p = p + 1 := ⟨f.p - 1, by omega⟩
  simp only [hp', Nat.add_sub_cancel]
  generalize hj : L + k - (p + Q) = j
  by_cases hc : j + Q ≤ k
  · -- exact
    refine ⟨j, m * 2 ^ (k - (j + Q)), by simp only [if_pos hc], ?_, ?_, ?_, ?_⟩
    · rcases Nat.eq_zero_or_pos j with h0 | h0
      · exact Or.inl h0
      · right
        have : p = L + (k - (j + Q)) := by omega
        rw [this, pow_add]; exact Nat.mul_le_mul_right _ h1
    · rw [← pow_succ']
      calc m * 2 ^ (k - (j + Q)) ≤ 2 ^ (L + 1) * 2 ^ (k - (j + Q)) := Nat.mul_le_mul_right _ h2.le
        _ = 2 ^ (L + 1 + (k - (j + Q))) := (pow_add _ _ _).symm
        _ ≤ 2 ^ (p + 1) := Nat.pow_le_pow_right (by omega) (by omega)
    · intro h0
      rw [le_div_iff₀ (by positivity)]
      have : (2 ^ L : ℚ) ≤ m := by exact_mod_cast h1
      calc (2 : ℚ) ^ p * 2 ^ j * 2 ^ Q = 2 ^ (p + j + Q) := by rw [pow_add, pow_add]
        _ = 2 ^ L * 2 ^ k := by rw [← pow_add]; congr 1; omega
        _ ≤ m * 2 ^ k := by apply mul_le_mul_of_nonneg_right this; positivity
    · intro c
      have e : ((m * 2 ^ (k - (j + Q)) : ℕ) : ℚ) * 2 ^ j - m * 2 ^ k / 2 ^ Q = 0 := by
        rw [sub_eq_zero, eq_div_iff (by positivity)]
        push_cast
        rw [mul_assoc, mul_assoc, ← pow_add, ← pow_add]
        congr 2; omega
      rw [e, abs_zero]
      refine ⟨abs_nonneg _, fun h hne => ?_⟩
      exfalso; apply hne
      have h3 := abs_eq_zero.1 h.symm
      have h4 : (c : ℚ) * 2 ^ j = ((m * 2 ^ (k - (j + Q)) : ℕ) : ℚ) * 2 ^ j := by linarith
      have h5 := mul_right_cancel₀ (by positivity) h4
      exact_mod_cast h5
  · -- rounded
    set d := j + Q - k with hd
    have hb := roundShift_bounds m d
    refine ⟨j, FloatFormat.roundShift m d, by simp only [if_neg hc, hd], ?_, ?_, ?_, ?_⟩
    · rcases Nat.eq_zero_or_pos j with h0 | h0
      · exact Or.inl h0
      · right
        refine le_trans ?_ hb.1
        rw [Nat.le_div_iff_mul_le (Nat.two_pow_pos _), ← pow_add]
        refine le_trans (Nat.pow_le_pow_right (by omega) ?_) h1
        omega
    · refine le_trans hb.2 ?_
      have : m / 2 ^ d < 2 * 2 ^ p := by
        rw [Nat.div_lt_iff_lt_mul (Nat.two_pow_pos _), ← pow_succ', ← pow_add]
        refine lt_of_lt_of_le h2 (Nat.pow_le_pow_right (by omega) ?_)
        omega
      omega
    · intro h0
      rw [le_div_iff₀ (by positivity)]
      have : (2 ^ L : ℚ) ≤ m := by exact_mod_cast h1
      calc (2 : ℚ) ^ p * 2 ^ j * 2 ^ Q = 2 ^ (p + j + Q) := by rw [pow_add, pow_add]
        _ = 2 ^ L * 2 ^ k := by rw [← pow_add]; congr 1; omega
        _ ≤ m * 2 ^ k := by apply mul_le_mul_of_nonneg_right this; positivity
    · intro c
      have key : ∀ a : ℕ, (a : ℚ) * 2 ^ j - m * 2 ^ k / 2 ^ Q = (((a : ℤ) * 2 ^ d - m : ℤ) : ℚ) * (2 ^ k / 2 ^ Q) := by
        intro a
        push_cast
        rw [sub_mul, mul_div_assoc]
        congr 1
        rw [mul_assoc]; congr 1
        rw [← mul_div_assoc, eq_div_iff (by positivity), ← pow_add, ← pow_add]
        congr 1; omega
      obtain ⟨s1, s2⟩ := roundShift_spec m d c
      have hpos : (0 : ℚ) < |(2 ^ k / 2 ^ Q : ℚ)| := by rw [abs_pos]; positivity
      rw [key, key, abs_mul, abs_mul]
      constructor
      · apply mul_le_mul_of_nonneg_right _ hpos.le
        exact_mod_cast s1
      · intro h hne
        have h3 := mul_right_cancel₀ hpos.ne' h
        exact s2 (by exact_mod_cast h3) hne

/-- `R` is a magnitude nearest to `x`, ties to even, among all magnitudes. -/
theorem roundMag_nearest (f : FloatFormat) (hp : 2 ≤ f.p) (m k : Nat) :
    ∃ R : ℕ, f.roundMag m k = min R f.infMag ∧ ∀ y : ℕ,
      |(magUnits (2 ^ (f.p - 1)) R : ℚ) - m * 2 ^ k / 2 ^ f.Q| ≤ |(magUnits (2 ^ (f.p - 1)) y : ℚ) - m * 2 ^ k / 2 ^ f.Q| ∧
      (|(magUnits (2 ^ (f.p - 1)) R : ℚ) - m * 2 ^ k / 2 ^ f.Q| = |(magUnits (2 ^ (f.p - 1)) y : ℚ) - m * 2 ^ k / 2 ^ f.Q| →
        y ≠ R → magSig (2 ^ (f.p - 1)) R % 2 = 0) := by
  have hP : 0 < 2 ^ (f.p - 1) := Nat.two_pow_pos _
  have hP2 : 2 ^ (f.p - 1) % 2 = 0 := by
    obtain ⟨q, hq⟩ : ∃ q, f.p - 1 = q + 1 := ⟨f.p - 2, by omega⟩
    rw [hq, pow_succ]; omega
  rcases Nat.eq_zero_or_pos m with rfl | hm
  · refine ⟨0, by simp [FloatFormat.roundMag], fun y => ?_⟩
    have h0 : magUnits (2 ^ (f.p - 1)) 0 = 0 := by simp [magUnits, magSig]
    have h1 : magSig (2 ^ (f.p - 1)) 0 = 0 := by simp [magSig]
    simp only [h0, h1]
    simp
  · obtain ⟨j, sg, e1, e2, e3, e4, e5⟩ := roundMag_cases f (by omega) m k (by omega)
    have hu := magUnits_of hP e2 e3
    refine ⟨_, e1, fun y => ?_⟩
    rw [hu]
    generalize hx : (m * 2 ^ k / 2 ^ f.Q : ℚ) = x at *
    have hxp : (0 : ℚ) ≤ x := by rw [← hx]; positivity
    rcases magUnits_shape hP y j with ⟨h0, h1⟩ | ⟨c, hc⟩
    · have h4 := e4 h0
      have h5 := (e5 (2 ^ (f.p - 1))).1
      have h1' : (magUnits (2 ^ (f.p - 1)) y : ℚ) < 2 ^ (f.p - 1) * 2 ^ j := by exact_mod_cast h1
      have h6 : |((2 ^ (f.p - 1) : ℕ) : ℚ) * 2 ^ j - x| < |(magUnits (2 ^ (f.p - 1)) y : ℚ) - x| := by
        push_cast
        rw [abs_of_nonpos (by linarith), abs_of_nonpos (by linarith)]; linarith
      push_cast
      have h7 := lt_of_le_of_lt h5 h6
      exact ⟨h7.le, fun h => absurd h h7.ne⟩
    · rw [hc]
      obtain ⟨a1, a2⟩ := e5 c
      push_cast
      refine ⟨a1, fun h hne => ?_⟩
      apply magSig_even hP e2 e3 hP2
      apply a2 h
      rintro rfl
      apply hne
      exact (magUnits_strictMono hP).injective (by rw [hc, hu])

theorem sig_mul_step (f : FloatFormat) (x : Nat) :
    f.sig x * 2 ^ f.step x = magUnits (2 ^ (f.p - 1)) (f.mag x) := rfl

theorem toRat_eq (f : FloatFormat) (x : Nat) :
    toRat f x = (if f.neg x then -1 else 1) * (magUnits (2 ^ (f.p - 1)) (f.mag x) : ℚ) / 2 ^ f.Q := by
  rw [← sig_mul_step]; unfold toRat; push_cast; ring

theorem infMag_lt (f : FloatFormat) (hp : 1 ≤ f.p) : f.infMag < f.signWeight := by
  unfold FloatFormat.infMag FloatFormat.signWeight
  rw [show f.w + f.p - 1 = f.w + (f.p - 1) by omega, pow_add]
  apply Nat.mul_lt_mul_of_pos_right _ (Nat.two_pow_pos _)
  have := Nat.two_pow_pos f.w; omega

theorem signed_mag (f : FloatFormat) (s : Bool) {m : Nat} (h : m < f.signWeight) : f.mag (f.signed s m) = m := by
  cases s <;> simp [FloatFormat.mag, FloatFormat.signed, Nat.mod_eq_of_lt h]

theorem signed_neg (f : FloatFormat) (s : Bool) {m : Nat} (h : m < f.signWeight) : f.neg (f.signed s m) = s := by
  cases s <;> simp [FloatFormat.neg, FloatFormat.signed, h]

theorem signed_lt (f : FloatFormat) (s : Bool) {m : Nat} (h : m < f.signWeight) : f.signed s m < 2 * f.signWeight := by
  cases s <;> simp [FloatFormat.signed] <;> omega

end Sys2Proof.Machine
end

