-- ==== Sys2Proof/Laws/PerInstr.lean ====
section
/-! SUPPORT. Laws/PerInstr.lean: statements made per constructor of `Instr`. -/

namespace Sys2Proof.Laws

/-- Decoding the command a host presents for an operation gives the operation back, operands and all. -/
def RoundTrip.Statement (i : Instr) : Prop := i.wellFormed = true → decode (encode i) = .instr i

namespace RoundTrip

theorem decodeIntU8 (buf : Buf) (offset : Nat) : Statement (.decodeIntU8 buf offset) := fun _ => rfl
theorem decodeIntI8 (buf : Buf) (offset : Nat) : Statement (.decodeIntI8 buf offset) := fun _ => rfl
theorem decodeIntU16 (buf : Buf) (offset : Nat) : Statement (.decodeIntU16 buf offset) := fun _ => rfl
theorem decodeIntI16 (buf : Buf) (offset : Nat) : Statement (.decodeIntI16 buf offset) := fun _ => rfl
theorem decodeIntU32 (buf : Buf) (offset : Nat) : Statement (.decodeIntU32 buf offset) := fun _ => rfl
theorem decodeIntI32 (buf : Buf) (offset : Nat) : Statement (.decodeIntI32 buf offset) := fun _ => rfl
theorem decodeIntU64 (buf : Buf) (offset : Nat) : Statement (.decodeIntU64 buf offset) := fun _ => rfl
theorem decodeIntI64 (buf : Buf) (offset : Nat) : Statement (.decodeIntI64 buf offset) := fun _ => rfl
theorem encodeIntU8 (value : Int) (outBuf : Buf) : Statement (.encodeIntU8 value outBuf) := fun h => if_pos h
theorem encodeIntI8 (value : Int) (outBuf : Buf) : Statement (.encodeIntI8 value outBuf) := fun h => if_pos h
theorem encodeIntU16 (value : Int) (outBuf : Buf) : Statement (.encodeIntU16 value outBuf) := fun h => if_pos h
theorem encodeIntI16 (value : Int) (outBuf : Buf) : Statement (.encodeIntI16 value outBuf) := fun h => if_pos h
theorem encodeIntU32 (value : Int) (outBuf : Buf) : Statement (.encodeIntU32 value outBuf) := fun h => if_pos h
theorem encodeIntI32 (value : Int) (outBuf : Buf) : Statement (.encodeIntI32 value outBuf) := fun h => if_pos h
theorem encodeIntU64 (value : Int) (outBuf : Buf) : Statement (.encodeIntU64 value outBuf) := fun h => if_pos h
theorem encodeIntI64 (value : Int) (outBuf : Buf) : Statement (.encodeIntI64 value outBuf) := fun h => if_pos h
theorem decodeFloatU8F32 (buf : Buf) (offset : Nat) (scale : F32) :
    Statement (.decodeFloatU8F32 buf offset scale) := fun _ => rfl
theorem decodeFloatI8F32 (buf : Buf) (offset : Nat) (scale : F32) :
    Statement (.decodeFloatI8F32 buf offset scale) := fun _ => rfl
theorem decodeFloatU16F32 (buf : Buf) (offset : Nat) (scale : F32) :
    Statement (.decodeFloatU16F32 buf offset scale) := fun _ => rfl
theorem decodeFloatI16F32 (buf : Buf) (offset : Nat) (scale : F32) :
    Statement (.decodeFloatI16F32 buf offset scale) := fun _ => rfl
theorem decodeFloatU32F32 (buf : Buf) (offset : Nat) (scale : F32) :
    Statement (.decodeFloatU32F32 buf offset scale) := fun _ => rfl
theorem decodeFloatI32F32 (buf : Buf) (offset : Nat) (scale : F32) :
    Statement (.decodeFloatI32F32 buf offset scale) := fun _ => rfl
theorem decodeFloatU64F32 (buf : Buf) (offset : Nat) (scale : F32) :
    Statement (.decodeFloatU64F32 buf offset scale) := fun _ => rfl
theorem decodeFloatI64F32 (buf : Buf) (offset : Nat) (scale : F32) :
    Statement (.decodeFloatI64F32 buf offset scale) := fun _ => rfl
theorem decodeFloatU8F64 (buf : Buf) (offset : Nat) (scale : F64) :
    Statement (.decodeFloatU8F64 buf offset scale) := fun _ => rfl
theorem decodeFloatI8F64 (buf : Buf) (offset : Nat) (scale : F64) :
    Statement (.decodeFloatI8F64 buf offset scale) := fun _ => rfl
theorem decodeFloatU16F64 (buf : Buf) (offset : Nat) (scale : F64) :
    Statement (.decodeFloatU16F64 buf offset scale) := fun _ => rfl
theorem decodeFloatI16F64 (buf : Buf) (offset : Nat) (scale : F64) :
    Statement (.decodeFloatI16F64 buf offset scale) := fun _ => rfl
theorem decodeFloatU32F64 (buf : Buf) (offset : Nat) (scale : F64) :
    Statement (.decodeFloatU32F64 buf offset scale) := fun _ => rfl
theorem decodeFloatI32F64 (buf : Buf) (offset : Nat) (scale : F64) :
    Statement (.decodeFloatI32F64 buf offset scale) := fun _ => rfl
theorem decodeFloatU64F64 (buf : Buf) (offset : Nat) (scale : F64) :
    Statement (.decodeFloatU64F64 buf offset scale) := fun _ => rfl
theorem decodeFloatI64F64 (buf : Buf) (offset : Nat) (scale : F64) :
    Statement (.decodeFloatI64F64 buf offset scale) := fun _ => rfl
theorem xor8Buf (buf : Buf) : Statement (.xor8Buf buf) := fun _ => rfl
theorem crc8Buf (buf : Buf) : Statement (.crc8Buf buf) := fun _ => rfl
theorem crcClr : Statement .crcClr := fun _ => rfl
theorem crcUpd (byte : Byte) : Statement (.crcUpd byte) := fun _ => rfl
theorem crcRd : Statement .crcRd := fun _ => rfl
theorem pack (version : Version) (code : Code) (data : Buf) : Statement (.pack version code data) := fun _ => rfl
theorem send (code : Code) (data : Buf) : Statement (.send code data) := fun _ => rfl
theorem unpack (version : Version) (frame : Buf) : Statement (.unpack version frame) := fun _ => rfl
theorem recv : Statement .recv := fun _ => rfl
theorem setVer (version : Version) : Statement (.setVer version) := fun _ => rfl
theorem getVer : Statement .getVer := fun _ => rfl
theorem getMaxp : Statement .getMaxp := fun _ => rfl
theorem flush : Statement .flush := fun _ => rfl

end RoundTrip

end Sys2Proof.Laws
end

