-- ==== Sys2Proof/Tests/Slice0.lean ====
section
/-! SUPPORT. Tests/Slice0.lean: our own tests. Expected values come from spec/95_test_vectors.md and from the examples
in the rules named; opcode words are written out from spec/30_encoding.md R72 and R73. The last part gives, for every
statement with hypotheses, a concrete state and operands that meet them. -/

namespace Sys2Proof.Tests

open Sys2Proof Sys2Proof.Machine Sys2Proof.Safety

/-- The last result on RES. -/
def res : Outcome → Option Result
  | .next t => t.resLog.getLast?
  | _ => none

/-- Some reading of the next state. -/
def after {α : Type} (f : State → α) : Outcome → Option α
  | .next t => some (f t)
  | _ => none

/-- A small state: version, RXQ. -/
def rxState (v : Version) (rxq : Buf) : State := { State.resetWith v with rxq := rxq }

/-- The same with answers listed. -/
def rxAnswered (v : Version) (rxq : Buf) (answers : List ReadAnswer) : State :=
  { rxState v rxq with rxAnswers := answers }

/-- The state after reset at parameters of its own. -/
def withParams (P : Params) : State := { State.reset with params := P }

/-- S3's payload, 95 section 1.3. -/
def rc : Buf := [0xDC, 0x05, 0xDC, 0x05, 0xDC, 0x05, 0xE8, 0x03]

/-- S2's frame, 95 section 1.2. -/
def s2 : Buf := [0x24, 0x58, 0x3E, 0x00, 0x6D, 0x00, 0x06, 0x00, 0xE8, 0x03, 0x00, 0x00, 0x00, 0x00, 0x76]

/-! ### Decoding: the opcode words bit by bit (30 R72, R73) -/

theorem test_decode_ints : [0b00010000, 0b00010001, 0b00010010, 0b00010011, 0b00010100, 0b00010101, 0b00010110,
    0b00010111].map (decodeTableWord 8) =
    [some (.decodeIntU8 [] 0), some (.decodeIntI8 [] 0), some (.decodeIntU16 [] 0), some (.decodeIntI16 [] 0),
     some (.decodeIntU32 [] 0), some (.decodeIntI32 [] 0), some (.decodeIntU64 [] 0),
     some (.decodeIntI64 [] 0)] := by decide

theorem test_encode_ints : [0b00100000, 0b00100001, 0b00100010, 0b00100011, 0b00100100, 0b00100101, 0b00100110,
    0b00100111].map (decodeTableWord 8) =
    [some (.encodeIntU8 0 []), some (.encodeIntI8 0 []), some (.encodeIntU16 0 []), some (.encodeIntI16 0 []),
     some (.encodeIntU32 0 []), some (.encodeIntI32 0 []), some (.encodeIntU64 0 []),
     some (.encodeIntI64 0 [])] := by decide

theorem test_decode_floats32 : [0b00110000, 0b00110001, 0b00110010, 0b00110011, 0b00110100, 0b00110101, 0b00110110,
    0b00110111].map (decodeTableWord 8) =
    [some (.decodeFloatU8F32 [] 0 0), some (.decodeFloatI8F32 [] 0 0), some (.decodeFloatU16F32 [] 0 0),
     some (.decodeFloatI16F32 [] 0 0), some (.decodeFloatU32F32 [] 0 0), some (.decodeFloatI32F32 [] 0 0),
     some (.decodeFloatU64F32 [] 0 0), some (.decodeFloatI64F32 [] 0 0)] := by decide

theorem test_decode_floats64 : [0b00111000, 0b00111001, 0b00111010, 0b00111011, 0b00111100, 0b00111101, 0b00111110,
    0b00111111].map (decodeTableWord 8) =
    [some (.decodeFloatU8F64 [] 0 0), some (.decodeFloatI8F64 [] 0 0), some (.decodeFloatU16F64 [] 0 0),
     some (.decodeFloatI16F64 [] 0 0), some (.decodeFloatU32F64 [] 0 0), some (.decodeFloatI32F64 [] 0 0),
     some (.decodeFloatU64F64 [] 0 0), some (.decodeFloatI64F64 [] 0 0)] := by decide

theorem test_decode_others : [0b01000000, 0b01000001, 0b01000010, 0b01000011, 0b01000100, 0b01010000, 0b01010001,
    0b01100000, 0b01100001, 0b01110000, 0b01110001, 0b01110010, 0b01110011].map (decodeTableWord 8) =
    [some (.xor8Buf []), some (.crc8Buf []), some .crcClr, some (.crcUpd 0), some .crcRd, some (.pack .v1 0 []),
     some (.send 0 []), some (.unpack .v1 []), some .recv, some (.setVer .v1), some .getVer, some .getMaxp,
     some .flush] := by decide

/-- Operands are read into their places (30 R73). -/
theorem test_decode_operands :
    decode ⟨0x3D, [.buf [0xE8, 0x03], .offset 1, .f64 0x3F847AE147AE147B]⟩ =
      .instr (.decodeFloatI32F64 [0xE8, 0x03] 1 0x3F847AE147AE147B) ∧
    decode ⟨0x50, [.version .v2, .code 0x1234, .buf [0xAA]]⟩ = .instr (.pack .v2 0x1234 [0xAA]) ∧
    decode ⟨0x23, [.int (-2), .buf [0x08]]⟩ = .instr (.encodeIntI16 (-2) [0x08]) := by decide

/-- The bytes next to the table's rows are illegal (30 R74). -/
theorem test_decode_illegal : [0x00, 0x0F, 0x18, 0x1F, 0x28, 0x2F, 0x45, 0x4F, 0x52, 0x5F, 0x62, 0x6F, 0x74,
    0xFF].map (fun w => decode ⟨w, []⟩) = List.replicate 14 (.error .illegalOpcode) := by decide

/-- Commands no host can present are refused by name (30 R71, 40 R109). -/
theorem test_decode_ill_typed :
    decode ⟨0x10, [.buf []]⟩ = .error .operandTypes ∧ decode ⟨0x61, [.byte 0]⟩ = .error .operandTypes ∧
    decode ⟨0x30, [.buf [], .offset 0, .f64 0]⟩ = .error .operandTypes ∧
    decode ⟨0x20, [.int 256, .buf []]⟩ = .error .valueRange := by decide

/-! ### WellFormed: one ill-formed term for each check, beside the last well-formed ones (00 R10) -/

theorem test_wellFormed_bounds :
    Instr.wellFormed (.encodeIntU8 256 []) = false ∧ Instr.wellFormed (.encodeIntU8 (-1) []) = false ∧
    Instr.wellFormed (.encodeIntU8 255 []) = true ∧
    Instr.wellFormed (.encodeIntI8 128 []) = false ∧ Instr.wellFormed (.encodeIntI8 (-129) []) = false ∧
    Instr.wellFormed (.encodeIntI8 (-128) []) = true ∧
    Instr.wellFormed (.encodeIntU16 65536 []) = false ∧ Instr.wellFormed (.encodeIntU16 65535 []) = true ∧
    Instr.wellFormed (.encodeIntI16 32768 []) = false ∧ Instr.wellFormed (.encodeIntI16 (-32768) []) = true ∧
    Instr.wellFormed (.encodeIntU32 4294967296 []) = false ∧ Instr.wellFormed (.encodeIntU32 4294967295 []) = true ∧
    Instr.wellFormed (.encodeIntI32 2147483648 []) = false ∧
    Instr.wellFormed (.encodeIntI32 (-2147483648) []) = true := by decide

theorem test_wellFormed_bounds64 :
    Instr.wellFormed (.encodeIntU64 18446744073709551616 []) = false ∧
    Instr.wellFormed (.encodeIntU64 18446744073709551615 []) = true ∧
    Instr.wellFormed (.encodeIntI64 9223372036854775808 []) = false ∧
    Instr.wellFormed (.encodeIntI64 (-9223372036854775808) []) = true := by decide

/-- An ill-formed operation is refused by the machine too. -/
theorem test_exec_refuses_out_of_range :
    exec (.encodeIntU8 256 []) State.reset = .refused .valueOutOfRange := rfl

/-! ### The codec (95 sections 2.1, 2.2, 2.3) -/

theorem test_decodeIntU8 : res (exec (.decodeIntU8 [0x12, 0xFF, 0x80] 1) State.reset) = some (.ok (.int 255)) ∧
    res (exec (.decodeIntU8 [0x12, 0xFF, 0x80] 3) State.reset) = some (.err .shortBuffer) := by decide

theorem test_decodeIntI8 : res (exec (.decodeIntI8 [0x12, 0xFF, 0x80] 2) State.reset) = some (.ok (.int (-128))) ∧
    res (exec (.decodeIntI8 [0x7F] 0) State.reset) = some (.ok (.int 127)) := by decide

theorem test_decodeIntU16 : res (exec (.decodeIntU16 [0xAA, 0xDC, 0x05] 1) State.reset) = some (.ok (.int 1500)) ∧
    res (exec (.decodeIntU16 [0xAA, 0xDC, 0x05] 7) State.reset) = some (.err .shortBuffer) := by decide

theorem test_decodeIntI16 : res (exec (.decodeIntI16 [0x00, 0x80] 0) State.reset) = some (.ok (.int (-32768))) ∧
    res (exec (.decodeIntI16 [0x00, 0x01] 0) State.reset) = some (.ok (.int 256)) := by decide

theorem test_decodeIntU32 :
    res (exec (.decodeIntU32 [0x78, 0x56, 0x34, 0x12] 0) State.reset) = some (.ok (.int 305419896)) := by decide

theorem test_decodeIntI32 :
    res (exec (.decodeIntI32 [0x18, 0xFC, 0xFF, 0xFF] 0) State.reset) = some (.ok (.int (-1000))) ∧
    res (exec (.decodeIntI32 [0xE8, 0x03, 0, 0, 0, 0] 3) State.reset) = some (.err .shortBuffer) := by decide

theorem test_decodeIntU64 : res (exec (.decodeIntU64 [1, 2, 3, 4, 5, 6, 7, 8] 0) State.reset) =
    some (.ok (.int 578437695752307201)) := by decide

theorem test_decodeIntI64 : res (exec (.decodeIntI64 [0, 0, 0, 0, 0, 0, 0, 0x80] 0) State.reset) =
    some (.ok (.int (-9223372036854775808))) := by decide

theorem test_encodeIntU8 : res (exec (.encodeIntU8 200 [0x08]) State.reset) = some (.ok (.grown [0x08, 0xC8])) := by
  decide

theorem test_encodeIntI8 : res (exec (.encodeIntI8 (-2) []) State.reset) = some (.ok (.grown [0xFE])) := by decide

theorem test_encodeIntU16 : res (exec (.encodeIntU16 1500 []) State.reset) = some (.ok (.grown [0xDC, 0x05])) := by
  decide

theorem test_encodeIntI16 : res (exec (.encodeIntI16 (-2) [0, 0, 0]) State.reset) =
    some (.ok (.grown [0, 0, 0, 0xFE, 0xFF])) := by decide

theorem test_encodeIntU32 : res (exec (.encodeIntU32 0x12345678 []) State.reset) =
    some (.ok (.grown [0x78, 0x56, 0x34, 0x12])) := by decide

theorem test_encodeIntI32 : res (exec (.encodeIntI32 (-1000) []) State.reset) =
    some (.ok (.grown [0x18, 0xFC, 0xFF, 0xFF])) := by decide

theorem test_encodeIntU64 : res (exec (.encodeIntU64 0x0123456789ABCDEF []) State.reset) =
    some (.ok (.grown [0xEF, 0xCD, 0xAB, 0x89, 0x67, 0x45, 0x23, 0x01])) := by decide

theorem test_encodeIntI64 : res (exec (.encodeIntI64 (-9223372036854775808) []) State.reset) =
    some (.ok (.grown [0, 0, 0, 0, 0, 0, 0, 0x80])) := by decide

/-- 1.0 is 0x3F800000 and 0x3FF0000000000000, 0.5 is 0x3F000000 and 0x3FE0000000000000 (IEEE 754). -/
theorem test_decodeFloatU8F32 : res (exec (.decodeFloatU8F32 [0xFF] 0 0x3F000000) State.reset) =
    some (.ok (.f32 0x42FF0000)) := by decide +kernel

theorem test_decodeFloatI8F32 : res (exec (.decodeFloatI8F32 [0xFF] 0 0x3F000000) State.reset) =
    some (.ok (.f32 0xBF000000)) := by decide +kernel

theorem test_decodeFloatU16F32 : res (exec (.decodeFloatU16F32 [0xDC, 0x05] 0 0x40000000) State.reset) =
    some (.ok (.f32 0x453B8000)) := by decide +kernel

theorem test_decodeFloatI16F32 : res (exec (.decodeFloatI16F32 [0x00, 0x80] 0 0x3F800000) State.reset) =
    some (.ok (.f32 0xC7000000)) := by decide +kernel

/-- 16777217 casts to 16777216.0, 16777219 to 16777220.0, ties to even (R105). -/
theorem test_decodeFloatU32F32 :
    res (exec (.decodeFloatU32F32 [0x01, 0, 0, 0x01] 0 0x3F800000) State.reset) = some (.ok (.f32 0x4B800000)) ∧
    res (exec (.decodeFloatU32F32 [0x03, 0, 0, 0x01] 0 0x3F800000) State.reset) = some (.ok (.f32 0x4B800002)) := by
  decide +kernel

theorem test_decodeFloatI32F32 :
    res (exec (.decodeFloatI32F32 [0xE8, 0x03, 0, 0] 0 0x3C23D70A) State.reset) = some (.ok (.f32 0x41200000)) := by
  decide +kernel

/-- 2^64 - 1 casts to 2^64 (R107). -/
theorem test_decodeFloatU64F32 : res (exec (.decodeFloatU64F32 (List.replicate 8 0xFF) 0 0x3F800000) State.reset) =
    some (.ok (.f32 0x5F800000)) := by decide +kernel

theorem test_decodeFloatI64F32 : res (exec (.decodeFloatI64F32 (List.replicate 8 0xFF) 0 0x40000000) State.reset) =
    some (.ok (.f32 0xC0000000)) := by decide +kernel

theorem test_decodeFloatU8F64 : res (exec (.decodeFloatU8F64 [0xFF] 0 0x3FE0000000000000) State.reset) =
    some (.ok (.f64 0x405FE00000000000)) := by decide +kernel

theorem test_decodeFloatI8F64 : res (exec (.decodeFloatI8F64 [0xFF] 0 0x3FE0000000000000) State.reset) =
    some (.ok (.f64 0xBFE0000000000000)) := by decide +kernel

theorem test_decodeFloatU16F64 : res (exec (.decodeFloatU16F64 [0xDC, 0x05] 0 0x4000000000000000) State.reset) =
    some (.ok (.f64 0x40A7700000000000)) := by decide +kernel

theorem test_decodeFloatI16F64 :
    res (exec (.decodeFloatI16F64 [0x00, 0x80] 0 0x3FF0000000000000) State.reset) =
      some (.ok (.f64 0xC0E0000000000000)) ∧
    res (exec (.decodeFloatI16F64 [0x01] 0 0x3FF0000000000000) State.reset) = some (.err .shortBuffer) := by
  decide +kernel

theorem test_decodeFloatU32F64 :
    res (exec (.decodeFloatU32F64 [0xE8, 0x03, 0, 0] 0 0x3F847AE147AE147B) State.reset) =
      some (.ok (.f64 0x4024000000000000)) := by decide +kernel

theorem test_decodeFloatI32F64 :
    res (exec (.decodeFloatI32F64 [0x00, 0x00, 0x00, 0x80] 0 0x3F847AE147AE147B) State.reset) =
      some (.ok (.f64 0xC1747AE147AE147B)) ∧
    res (exec (.decodeFloatI32F64 [0xFF, 0xFF, 0xFF, 0x7F] 0 0x3F847AE147AE147B) State.reset) =
      some (.ok (.f64 0x41747AE147851EB8)) := by decide +kernel

theorem test_decodeFloatU64F64 :
    res (exec (.decodeFloatU64F64 (List.replicate 8 0xFF) 0 0x3FF0000000000000) State.reset) =
      some (.ok (.f64 0x43F0000000000000)) := by decide +kernel

/-- 2^63 - 1 casts to 2^63 (R108). -/
theorem test_decodeFloatI64F64 :
    res (exec (.decodeFloatI64F64 (List.replicate 7 0xFF ++ [0x7F]) 0 0x3FF0000000000000) State.reset) =
      some (.ok (.f64 0x43E0000000000000)) := by decide +kernel

/-! ### The checksums (95 section 2.4) -/

theorem test_xor8Buf :
    res (exec (.xor8Buf ([0x08, 0xC8] ++ rc)) State.reset) = some (.ok (.byte 0xF2)) ∧
    res (exec (.xor8Buf []) State.reset) = some (.ok (.byte 0x00)) := by decide

theorem test_crc8Buf :
    res (exec (.crc8Buf [0x31, 0x32, 0x33, 0x34, 0x35, 0x36, 0x37, 0x38, 0x39]) State.reset) =
      some (.ok (.byte 0xBC)) ∧
    res (exec (.crc8Buf [0x00, 0x6D, 0x00, 0x06, 0x00, 0xE8, 0x03, 0, 0, 0, 0]) State.reset) =
      some (.ok (.byte 0x76)) := by decide +kernel

/-- The eight values of R139. -/
theorem test_crc8_powers : [0x01, 0x02, 0x04, 0x08, 0x10, 0x20, 0x40, 0x80].map (fun v => crc8 [v]) =
    [0xD5, 0x7F, 0xFE, 0x29, 0x52, 0xA4, 0x9D, 0xEF] := by decide

theorem test_crcClr : after State.crcAcc (exec .crcClr { State.reset with crcAcc := 0x76 }) = some 0x00 := by decide

theorem test_crcUpd : after State.crcAcc (exec (.crcUpd 0x01) State.reset) = some 0xD5 ∧
    after State.crcAcc (exec (.crcUpd 0x76) { State.reset with crcAcc := 0x76 }) = some 0x00 := by decide

theorem test_crcRd : res (exec .crcRd { State.reset with crcAcc := 0x76 }) = some (.ok (.byte 0x76)) := by decide

/-! ### The framer (95 sections 2.5, 2.6) -/

theorem test_pack :
    res (exec (.pack .v1 200 rc) State.reset) =
      some (.ok (.buf ([0x24, 0x4D, 0x3C, 0x08, 0xC8] ++ rc ++ [0xF2]))) ∧
    res (exec (.pack .v2 0x1234 [0xAA, 0xBB, 0x24]) State.reset) =
      some (.ok (.buf [0x24, 0x58, 0x3C, 0x00, 0x34, 0x12, 0x03, 0x00, 0xAA, 0xBB, 0x24, 0xD6])) := by decide +kernel

theorem test_pack_refusals :
    res (exec (.pack .v1 256 []) State.reset) = some (.err .badOperand) ∧
    res (exec (.pack .v1 256 (List.replicate 255 0)) State.reset) = some (.err .payloadTooLarge) ∧
    res (exec (.pack .v2 256 []) State.reset) =
      some (.ok (.buf [0x24, 0x58, 0x3C, 0x00, 0x00, 0x01, 0x00, 0x00, 0x83])) := by decide +kernel

theorem test_send : after State.txlog (exec (.send 102 []) (State.resetWith .v2)) =
    some [0x24, 0x58, 0x3C, 0x00, 0x66, 0x00, 0x00, 0x00, 0x05] := by decide +kernel

/-- The link accepts 4 of 6 bytes. -/
theorem test_send_short :
    after State.txlog (exec (.send 102 []) { State.reset with txAnswers := [4] }) = some [0x24, 0x4D, 0x3C, 0x00] ∧
    res (exec (.send 102 []) { State.reset with txAnswers := [4] }) = some (.err .writeShort) := by decide

theorem test_unpack :
    res (exec (.unpack .v1 ([0x00, 0xFF, 0x4D, 0x58, 0x24, 0x4D, 0x3E, 0x02, 0x69, 0xDC, 0x05, 0xB2, 0xAA]))
      State.reset) = some (.ok (.packet 105 [0xDC, 0x05])) ∧
    res (exec (.unpack .v2 [0x24, 0x58, 0x3E, 0x01, 0x6D, 0x00, 0x00, 0x00, 0x2B]) State.reset) =
      some (.ok (.packet 109 [])) := by decide +kernel

theorem test_unpack_failures :
    [[], [0x24], [0x24, 0x4D, 0x3E, 0x02], [0x24, 0x4D, 0x3E, 0x02, 0x69, 0xDC], [0x24, 0x24, 0x4D, 0x3E, 0x00, 0x6D, 0x6D],
      [0x24, 0x51], [0x24, 0x4D, 0x21, 0x00, 0x6D, 0x00], [0x24, 0x4D, 0x3E, 0x00, 0x6D, 0x6E]].map
      (fun f => res (exec (.unpack .v1 f) State.reset)) =
    [some (.err .shortRead), some (.err .shortRead), some (.err .shortRead), some (.err .shortRead),
      some (.err .versionMismatch), some (.err .versionMismatch), some (.err .remoteError),
      some (.err .checksumError)] := by decide +kernel

theorem test_recv :
    res (exec .recv (rxState .v2 s2)) = some (.ok (.packet 109 [0xE8, 0x03, 0, 0, 0, 0])) ∧
    after State.rxq (exec .recv (rxState .v1 [0x24, 0x4D, 0x21, 0x00, 0x6D, 0x6D])) = some [0x6D] := by decide +kernel

/-- P3, step 1: two bytes consumed, VER flipped, one warning. -/
theorem test_recv_mismatch :
    after State.rxq (exec .recv (rxState .v1 s2)) = some (s2.drop 2) ∧
    after State.ver (exec .recv (rxState .v1 s2)) = some .v2 ∧
    after State.maxp (exec .recv (rxState .v1 s2)) = some 65535 ∧
    after State.warnlog (exec .recv (rxState .v1 s2)) = some [.versionMismatch] := by decide

/-! ### Control, errors, reset, the step -/

theorem test_setVer : after State.maxp (exec (.setVer .v2) State.reset) = some 65535 := by decide

theorem test_getVer : res (exec .getVer (State.resetWith .v2)) = some (.ok (.version .v2)) := by decide

theorem test_getMaxp : res (exec .getMaxp State.reset) = some (.ok (.int 255)) := by decide

/-- A FLUSH that finds nothing to discard is a request all the same (00 R13). -/
theorem test_flush :
    after State.rxq (exec .flush (rxState .v1 [0x6D])) = some [] ∧
    after State.rxq (exec .flush { rxState .v1 [0x6D, 0x24] with flushAnswers := [1] }) = some [0x24] ∧
    after State.rxflush (exec .flush State.reset) = some 1 := by decide

/-- 70 R248: an endless stream with no `$` is searched for ever; one that holds frames delivers them. -/
theorem test_recv_endless :
    exec .recv { rxState .v1 [0x01] with rxTail := [0x4D, 0x58] } = .fault .searchNeverEnds ∧
    exec .recv { rxState .v1 [0x01] with rxTail := [0x4D, 0x58], rxAnswers := [.gives 1, .gives 1, .never] } =
      .fault .readNeverAnswers ∧
    res (exec .recv { rxState .v1 [] with rxTail := [0x01, 0x24, 0x4D, 0x3E, 0x00, 0x6D, 0x6D] }) =
      some (.ok (.packet 109 [])) ∧
    after State.rxTail (exec .recv { rxState .v1 [0x24] with rxTail := [0x4D, 0x3E, 0x00, 0x6D, 0x6D, 0x24, 0x02] }) =
      some [0x24, 0x02, 0x4D, 0x3E, 0x00, 0x6D, 0x6D] := ⟨rfl, rfl, by decide +kernel⟩

/-- The parameters of 00 R5 at values of their own: other arithmetic, a finite BUFCAP, a finite OFFW. -/
theorem test_parameters :
    exec (.decodeFloatU8F32 [0xFF] 0 0x3F800000) (withParams { Params.default with floats := .other 7 }) =
      .next { withParams { Params.default with floats := .other 7 } with
        resLog := [.ok (.f32 (Config.otherFmul32 7 (Config.otherCvt32 7 .u8 255) 0x3F800000))] } ∧
    exec (.encodeIntU8 200 [0x08]) (withParams { Params.default with bufCap := some 1 }) = .refused .bufferCapacity ∧
    res (exec (.encodeIntU8 200 []) (withParams { Params.default with bufCap := some 1 })) = some (.ok (.grown [0xC8])) ∧
    step ((withParams { Params.default with bufCap := some 1 }).present (.command ⟨0x40, [.buf [1, 2]]⟩)) =
      .refused .operandBeyondParameters ∧
    step ((withParams { Params.default with offW := some 3 }).present (.command ⟨0x10, [.buf [1], .offset 8]⟩)) =
      .refused .operandBeyondParameters ∧
    res (step ((withParams { Params.default with offW := some 3 }).present (.command ⟨0x10, [.buf [1], .offset 7]⟩))) =
      some (.err .shortBuffer) := ⟨rfl, rfl, by decide, rfl, rfl, by decide⟩

/-- FLOAT_TYPES of 00 R5 at a value of its own: a block with F64 alone runs 0x38 (100 times 1.0 is 0x4059000000000000), and
0x30 names no operation of it, whatever its operands. -/
theorem test_float_types :
    let s := withParams { Params.default with floatTypes := [.f64] }
    res (step (s.present (.command ⟨0x38, [.buf [0x64], .offset 0, .f64 0x3FF0000000000000]⟩))) =
      some (.ok (.f64 0x4059000000000000)) ∧
    step (s.present (.command ⟨0x30, [.buf [0x64], .offset 0, .f32 0x3F800000]⟩)) =
      .next { s with resLog := [.err .badOperand] } ∧
    step (s.present (.command ⟨0x37, []⟩)) = .next { s with resLog := [.err .badOperand] } ∧
    step (s.present (.command ⟨0x40, [.buf [0x64]]⟩)) = .next { s with resLog := [.ok (.byte 0x64)] } :=
  ⟨by decide +kernel, rfl, rfl, rfl⟩

/-- The numbers of R211. -/
theorem test_result_numbers : [Result.ok .none, .err .portClosed, .err .payloadTooLarge, .err .writeShort,
    .err .shortRead, .err .versionMismatch, .err .remoteError, .err .checksumError, .err .shortBuffer,
    .err .outOfRange, .err .unsupported, .err .badOperand].map Result.number =
    [0, 1, 2, 3, 4, 5, 6, 7, 8, 9, 10, 11] := by decide

theorem test_reset : State.reset.ver = .v1 ∧ State.reset.maxp = 255 ∧ State.reset.crcAcc = 0 ∧
    State.reset.rx.rxs = .search := by decide

/-- The host's command is the very next step, and that step runs it. -/
theorem test_withFetchWord :
    step (State.reset.withFetchWord 8 0x72) = exec .getMaxp State.reset ∧
    step (State.reset.withFetchWord 8 0x50) = exec (.pack .v1 0 []) State.reset ∧
    res (step (State.reset.withFetchWord 8 0x18)) = some (.err .badOperand) := ⟨rfl, rfl, by decide⟩

/-! ### Witnesses: every statement's hypotheses are met together by a concrete state and operands -/

/-- A well-formed operation and its command. -/
theorem test_witness_DecoderAcceptsExactlyTheEncodedOperations :
    ∃ c i, Instr.wellFormed i = true ∧ encode i = c ∧ decode c = .instr i :=
  ⟨⟨0x21, [.int (-128), .buf [0x08]]⟩, .encodeIntI8 (-128) [0x08], by decide⟩

/-- The boundaries of every gap of the opcode map meet the hypothesis, and no opcode of the table does. -/
theorem test_witness_IllegalOpcodeAnswersBadOperand :
    (∀ op ∈ ([0x00, 0x0F, 0x18, 0x1F, 0x28, 0x2F, 0x45, 0x4F, 0x52, 0x5F, 0x62, 0x6F, 0x74, 0xFF] : List Byte),
      op.toNat ≤ 0x0F ∨ (0x18 ≤ op.toNat ∧ op.toNat ≤ 0x1F) ∨ (0x28 ≤ op.toNat ∧ op.toNat ≤ 0x2F) ∨
      (0x45 ≤ op.toNat ∧ op.toNat ≤ 0x4F) ∨ (0x52 ≤ op.toNat ∧ op.toNat ≤ 0x5F) ∨
      (0x62 ≤ op.toNat ∧ op.toNat ≤ 0x6F) ∨ 0x74 ≤ op.toNat) ∧
    (State.reset.present (.command ⟨0x18, [.byte 0]⟩)).pending = .command ⟨0x18, [.byte 0]⟩ :: [] := by decide

/-- A command that can be written down at OFFW = 3 and one that cannot; the opcodes of DECODE_FLOAT at the edges of each
format, on a block that has the format and on one that has the other alone; a state at the defaults. -/
theorem test_witness_StepRunsTheDecodedCommand :
    let at3 (n : Nat) : State :=
      (withParams { Params.default with offW := some 3 }).present (.command ⟨0x10, [.buf [], .offset n]⟩)
    let only (F : FloatType) (op : Byte) : State :=
      (withParams { Params.default with floatTypes := [F] }).present (.command ⟨op, []⟩)
    ((at3 7).pending = [.command ⟨0x10, [.buf [], .offset 7]⟩] ∧
      decode ⟨0x10, [.buf [], .offset 7]⟩ = .instr (.decodeIntU8 [] 7) ∧
      (at3 7).params.admits ⟨0x10, [.buf [], .offset 7]⟩ = true) ∧
    ((at3 8).pending = [.command ⟨0x10, [.buf [], .offset 8]⟩] ∧
      decode ⟨0x10, [.buf [], .offset 8]⟩ = .instr (.decodeIntU8 [] 8) ∧
      (at3 8).params.admits ⟨0x10, [.buf [], .offset 8]⟩ = false) ∧
    (∀ op ∈ ([0x30, 0x37] : List Byte), (only .f64 op).pending = [.command ⟨op, []⟩] ∧
      .f32 ∉ (only .f64 op).params.floatTypes ∧ (only .f64 op).params.offers op = false ∧
      (only .f32 op).params.offers op = true) ∧
    (∀ op ∈ ([0x38, 0x3F] : List Byte), (only .f32 op).pending = [.command ⟨op, []⟩] ∧
      .f64 ∉ (only .f32 op).params.floatTypes ∧ (only .f32 op).params.offers op = false ∧
      (only .f64 op).params.offers op = true) ∧
    State.reset.params = Params.default := by decide

theorem test_witness_ResetSetsBlockStateAndNothingElse :
    ∃ (v : Version) (rest : List Input) (s : State), s.pending = .reset v :: rest :=
  ⟨.v2, [], State.reset.present (.reset .v2), by decide⟩

theorem test_witness_LinkInputsChangeTheEnvironmentOnly :
    (State.reset.present (.arrive [0x24])).pending = .arrive [0x24] :: [] ∧
    (State.reset.present (.endless [0x24])).pending = .endless [0x24] :: [] ∧
    (State.reset.present (.portLevel false)).pending = .portLevel false :: [] ∧ State.reset.pending = [] := by decide

/-- The last lengths that are short, for each size (DECODE_INT and DECODE_FLOAT). -/
theorem test_witness_DecodeShortBuffer :
    ([] : Buf).length < 0 + 1 ∧ ([0x80] : Buf).length < 0 + 2 ∧ ([1, 2, 3] : Buf).length < 0 + 4 ∧
    ([1, 2, 3, 4, 5, 6, 7] : Buf).length < 0 + 8 := by decide

theorem test_witness_MixedWidthReadsAgree : ∃ (buf : Buf) (k : Nat), k + 4 ≤ buf.length :=
  ⟨[0xAA, 0x78, 0x56, 0x34, 0x12], 1, by decide⟩

/-- The greatest values of the unsigned types, the least and greatest of the signed ones; room for the grown buffer, at
the default BUFCAP and at the least finite one that has it. -/
theorem test_witness_EncodeIntBounds :
    (255 < 2 ^ 8 ∧ 65535 < 2 ^ 16 ∧ 4294967295 < 2 ^ 32 ∧ 18446744073709551615 < 2 ^ 64) ∧
    ((-2 : Int) ^ 7 ≤ -128 ∧ (127 : Int) < 2 ^ 7 ∧ -(2 : Int) ^ 15 ≤ -32768 ∧ (32767 : Int) < 2 ^ 15 ∧
      -(2 : Int) ^ 31 ≤ -2147483648 ∧ (2147483647 : Int) < 2 ^ 31 ∧
      -(2 : Int) ^ 63 ≤ -9223372036854775808 ∧ (9223372036854775807 : Int) < 2 ^ 63) ∧
    (State.reset.params.holds (1 + 8) = true ∧ (withParams { Params.default with bufCap := some 9 }).params.holds (1 + 8) = true ∧
      (withParams { Params.default with bufCap := some 8 }).params.holds (1 + 8) = false) := by decide

theorem test_witness_CodecRoundTripsBothWays :
    IntType.inRange .i16 (-32768) = true ∧ ([0x00, 0x80] : Buf).length = IntType.size .i16 ∧
    State.reset.params.holds (3 + IntType.size .i16) = true := by decide

theorem test_witness_CastRoundsToNearestEven :
    |(2 ^ 64 : Int)| ≤ 2 ^ 64 ∧ |(-2 ^ 24 : Int)| ≤ 2 ^ 24 ∧ |(2 ^ 53 : Int)| ≤ 2 ^ 53 := by norm_num

/-- The greatest number times 1.0 stays below the overflow bound; 31.0 times 1082401 * 2^103 is the bound itself
(binary32). -/
theorem test_witness_ProductRoundsToNearestEven32 :
    (finite binary32 (0x7F7FFFFF#32).toNat ∧ finite binary32 (0x3F800000#32).toNat ∧
      |toRat binary32 0x7F7FFFFF * toRat binary32 0x3F800000| < overflowBound binary32) ∧
    (finite binary32 (0x41F80000#32).toNat ∧ finite binary32 (0x7D042108#32).toNat ∧
      overflowBound binary32 = |toRat binary32 0x41F80000 * toRat binary32 0x7D042108|) := by
  refine ⟨⟨by unfold finite; decide, by unfold finite; decide, ?_⟩, by unfold finite; decide, by unfold finite; decide, ?_⟩ <;>
  norm_num [toRat, overflowBound, binary32, FloatFormat.neg, FloatFormat.sig, FloatFormat.step, FloatFormat.mag,
    FloatFormat.signWeight, FloatFormat.Q]

/-- 1.0 times 1.0 stays below the overflow bound; 2^27 - 1 times (2^27 + 1) * 2^970 is the bound itself (binary64). -/
theorem test_witness_ProductRoundsToNearestEven64 :
    (finite binary64 (0x3FF0000000000000#64).toNat ∧
      |toRat binary64 0x3FF0000000000000 * toRat binary64 0x3FF0000000000000| < overflowBound binary64) ∧
    (finite binary64 (0x419FFFFFFC000000#64).toNat ∧ finite binary64 (0x7E40000002000000#64).toNat ∧
      overflowBound binary64 = |toRat binary64 0x419FFFFFFC000000 * toRat binary64 0x7E40000002000000|) := by
  have value : ∀ (x sig step : Nat), binary64.neg x = false → binary64.sig x = sig → binary64.step x = step →
      toRat binary64 x = sig * 2 ^ step / 2 ^ 1074 := by
    rintro x _ _ h rfl rfl; simp [toRat, h, show binary64.Q = 1074 from rfl]
  have bound : overflowBound binary64 = (2 : ℚ) ^ 970 * (2 ^ 54 - 1) := by
    rw [overflowBound, show (2 ^ (binary64.w - 1) : ℕ) = 970 + 54 from rfl,
      show (970 + 54 - 1 - binary64.p : ℕ) = 970 from rfl, pow_add, mul_sub_one]
  refine ⟨⟨by unfold finite; decide, ?_⟩, by unfold finite; decide, by unfold finite; decide, ?_⟩
  · rw [value _ (2 ^ 52) 1022 rfl rfl rfl, bound]
    have h1 : (1 : ℚ) ≤ 2 ^ 970 := one_le_pow₀ one_le_two
    have h2 : (((2 ^ 52 : ℕ) : ℚ) * 2 ^ 1022 / 2 ^ 1074) = 1 := by
      rw [show (1074 : ℕ) = 52 + 1022 from rfl, pow_add (2 : ℚ) 52, Nat.cast_pow, Nat.cast_ofNat]
      exact div_self (by positivity)
    rw [h2]
    generalize (2 : ℚ) ^ 970 = a at *
    norm_num
    linarith
  · rw [value _ ((2 ^ 27 - 1) * 2 ^ 26) 1048 rfl rfl rfl, value _ ((2 ^ 27 + 1) * 2 ^ 25) 2019 rfl rfl rfl, bound]
    have h1 : (2 : ℚ) ^ 1074 = 2 ^ 1048 * 2 ^ 26 := by rw [← pow_add]
    have h2 : (2 : ℚ) ^ 2019 = 2 ^ 1074 * 2 ^ 945 := by rw [← pow_add]
    have h3 : (2 : ℚ) ^ 970 = 2 ^ 945 * 2 ^ 25 := by rw [← pow_add]
    have h4 : (0 : ℚ) < 2 ^ 1048 := by positivity
    have h5 : (0 : ℚ) < 2 ^ 945 := by positivity
    rw [h2, h3, h1]
    generalize (2 : ℚ) ^ 1048 = a at *
    generalize (2 : ℚ) ^ 945 = b at *
    rw [abs_of_pos (by positivity)]
    push_cast
    field_simp
    norm_num

/-- A NaN, an infinity, a zero and a non-zero cast value, in both formats. -/
theorem test_witness_NaNAndInfiniteScales :
    (binary32.isNaN 0x7FC00000 = true ∧ binary32.isInf 0xFF800000 = true ∧ binary32.mag 0 = 0 ∧
      binary32.mag 0xC2000000 ≠ 0) ∧
    (binary64.isNaN 0x7FF0000000000001 = true ∧ binary64.isInf 0x7FF0000000000000 = true ∧ binary64.mag 0 = 0 ∧
      binary64.mag 0x3FF0000000000000 ≠ 0) ∧
    finite binary32 0 ∧ finite binary32 0xC2000000 ∧ finite binary64 0 ∧ finite binary64 0x3FF0000000000000 := by
  unfold finite; decide

theorem test_witness_StreamedCrcEqualsBufferCrc :
    ∃ (buf : Buf) (rest : List Input) (s : State),
      s.pending = .command ⟨0x42, []⟩ :: buf.map (fun x => Input.command ⟨0x43, [.byte x]⟩) ++
        .command ⟨0x44, []⟩ :: rest :=
  ⟨[0x31], [], { State.reset with pending :=
    [.command ⟨0x42, []⟩, .command ⟨0x43, [.byte 0x31]⟩, .command ⟨0x44, []⟩] }, by decide⟩

theorem test_witness_ChecksumsAreLinearWithZeroResidue : ([0x24, 0x00] : Buf).length = ([0x6D, 0xFF] : Buf).length := by
  decide

theorem test_witness_ChecksumsDetectEverySingleBitFlip : 2 < rc.length ∧ 7 < 8 := by decide

/-- The longest payload and the greatest code PACK takes under V1, and the first it does not. -/
theorem test_witness_PackBuildsTheFrame :
    sendable .v1 255 (List.replicate 254 0x24) ∧ ¬ sendable .v1 255 (List.replicate 255 0x24) ∧
    ¬ sendable .v1 256 [] ∧ sendable .v2 65535 rc ∧
    State.reset.params.holds (frameBytes .v1 255 (List.replicate 254 0x24)).length = true := by
  simp only [sendable, List.length_replicate]
  exact ⟨by decide, by decide, by decide, by decide, rfl⟩

/-- Each refusing clause at its first value; the third clause's data is one shorter than the first's. -/
theorem test_witness_PackRefusesByNameInOrder :
    255 ≤ (List.replicate 255 (0 : Byte)).length ∧ 65535 ≤ (List.replicate 65535 (0 : Byte)).length ∧
    (List.replicate 254 (0 : Byte)).length < 255 ∧ 255 < (256 : Code).toNat := by
  simp only [List.length_replicate]
  decide

theorem test_witness_SendPutsTheWholeFrameOnTheWire :
    ∃ (code : Code) (data : Buf) (s : State), s.portOpen = true ∧ sendable s.ver code data ∧
      acceptsWhole s (frameBytes s.ver code data).length :=
  ⟨200, rc, { State.reset with txAnswers := [14] }, rfl, by simp [sendable, State.reset, State.resetWith, Config.RESET_VERSION, rc],
    by unfold acceptsWhole; decide⟩

theorem test_witness_ShortWriteLeavesTheAcceptedBytes :
    ∃ (code : Code) (data : Buf) (k : Nat) (ks : List Nat) (s : State), s.portOpen = true ∧ sendable s.ver code data ∧
      s.txAnswers = k :: ks ∧ k < (frameBytes s.ver code data).length :=
  ⟨102, [], 5, [], { State.reset with txAnswers := [5] }, rfl, by simp [sendable, State.reset, State.resetWith, Config.RESET_VERSION],
    rfl, by decide⟩

theorem test_witness_SendRefusesByNameInOrder :
    ({ State.reset with portOpen := false } : State).portOpen = false ∧
    State.reset.portOpen = true ∧ State.reset.maxp ≤ (List.replicate 255 (0 : Byte)).length ∧
    (List.replicate 254 (0 : Byte)).length < State.reset.maxp ∧ State.reset.ver = .v1 ∧
    255 < (256 : Code).toNat := by
  simp only [List.length_replicate]
  decide

/-- PACK answers a frame: the hypothesis of PackedFrameChecksumCloses, PackIsInjectivePerVersion, UnpackInvertsPack. -/
theorem test_witness_PackedFrame :
    exec (.pack .v1 64 []) State.reset = .next { State.reset with
      resLog := State.reset.resLog ++ [.ok (.buf [0x24, 0x4D, 0x3C, 0x00, 0x40, 0x40])] } ∧
    exec (.pack .v2 64 []) State.reset = .next { State.reset with
      resLog := State.reset.resLog ++ [.ok (.buf [0x24, 0x58, 0x3C, 0x00, 0x40, 0x00, 0x00, 0x00, 0xC7])] } := by
  have h : frameBytes .v2 64 [] = [0x24, 0x58, 0x3C, 0x00, 0x40, 0x00, 0x00, 0x00, 0xC7] := by decide +kernel
  exact ⟨rfl, by rw [← h]; rfl⟩

theorem test_witness_ReadTakesAFrontPartOfTheStream : 0 < 3 ∧ 2 ≤ 3 ∧ 2 ≤ ([0x24, 0x4D] : Buf).length := by decide

/-- RECV under V1: both clauses (a right and a wrong checksum), with garbage before and a byte after. The peer gives
exactly what each read asks for, and answers no read after that. -/
theorem test_witness_RecvRunsAV1FrameToItsChecksum :
    ∃ (g data rest : Buf) (typ len code crc crc' : Byte) (s s' : State),
      (s.ver = .v1 ∧ s.portOpen = true ∧ answeredInFull (frameReads .v1 g.length data.length) s.rxAnswers ∧
        s.params.holds data.length = true ∧ 0x24 ∉ g ∧ typ ≠ 0x21 ∧ data.length = len.toNat ∧
        s.rxq = g ++ [0x24, 0x4D, typ, len, code] ++ data ++ [crc] ++ rest ∧ crc = xor8 ([len, code] ++ data)) ∧
      (s'.ver = .v1 ∧ s'.portOpen = true ∧ answeredInFull (frameReads .v1 g.length data.length) s'.rxAnswers ∧
        s'.rxq = g ++ [0x24, 0x4D, typ, len, code] ++ data ++ [crc'] ++ rest ∧ crc' ≠ xor8 ([len, code] ++ data)) :=
  ⟨[0x00, 0x4D], [0xDC, 0x05], [0xAA], 0x3E, 0x02, 0x69, 0xB2, 0xB3,
    rxAnswered .v1 [0x00, 0x4D, 0x24, 0x4D, 0x3E, 0x02, 0x69, 0xDC, 0x05, 0xB2, 0xAA]
      [.gives 1, .gives 1, .gives 1, .gives 1, .gives 3, .gives 2, .gives 1, .never],
    rxState .v1 [0x00, 0x4D, 0x24, 0x4D, 0x3E, 0x02, 0x69, 0xDC, 0x05, 0xB3, 0xAA],
    ⟨rfl, rfl, (show 1 ≤ 1 ∧ 1 ≤ 1 ∧ 1 ≤ 1 ∧ 1 ≤ 1 ∧ 3 ≤ 3 ∧ 2 ≤ 2 ∧ 1 ≤ 1 ∧ True by decide), by decide +kernel⟩,
    rfl, rfl, answeredInFull_nil _, by decide +kernel⟩

/-- RECV under V2: S2's frame, and the same with its checksum byte changed. -/
theorem test_witness_RecvRunsAV2FrameToItsChecksum :
    ∃ (data rest : Buf) (s s' : State),
      (s.ver = .v2 ∧ s.portOpen = true ∧ answeredInFull (frameReads .v2 0 data.length) s.rxAnswers ∧
        s.params.holds data.length = true ∧ data.length = (0x06 : Byte).toNat + 256 * (0x00 : Byte).toNat ∧
        s.rxq = [] ++ [0x24, 0x58, 0x3E, 0x00, 0x6D, 0x00, 0x06, 0x00] ++ data ++ [0x76] ++ rest ∧
        0x76 = crc8 ([0x00, 0x6D, 0x00, 0x06, 0x00] ++ data)) ∧
      (s'.ver = .v2 ∧ s'.portOpen = true ∧ answeredInFull (frameReads .v2 0 data.length) s'.rxAnswers ∧
        s'.rxq = [] ++ [0x24, 0x58, 0x3E, 0x00, 0x6D, 0x00, 0x06, 0x00] ++ data ++ [0x77] ++ rest ∧
        0x77 ≠ crc8 ([0x00, 0x6D, 0x00, 0x06, 0x00] ++ data)) :=
  ⟨[0xE8, 0x03, 0, 0, 0, 0], [],
    rxAnswered .v2 s2 [.gives 1, .gives 1, .gives 6, .gives 6, .gives 1, .gives 0], rxState .v2 (s2.dropLast ++ [0x77]),
    ⟨rfl, rfl, (show 1 ≤ 1 ∧ 1 ≤ 1 ∧ 6 ≤ 6 ∧ 6 ≤ 6 ∧ 1 ≤ 1 ∧ True by decide), by decide +kernel⟩,
    rfl, rfl, answeredInFull_nil _, by decide +kernel⟩

theorem test_witness_RecvFlipsVersionOnAnyOtherLetter :
    ∃ (g rest : Buf) (x : Byte) (s : State), s.portOpen = true ∧ answeredInFull (preambleReads g.length) s.rxAnswers ∧
      0x24 ∉ g ∧ x ≠ letter s.ver ∧ s.rxq = g ++ [0x24, x] ++ rest :=
  ⟨[0x6D], [0x4D], 0x24, rxAnswered .v1 [0x6D, 0x24, 0x24, 0x4D] [.gives 1, .gives 1, .gives 1, .never], rfl,
    (show 1 ≤ 1 ∧ 1 ≤ 1 ∧ 1 ≤ 1 ∧ True by decide), by decide, by decide, by decide⟩

theorem test_witness_RecvStopsAfterTheHeaderOfAnErrorFrame :
    answeredInFull (preambleReads ([] : Buf).length ++ [headerSize .v1])
      (rxAnswered .v1 [] [.gives 1, .gives 1, .gives 3, .never]).rxAnswers ∧
    answeredInFull (preambleReads ([] : Buf).length ++ [headerSize .v2])
      (rxAnswered .v2 [] [.gives 1, .gives 1, .gives 6, .never]).rxAnswers ∧
    (rxState .v1 [0x24, 0x4D, 0x21, 0x00, 0x6D, 0x6D]).rxq = [] ++ [0x24, 0x4D, 0x21, 0x00, 0x6D] ++ [0x6D] ∧
    (rxState .v2 [0x24, 0x58, 0x21, 0x00, 0x6D, 0x00, 0x00, 0x00, 0x9D]).rxq =
      [] ++ [0x24, 0x58, 0x21, 0x00, 0x6D, 0x00, 0x00, 0x00] ++ [0x9D] ∧
    (rxState .v1 []).portOpen = true ∧ (rxState .v1 []).ver = .v1 ∧ (rxState .v2 []).ver = .v2 :=
  ⟨(show 1 ≤ 1 ∧ 1 ≤ 1 ∧ 3 ≤ 3 ∧ True by decide), (show 1 ≤ 1 ∧ 1 ≤ 1 ∧ 6 ≤ 6 ∧ True by decide), by decide⟩

/-- One state for each of the six ways a stream is cut, at the longest cut of each. -/
theorem test_witness_RecvReportsAStreamCutAnywhere :
    (0x24 ∉ ([0x01, 0x02] : Buf)) ∧ (0x3E : Byte) ≠ 0x21 ∧
    (rxState .v1 [0x01, 0x02]).rxq = [0x01, 0x02] ∧ (rxState .v1 [0x01, 0x24]).rxq = [0x01] ++ [0x24] ∧
    ([0x3E, 0x02] : Buf).length < 3 ∧ (rxState .v1 [0x24, 0x4D, 0x3E, 0x02]).rxq = [] ++ [0x24, 0x4D] ++ [0x3E, 0x02] ∧
    ([0x3E, 0, 0x6D, 0, 6] : Buf).length < 6 ∧
    (rxState .v2 (s2.take 7)).rxq = [] ++ [0x24, 0x58] ++ [0x3E, 0, 0x6D, 0, 6] ∧
    ([0xDC, 0x05] : Buf).length ≤ (0x02 : Byte).toNat ∧
    (rxState .v1 [0x24, 0x4D, 0x3E, 0x02, 0x69, 0xDC, 0x05]).rxq =
      [] ++ [0x24, 0x4D, 0x3E, 0x02, 0x69] ++ [0xDC, 0x05] ∧
    ([0xE8, 0x03, 0, 0, 0, 0] : Buf).length ≤ (0x06 : Byte).toNat + 256 * (0x00 : Byte).toNat ∧
    (rxState .v2 s2.dropLast).rxq =
      [] ++ [0x24, 0x58, 0x3E, 0x00, 0x6D, 0x00, 0x06, 0x00] ++ [0xE8, 0x03, 0, 0, 0, 0] := by decide

/-- The state `s` stands before a read of `n` bytes that the peer answers with `a`: the hypotheses of
ShortAnswerConsumesWhatItGave and of the first clause of RecvHangsWhereAReadOrTheSearchNeverEnds. -/
def standsBefore (s : State) (n : Nat) (a : ReadAnswer) : Prop :=
  ∃ (g consumed rest : Buf) (reads : List Nat) (as : List ReadAnswer), s.portOpen = true ∧ 0x24 ∉ g ∧
    NextRead s.ver g consumed reads n ∧ s.rxq = consumed ++ rest ∧ answeredInFull reads s.rxAnswers ∧
    answersLeft reads s.rxAnswers = a :: as

/-- A state before every read a V1 run makes, whatever the peer answers there. -/
theorem test_witness_NextReadV1 (a : ReadAnswer) :
    standsBefore (rxAnswered .v1 [0x01, 0x02] [.gives 1, a]) 1 a ∧
    standsBefore (rxAnswered .v1 [0x01, 0x24, 0x4D] [.gives 1, .gives 1, a]) 1 a ∧
    standsBefore (rxAnswered .v1 [0x24, 0x4D, 0x3E, 0x02] [.gives 1, .gives 1, a]) 3 a ∧
    standsBefore (rxAnswered .v1 [0x24, 0x4D, 0x3E, 0x02, 0x69, 0xDC] [.gives 1, .gives 1, .gives 3, a]) 2 a ∧
    standsBefore (rxAnswered .v1 [0x24, 0x4D, 0x3E, 0x02, 0x69, 0xDC, 0x05]
      [.gives 1, .gives 1, .gives 3, .gives 2, a]) 1 a :=
  ⟨⟨[0x01], [0x01], [0x02], [1], [], rfl, by decide, .search, rfl, (show 1 ≤ 1 ∧ True by decide), rfl⟩,
    ⟨[0x01], [0x01, 0x24], [0x4D], [1, 1], [], rfl, by decide, .variant, rfl, (show 1 ≤ 1 ∧ 1 ≤ 1 ∧ True by decide), rfl⟩,
    ⟨[], [0x24, 0x4D], [0x3E, 0x02], [1, 1], [], rfl, by decide, .header, rfl, (show 1 ≤ 1 ∧ 1 ≤ 1 ∧ True by decide), rfl⟩,
    ⟨[], [0x24, 0x4D, 0x3E, 0x02, 0x69], [0xDC], [1, 1, 3], [], rfl, by decide,
      .payloadV1 0x3E 0x02 0x69 rfl (by decide), rfl, (show 1 ≤ 1 ∧ 1 ≤ 1 ∧ 3 ≤ 3 ∧ True by decide), rfl⟩,
    ⟨[], [0x24, 0x4D, 0x3E, 0x02, 0x69, 0xDC, 0x05], [], [1, 1, 3, 2], [], rfl, by decide,
      .crcV1 0x3E 0x02 0x69 [0xDC, 0x05] rfl (by decide) rfl, rfl,
      (show 1 ≤ 1 ∧ 1 ≤ 1 ∧ 3 ≤ 3 ∧ 2 ≤ 2 ∧ True by decide), rfl⟩⟩

/-- The same for a V2 run, on S2's frame. -/
theorem test_witness_NextReadV2 (a : ReadAnswer) :
    standsBefore (rxAnswered .v2 s2 [a]) 1 a ∧
    standsBefore (rxAnswered .v2 s2 [.gives 1, a]) 1 a ∧
    standsBefore (rxAnswered .v2 s2 [.gives 1, .gives 1, a]) 6 a ∧
    standsBefore (rxAnswered .v2 s2 [.gives 1, .gives 1, .gives 6, a]) 6 a ∧
    standsBefore (rxAnswered .v2 s2 [.gives 1, .gives 1, .gives 6, .gives 6, a]) 1 a :=
  ⟨⟨[], [], s2, [], [], rfl, by decide, .search, rfl, trivial, rfl⟩,
    ⟨[], [0x24], s2.drop 1, [1], [], rfl, by decide, .variant, rfl, (show 1 ≤ 1 ∧ True by decide), rfl⟩,
    ⟨[], [0x24, 0x58], s2.drop 2, [1, 1], [], rfl, by decide, .header, rfl, (show 1 ≤ 1 ∧ 1 ≤ 1 ∧ True by decide), rfl⟩,
    ⟨[], s2.take 8, s2.drop 8, [1, 1, 6], [], rfl, by decide,
      .payloadV2 0x3E 0x00 0x6D 0x00 0x06 0x00 rfl (by decide), rfl, (show 1 ≤ 1 ∧ 1 ≤ 1 ∧ 6 ≤ 6 ∧ True by decide), rfl⟩,
    ⟨[], s2.take 14, s2.drop 14, [1, 1, 6, 6], [], rfl, by decide,
      .crcV2 0x3E 0x00 0x6D 0x00 0x06 0x00 [0xE8, 0x03, 0, 0, 0, 0] rfl (by decide) rfl, rfl,
      (show 1 ≤ 1 ∧ 1 ≤ 1 ∧ 6 ≤ 6 ∧ 6 ≤ 6 ∧ True by decide), rfl⟩⟩

/-- With `gives k`, `k` one less than each of those reads asks for; the result at one of them. -/
theorem test_witness_ShortAnswerConsumesWhatItGave :
    standsBefore (rxAnswered .v1 [0x24, 0x4D, 0x3E, 0x02] [.gives 1, .gives 1, .gives 2]) 3 (.gives 2) ∧ 2 < 3 ∧
    standsBefore (rxAnswered .v2 s2 [.gives 1, .gives 1, .gives 6, .gives 5]) 6 (.gives 5) ∧ 5 < 6 ∧
    standsBefore (rxAnswered .v1 [0x01, 0x02] [.gives 1, .gives 0]) 1 (.gives 0) ∧ 0 < 1 ∧
    after State.rxq (exec .recv (rxAnswered .v2 s2 [.gives 1, .gives 1, .gives 6, .gives 5])) = some (s2.drop 13) :=
  ⟨(test_witness_NextReadV1 _).2.2.1, by decide, (test_witness_NextReadV2 _).2.2.2.1, by decide,
    (test_witness_NextReadV1 _).1, by decide, by decide⟩

theorem test_witness_RecvWithThePortClosed : ({ State.reset with portOpen := false } : State).portOpen = false := rfl

theorem test_witness_RecvHangsWhereAReadOrTheSearchNeverEnds :
    standsBefore (rxAnswered .v1 [0x01, 0x02] [.gives 1, .never]) 1 .never ∧
    standsBefore (rxAnswered .v2 s2 [.gives 1, .gives 1, .gives 6, .gives 6, .never]) 1 .never ∧
    exec .recv (rxAnswered .v2 s2 [.gives 1, .gives 1, .gives 6, .gives 6, .never]) = .fault .readNeverAnswers ∧
    (∃ s : State, s.portOpen = true ∧ s.rxTail ≠ [] ∧ 0x24 ∉ s.rxq ∧ 0x24 ∉ s.rxTail ∧
      ∀ a ∈ s.rxAnswers, ∃ k, a = .gives k ∧ 1 ≤ k) :=
  ⟨(test_witness_NextReadV1 _).1, (test_witness_NextReadV2 _).2.2.2.2, rfl,
    { rxAnswered .v1 [0x01] [.gives 1] with rxTail := [0x4D] }, rfl, by decide, by decide, by decide,
    by intro a h; exact ⟨1, by simpa [rxAnswered] using h, by omega⟩⟩

theorem test_witness_UnpackGivesTheResultOfRecv : State.reset.params.holds s2.length = true := rfl

/-- A stream on which the run ends, and one on which SEARCH does not. -/
theorem test_witness_RunningTheR171TableGivesTheR181Function :
    rxMachine .v2 RxRegs.reset ⟨s2, [], []⟩ ≠ .hung .searchNeverEnds ∧ s2.length + 0 + 0 + 6 ≤ 21 ∧
    rxMachine .v2 RxRegs.reset ⟨[0x01], [], [0x4D]⟩ = .hung .searchNeverEnds := by decide +kernel

theorem test_witness_RecvDeliversWhatWasPacked :
    ∃ (code : Code) (data frame g rest : Buf) (s u : State),
      exec (.pack s.ver code data) u = .next { u with resLog := u.resLog ++ [.ok (.buf frame)] } ∧
      s.portOpen = true ∧ answeredInFull (frameReads s.ver g.length data.length) s.rxAnswers ∧
      s.params.holds data.length = true ∧ 0x24 ∉ g ∧ s.rxq = g ++ frame ++ rest :=
  ⟨64, [], [0x24, 0x4D, 0x3C, 0x00, 0x40, 0x40], [0x6D], [0xAA],
    rxAnswered .v1 [0x6D, 0x24, 0x4D, 0x3C, 0x00, 0x40, 0x40, 0xAA] [.gives 1, .gives 1, .gives 1, .gives 3, .gives 1, .never],
    State.reset, rfl, rfl, (show 1 ≤ 1 ∧ 1 ≤ 1 ∧ 1 ≤ 1 ∧ 3 ≤ 3 ∧ 1 ≤ 1 ∧ True by decide), rfl, by decide, by decide⟩

/-- Two frames of a device (direction `>`, a flag of their own) and a byte behind them, in both directions of the switch;
the longest payload V1 frames. -/
theorem test_witness_VersionAutoSwitchThenDelivers :
    (∃ (code1 code2 : Code) (data1 data2 residue rest : Buf) (s : State) (w : Version), w ≠ s.ver ∧ s.portOpen = true ∧
      framable w code1 data1 ∧ framable w code2 data2 ∧ (0x3E : Byte) ≠ 0x21 ∧
      residue = (validFrame w 0x3E 0x01 code1 data1).drop 2 ∧ 0x24 ∉ residue ∧
      s.rxq = validFrame w 0x3E 0x01 code1 data1 ++ validFrame w 0x3E 0x02 code2 data2 ++ rest ∧
      answeredInFull (preambleReads 0 ++ frameReads w residue.length data2.length) s.rxAnswers ∧
      s.params.holds data2.length = true) ∧
    (framable .v1 255 (List.replicate 255 0) ∧ framable .v2 65535 (List.replicate 65535 0) ∧
      0x24 ∉ (validFrame .v1 0x21 0x00 64 []).drop 2) :=
  ⟨⟨109, 105, [0xE8, 0x03], [0xDC, 0x05], (validFrame .v2 0x3E 0x01 109 [0xE8, 0x03]).drop 2, [0xAA],
    rxAnswered .v1 (validFrame .v2 0x3E 0x01 109 [0xE8, 0x03] ++ validFrame .v2 0x3E 0x02 105 [0xDC, 0x05] ++ [0xAA])
      (List.replicate 13 (ReadAnswer.gives 1) ++ [ReadAnswer.gives 6, .gives 2, .gives 1, .never]), .v2, by decide, rfl,
    by simp [framable], by simp [framable], by decide, rfl, by decide +kernel, rfl,
    (show 1 ≤ 1 ∧ 1 ≤ 1 ∧ 1 ≤ 1 ∧ 1 ≤ 1 ∧ 1 ≤ 1 ∧ 1 ≤ 1 ∧ 1 ≤ 1 ∧ 1 ≤ 1 ∧ 1 ≤ 1 ∧ 1 ≤ 1 ∧ 1 ≤ 1 ∧ 1 ≤ 1 ∧ 1 ≤ 1 ∧
      6 ≤ 6 ∧ 2 ≤ 2 ∧ 1 ≤ 1 ∧ True by decide), rfl⟩,
    by simp only [framable, List.length_replicate]; decide, by simp only [framable, List.length_replicate]; decide,
    by decide⟩

/-- A place for each clause of UnpackOfAFrameWithOneBitFlipped: the last byte of a V1 frame, flag and checksum of a V2
frame; length fields that grow and that shrink, the last with a delivery and with none; bytes 2, 1, and 0 with and
without another `$`. -/
theorem test_witness_UnpackOfAFrameWithOneBitFlipped :
    sendable .v1 64 [] ∧ (4 ≤ 5 ∧ 5 < (frameBytes .v1 64 []).length) ∧ sendable .v2 64 [] ∧
    (3 ≤ 3 ∧ 3 ≠ 6 ∧ 3 ≠ 7 ∧ 8 < (frameBytes .v2 64 []).length) ∧ 7 < 8 ∧
    State.reset.params.holds (flipBit (frameBytes .v1 64 []) 3 0).length = true ∧
    ([] : Buf).length < statedLength .v1 (flipBit (frameBytes .v1 64 []) 3 7) ∧
    ([] : Buf).length < statedLength .v2 (flipBit (frameBytes .v2 64 []) 7 0) ∧
    statedLength .v2 (flipBit (frameBytes .v2 109 [1, 2]) 6 1) < ([1, 2] : Buf).length ∧
    statedLength .v1 (flipBit (frameBytes .v1 105 [105]) 3 0) < ([105] : Buf).length ∧
    res (exec (.unpack .v1 (flipBit (frameBytes .v1 105 [105]) 3 0)) State.reset) = some (.ok (.packet 105 [])) ∧
    res (exec (.unpack .v1 (flipBit (frameBytes .v1 105 [106]) 3 0)) State.reset) = some (.err .checksumError) ∧
    0x24 ∉ (frameBytes .v2 64 []).drop 1 ∧ 0x24 ∈ (frameBytes .v1 64 [0x24]).drop 1 := by
  refine ⟨by simp [sendable], by decide, by simp [sendable], by decide +kernel⟩

theorem test_witness_FlushDiscardsTheArrivedBytes :
    State.reset.flushAnswers = [] ∧
    ({ rxState .v1 [0x6D, 0x24] with flushAnswers := [1] } : State).flushAnswers = ([0x6D] : Buf).length :: [] ∧
    (rxState .v1 [0x6D, 0x24]).rxq = [0x6D] ++ [0x24] ∧ (rxState .v1 [0x6D, 0x24]).rxq.length ≤ 2 := by decide

/-- An operation that ends with a next state, at a state the invariant holds of: the hypotheses of the whole-machine
rules, and of OnlyTheCrcOperationsReadCrcacc and NoOperationReadsOldWorkingRegisters. -/
theorem test_witness_ExecAnswersNext :
    exec .getVer State.reset = .next { State.reset with resLog := [.ok (.version .v1)] } ∧
    (∀ x, Instr.getVer ≠ .crcUpd x) ∧ Instr.getVer ≠ .crcRd :=
  ⟨rfl, (by intro _ h; cases h), by decide⟩

/-- Every error kind a block operation raises ends one: the premises of FailuresLeaveOnlyWhatTheirKindAllows. -/
theorem test_witness_FailuresLeaveOnlyWhatTheirKindAllows :
    res (exec .recv { State.reset with portOpen := false }) = some (.err .portClosed) ∧
    res (exec (.send 102 []) { State.reset with txAnswers := [0] }) = some (.err .writeShort) ∧
    res (exec .recv State.reset) = some (.err .shortRead) ∧
    res (exec .recv (rxState .v1 [0x24, 0x51])) = some (.err .versionMismatch) ∧
    res (exec .recv (rxState .v1 [0x24, 0x4D, 0x21, 0, 0])) = some (.err .remoteError) ∧
    res (exec .recv (rxState .v1 [0x24, 0x4D, 0x3E, 0, 0, 1])) = some (.err .checksumError) ∧
    res (exec (.decodeIntU8 [] 0) State.reset) = some (.err .shortBuffer) ∧
    res (exec (.pack .v1 256 []) State.reset) = some (.err .badOperand) := by decide

theorem test_witness_CodecChecksumPackUnpackArePure : Instr.wellFormed (.encodeIntI64 (-1) []) = true := by decide

theorem test_witness_OnlyARecvThatNeverReturnsStopsTheBlock :
    Instr.wellFormed .recv = true ∧ State.reset.params.bufCap = none ∧ ReadAnswer.never ∉ State.reset.rxAnswers ∧
    State.reset.rxTail = [] ∧ 0x24 ∈ ([0x24] : Buf) ∧
    exec .recv { rxState .v1 [] with rxTail := [0x4D] } = .fault .searchNeverEnds ∧
    exec (.encodeIntU8 256 []) State.reset = .refused .valueOutOfRange ∧
    exec (.encodeIntU8 255 [0]) (withParams { Params.default with bufCap := some 1 }) = .refused .bufferCapacity :=
  ⟨rfl, rfl, by decide, rfl, by decide, rfl, rfl, rfl⟩

/-- The bound itself and one byte short of it, an offset beyond the buffer, an operation of no such bound. -/
theorem test_witness_ShortBufferIsTheBoundsCheckAndNothingElse :
    ((1 : Int) - (0 : Nat) < 2 ∧ ¬ (2 : Int) - (0 : Nat) < 2 ∧ (2 : Int) - (7 : Nat) < 2) ∧
    res (exec (.decodeIntU16 [0xDC] 0) State.reset) = some (.err .shortBuffer) ∧
    res (exec (.decodeFloatI16F64 [0xDC, 0x05] 7 0) State.reset) = some (.err .shortBuffer) := by decide

/-- The invariant holds of a state whose next step ends. -/
theorem test_witness_EveryStepKeepsTheInvariant : ∃ s t : State, Invariant s ∧ step s = .next t :=
  ⟨State.reset.present (.command ⟨0x70, [.version .v2]⟩), _,
    ⟨rfl, rfl, by decide, ⟨[], rfl, by simp, by simp⟩, by decide⟩, rfl⟩

end Sys2Proof.Tests
end

section
/-! PROOFS. DECODE_INT (spec/40_codec.md R90 to R99): what the operation answers, once for all eight types, and the
unsigned readings of one, two, four and eight bytes. -/

namespace Sys2Proof.Machine

open Sys2Proof.Safety

theorem exec_decodeIntOf_short (T : IntType) {buf : Buf} {offset : Nat} (s : State)
    (h : buf.length < offset + T.size) :
    exec (decodeIntOf T buf offset) s = .next { s with resLog := s.resLog ++ [.err .shortBuffer] } := by
  rw [exec_decodeIntOf, decodeInt, fetchInt_short h]
  exact raise_eq .shortBuffer s

theorem exec_decodeIntOf_mid (T : IntType) (p b q : Buf) (s : State) (hb : b.length = T.size) :
    exec (decodeIntOf T (p ++ b ++ q) p.length) s =
      .next { s with resLog := s.resLog ++ [.ok (.int (valueOf T b))] } := by
  rw [exec_decodeIntOf, decodeInt, fetchInt_mid T p b q hb]
  exact ret_eq rfl

theorem valueOf_unsigned {T : IntType} (hT : T.signed = false) (b : Buf) : valueOf T b = (leUint b : Int) := by
  simp [valueOf, hT]

/-- An unsigned type reads the bytes at the offset as the number `u` they stand for, little-endian. -/
theorem exec_decodeIntOf_unsigned {T : IntType} (hT : T.signed = false) (p q : Buf) {b : Buf} {u : Nat} (s : State)
    (hb : b.length = T.size) (hu : leUint b = u) :
    exec (decodeIntOf T (p ++ b ++ q) p.length) s = .next { s with resLog := s.resLog ++ [.ok (.int u)] } := by
  rw [exec_decodeIntOf_mid T p b q s hb, valueOf_unsigned hT, hu]

theorem leUint_one (b0 : Byte) : leUint [b0] = b0.toNat := by
  simp [leUint]

theorem leUint_two (b0 b1 : Byte) : leUint [b0, b1] = b0.toNat + b1.toNat * 2 ^ 8 := by
  simp only [leUint]; omega

theorem leUint_four (b0 b1 b2 b3 : Byte) : leUint [b0, b1, b2, b3] =
    b0.toNat + b1.toNat * 2 ^ 8 + b2.toNat * 2 ^ 16 + b3.toNat * 2 ^ 24 := by
  simp only [leUint]; omega

theorem leUint_eight (b0 b1 b2 b3 b4 b5 b6 b7 : Byte) : leUint [b0, b1, b2, b3, b4, b5, b6, b7] =
    b0.toNat + b1.toNat * 2 ^ 8 + b2.toNat * 2 ^ 16 + b3.toNat * 2 ^ 24 +
      b4.toNat * 2 ^ 32 + b5.toNat * 2 ^ 40 + b6.toNat * 2 ^ 48 + b7.toNat * 2 ^ 56 := by
  simp only [leUint]; omega

end Sys2Proof.Machine

namespace Sys2Proof.Proofs

open Sys2Proof Sys2Proof.Machine Sys2Proof.Safety

/-- Settles O8: for each of the four types the opcode decodes by computation, the bytes at the offset are the number
they stand for, and a buffer with fewer bytes behind the offset fails the bounds check. -/
theorem decodeIntUnsignedReadsLittleEndian : Obligations.DecodeIntUnsignedReadsLittleEndian := by
  intro p q buf offset b0 b1 b2 b3 b4 b5 b6 b7 s
  refine ⟨rfl, ?u8, exec_decodeIntOf_short .u8 s, rfl, ?u16, exec_decodeIntOf_short .u16 s,
    rfl, ?u32, exec_decodeIntOf_short .u32 s, rfl, ?u64, exec_decodeIntOf_short .u64 s⟩
  case u8 => exact exec_decodeIntOf_unsigned (T := .u8) rfl p q s rfl (leUint_one b0)
  case u16 => exact exec_decodeIntOf_unsigned (T := .u16) rfl p q s rfl (leUint_two b0 b1)
  case u32 => exact exec_decodeIntOf_unsigned (T := .u32) rfl p q s rfl (leUint_four b0 b1 b2 b3)
  case u64 => exact exec_decodeIntOf_unsigned (T := .u64) rfl p q s rfl (leUint_eight b0 b1 b2 b3 b4 b5 b6 b7)

end Sys2Proof.Proofs
end

section
/-! PROOFS. SETVER and GETVER (spec/44_control.md R200, R201): their next states. -/

namespace Sys2Proof.Machine

/-- R200: the result is `none`, which fits any block, so SETVER always ends. -/
theorem exec_setVer (v : Version) (s : State) :
    exec (.setVer v) s = .next { s with ver := v, resLog := s.resLog ++ [.ok .none] } :=
  ret_eq (v := .none) (s := { s with ver := v }) rfl

/-- R201: a version fits any block, so GETVER always ends. -/
theorem exec_getVer (s : State) :
    exec .getVer s = .next { s with resLog := s.resLog ++ [.ok (.version s.ver)] } :=
  ret_eq (v := .version s.ver) rfl

end Sys2Proof.Machine

namespace Sys2Proof.Proofs

open Sys2Proof Sys2Proof.Machine Sys2Proof.Safety

/-- Settles O47: both opcodes decode by computation, the next states are those of `exec_setVer` and `exec_getVer`, and
MAXP after SETVER is the maximum of the version written. -/
theorem setverAndGetver : Obligations.SetverAndGetver := by
  intro v s
  refine ⟨rfl, rfl, exec_setVer v s, ?maxp, exec_getVer s⟩
  case maxp =>
    cases v with
    | v1 => exact State.maxp_v1 _ rfl
    | v2 => exact State.maxp_v2 _ rfl

end Sys2Proof.Proofs
end

section
/-! PROOFS. The decoder and the step (spec/30_encoding.md R71 to R74, 00_scope.md R12, 70_reset_and_hazards.md R240,
R241): each operand form reads back what the encoder writes, a byte outside the map is illegal, and what a step does
with each kind of input. -/

namespace Sys2Proof

/-- `c` is the command a host presents for `i`, and `i` is one it can write down. -/
def Presents (c : Command) (i : Instr) : Prop := i.wellFormed = true ∧ encode i = c

namespace Decode

variable {op : Byte} {ops : List Operand} {i : Instr}

theorem bufOffset_presents {k : Buf → Nat → Instr} (h : bufOffset k ops = .instr i)
    (hk : ∀ b n, Presents ⟨op, [.buf b, .offset n]⟩ (k b n)) : Presents ⟨op, ops⟩ i := by
  unfold bufOffset at h
  split at h <;> cases h
  exact hk _ _

theorem intBuf_presents {T : IntType} {k : Int → Buf → Instr} (h : intBuf T k ops = .instr i)
    (hk : ∀ v b, T.inRange v = true → Presents ⟨op, [.int v, .buf b]⟩ (k v b)) : Presents ⟨op, ops⟩ i := by
  unfold intBuf at h
  split at h
  · split at h <;> cases h
    exact hk _ _ ‹_›
  · cases h

theorem bufOffsetF32_presents {k : Buf → Nat → F32 → Instr} (h : bufOffsetF32 k ops = .instr i)
    (hk : ∀ b n x, Presents ⟨op, [.buf b, .offset n, .f32 x]⟩ (k b n x)) : Presents ⟨op, ops⟩ i := by
  unfold bufOffsetF32 at h
  split at h <;> cases h
  exact hk _ _ _

theorem bufOffsetF64_presents {k : Buf → Nat → F64 → Instr} (h : bufOffsetF64 k ops = .instr i)
    (hk : ∀ b n x, Presents ⟨op, [.buf b, .offset n, .f64 x]⟩ (k b n x)) : Presents ⟨op, ops⟩ i := by
  unfold bufOffsetF64 at h
  split at h <;> cases h
  exact hk _ _ _

theorem oneBuf_presents {k : Buf → Instr} (h : oneBuf k ops = .instr i)
    (hk : ∀ b, Presents ⟨op, [.buf b]⟩ (k b)) : Presents ⟨op, ops⟩ i := by
  unfold oneBuf at h
  split at h <;> cases h
  exact hk _

theorem oneByte_presents {k : Byte → Instr} (h : oneByte k ops = .instr i)
    (hk : ∀ b, Presents ⟨op, [.byte b]⟩ (k b)) : Presents ⟨op, ops⟩ i := by
  unfold oneByte at h
  split at h <;> cases h
  exact hk _

theorem versionCodeBuf_presents {k : Version → Code → Buf → Instr} (h : versionCodeBuf k ops = .instr i)
    (hk : ∀ v c b, Presents ⟨op, [.version v, .code c, .buf b]⟩ (k v c b)) : Presents ⟨op, ops⟩ i := by
  unfold versionCodeBuf at h
  split at h <;> cases h
  exact hk _ _ _

theorem codeBuf_presents {k : Code → Buf → Instr} (h : codeBuf k ops = .instr i)
    (hk : ∀ c b, Presents ⟨op, [.code c, .buf b]⟩ (k c b)) : Presents ⟨op, ops⟩ i := by
  unfold codeBuf at h
  split at h <;> cases h
  exact hk _ _

theorem versionBuf_presents {k : Version → Buf → Instr} (h : versionBuf k ops = .instr i)
    (hk : ∀ v b, Presents ⟨op, [.version v, .buf b]⟩ (k v b)) : Presents ⟨op, ops⟩ i := by
  unfold versionBuf at h
  split at h <;> cases h
  exact hk _ _

theorem oneVersion_presents {k : Version → Instr} (h : oneVersion k ops = .instr i)
    (hk : ∀ v, Presents ⟨op, [.version v]⟩ (k v)) : Presents ⟨op, ops⟩ i := by
  unfold oneVersion at h
  split at h <;> cases h
  exact hk _

theorem noOperands_presents {j : Instr} (h : noOperands j ops = .instr i) (hj : Presents ⟨op, []⟩ j) :
    Presents ⟨op, ops⟩ i := by
  unfold noOperands at h
  split at h <;> cases h
  exact hj

end Decode

theorem byte_of_toNat {b : Byte} {n : Nat} (h : b.toNat = n) : b = BitVec.ofNat 8 n := by
  rw [← h, BitVec.ofNat_toNat, BitVec.setWidth_eq]

/-- Row by row of R73, grouped by the operand forms: what the decoder reads is what the encoder writes. -/
theorem presents_of_decode {c : Command} {i : Instr} (h : decode c = .instr i) : Presents c i := by
  obtain ⟨op, ops⟩ := c
  unfold decode at h
  split at h
  case h_1 e | h_2 e | h_3 e | h_4 e | h_5 e | h_6 e | h_7 e | h_8 e =>
    obtain rfl := byte_of_toNat e; exact Decode.bufOffset_presents h fun _ _ => ⟨rfl, rfl⟩
  case h_9 e | h_10 e | h_11 e | h_12 e | h_13 e | h_14 e | h_15 e | h_16 e =>
    obtain rfl := byte_of_toNat e; exact Decode.intBuf_presents h fun _ _ hv => ⟨hv, rfl⟩
  case h_17 e | h_18 e | h_19 e | h_20 e | h_21 e | h_22 e | h_23 e | h_24 e =>
    obtain rfl := byte_of_toNat e; exact Decode.bufOffsetF32_presents h fun _ _ _ => ⟨rfl, rfl⟩
  case h_25 e | h_26 e | h_27 e | h_28 e | h_29 e | h_30 e | h_31 e | h_32 e =>
    obtain rfl := byte_of_toNat e; exact Decode.bufOffsetF64_presents h fun _ _ _ => ⟨rfl, rfl⟩
  case h_33 e | h_34 e =>
    obtain rfl := byte_of_toNat e; exact Decode.oneBuf_presents h fun _ => ⟨rfl, rfl⟩
  case h_36 e =>
    obtain rfl := byte_of_toNat e; exact Decode.oneByte_presents h fun _ => ⟨rfl, rfl⟩
  case h_38 e =>
    obtain rfl := byte_of_toNat e; exact Decode.versionCodeBuf_presents h fun _ _ _ => ⟨rfl, rfl⟩
  case h_39 e =>
    obtain rfl := byte_of_toNat e; exact Decode.codeBuf_presents h fun _ _ => ⟨rfl, rfl⟩
  case h_40 e =>
    obtain rfl := byte_of_toNat e; exact Decode.versionBuf_presents h fun _ _ => ⟨rfl, rfl⟩
  case h_42 e =>
    obtain rfl := byte_of_toNat e; exact Decode.oneVersion_presents h fun _ => ⟨rfl, rfl⟩
  case h_35 e | h_37 e | h_41 e | h_43 e | h_44 e | h_45 e =>
    obtain rfl := byte_of_toNat e; exact Decode.noOperands_presents h ⟨rfl, rfl⟩
  case h_46 => cases h

/-- The round trips of the 45 operations, put together. -/
theorem decode_encode {i : Instr} : Laws.RoundTrip.Statement i := by
  cases i with
  | decodeIntU8 b n => exact Laws.RoundTrip.decodeIntU8 b n
  | decodeIntI8 b n => exact Laws.RoundTrip.decodeIntI8 b n
  | decodeIntU16 b n => exact Laws.RoundTrip.decodeIntU16 b n
  | decodeIntI16 b n => exact Laws.RoundTrip.decodeIntI16 b n
  | decodeIntU32 b n => exact Laws.RoundTrip.decodeIntU32 b n
  | decodeIntI32 b n => exact Laws.RoundTrip.decodeIntI32 b n
  | decodeIntU64 b n => exact Laws.RoundTrip.decodeIntU64 b n
  | decodeIntI64 b n => exact Laws.RoundTrip.decodeIntI64 b n
  | encodeIntU8 v b => exact Laws.RoundTrip.encodeIntU8 v b
  | encodeIntI8 v b => exact Laws.RoundTrip.encodeIntI8 v b
  | encodeIntU16 v b => exact Laws.RoundTrip.encodeIntU16 v b
  | encodeIntI16 v b => exact Laws.RoundTrip.encodeIntI16 v b
  | encodeIntU32 v b => exact Laws.RoundTrip.encodeIntU32 v b
  | encodeIntI32 v b => exact Laws.RoundTrip.encodeIntI32 v b
  | encodeIntU64 v b => exact Laws.RoundTrip.encodeIntU64 v b
  | encodeIntI64 v b => exact Laws.RoundTrip.encodeIntI64 v b
  | decodeFloatU8F32 b n x => exact Laws.RoundTrip.decodeFloatU8F32 b n x
  | decodeFloatI8F32 b n x => exact Laws.RoundTrip.decodeFloatI8F32 b n x
  | decodeFloatU16F32 b n x => exact Laws.RoundTrip.decodeFloatU16F32 b n x
  | decodeFloatI16F32 b n x => exact Laws.RoundTrip.decodeFloatI16F32 b n x
  | decodeFloatU32F32 b n x => exact Laws.RoundTrip.decodeFloatU32F32 b n x
  | decodeFloatI32F32 b n x => exact Laws.RoundTrip.decodeFloatI32F32 b n x
  | decodeFloatU64F32 b n x => exact Laws.RoundTrip.decodeFloatU64F32 b n x
  | decodeFloatI64F32 b n x => exact Laws.RoundTrip.decodeFloatI64F32 b n x
  | decodeFloatU8F64 b n x => exact Laws.RoundTrip.decodeFloatU8F64 b n x
  | decodeFloatI8F64 b n x => exact Laws.RoundTrip.decodeFloatI8F64 b n x
  | decodeFloatU16F64 b n x => exact Laws.RoundTrip.decodeFloatU16F64 b n x
  | decodeFloatI16F64 b n x => exact Laws.RoundTrip.decodeFloatI16F64 b n x
  | decodeFloatU32F64 b n x => exact Laws.RoundTrip.decodeFloatU32F64 b n x
  | decodeFloatI32F64 b n x => exact Laws.RoundTrip.decodeFloatI32F64 b n x
  | decodeFloatU64F64 b n x => exact Laws.RoundTrip.decodeFloatU64F64 b n x
  | decodeFloatI64F64 b n x => exact Laws.RoundTrip.decodeFloatI64F64 b n x
  | xor8Buf b => exact Laws.RoundTrip.xor8Buf b
  | crc8Buf b => exact Laws.RoundTrip.crc8Buf b
  | crcClr => exact Laws.RoundTrip.crcClr
  | crcUpd x => exact Laws.RoundTrip.crcUpd x
  | crcRd => exact Laws.RoundTrip.crcRd
  | pack v c b => exact Laws.RoundTrip.pack v c b
  | send c b => exact Laws.RoundTrip.send c b
  | unpack v b => exact Laws.RoundTrip.unpack v b
  | recv => exact Laws.RoundTrip.recv
  | setVer v => exact Laws.RoundTrip.setVer v
  | getVer => exact Laws.RoundTrip.getVer
  | getMaxp => exact Laws.RoundTrip.getMaxp
  | flush => exact Laws.RoundTrip.flush

/-- A byte in no row of R73 is illegal, whatever the operands (R74). -/
theorem decode_illegal {op : Byte} (ops : List Operand)
    (h : op.toNat ≤ 0x0F ∨ (0x18 ≤ op.toNat ∧ op.toNat ≤ 0x1F) ∨ (0x28 ≤ op.toNat ∧ op.toNat ≤ 0x2F) ∨
      (0x45 ≤ op.toNat ∧ op.toNat ≤ 0x4F) ∨ (0x52 ≤ op.toNat ∧ op.toNat ≤ 0x5F) ∨
      (0x62 ≤ op.toNat ∧ op.toNat ≤ 0x6F) ∨ 0x74 ≤ op.toNat) :
    decode ⟨op, ops⟩ = .error .illegalOpcode := by
  unfold decode
  split
  case h_46 => rfl
  all_goals rename_i e; change op.toNat = _ at e; exfalso; omega

end Sys2Proof

namespace Sys2Proof.Machine

/-- A step takes the input at the head of CMD and runs it at the state without it. -/
theorem step_eq {s : State} {i : Input} {rest : List Input} (h : s.pending = i :: rest) :
    step s = runInput i { s with pending := rest } := by
  simp only [step, State.takeInput, h]

theorem step_idle {s : State} (h : s.pending = []) : step s = .next s := by
  simp only [step, State.takeInput, h]

/-- R74: a command that is no operation of the block is answered, and nothing else happens. -/
theorem step_illegal {s : State} {c : Command} {rest : List Input} (h : s.pending = .command c :: rest)
    (hd : s.params.decodes c = .error .illegalOpcode) :
    step s = .next { s with pending := rest, resLog := s.resLog ++ [.err .badOperand] } := by
  simp only [step_eq h, runInput, runCommand, hd, rejectCommand, raise_eq]

theorem step_instr {s : State} {c : Command} {rest : List Input} {i : Instr} (h : s.pending = .command c :: rest)
    (hd : s.params.decodes c = .instr i) : step s =
      if s.params.admits c then exec i { s with pending := rest } else .refused .operandBeyondParameters := by
  simp only [step_eq h, runInput, runCommand, hd]

/-- At the defaults of BUFCAP and OFFW every command can be written down. -/
theorem Params.admits_unbounded {P : Params} (hb : P.bufCap = none) (ho : P.offW = none) (c : Command) :
    P.admits c = true := by
  refine List.all_eq_true.2 fun o _ => ?_
  cases o <;> simp [Operand.admitted, Params.holds, hb, ho]

/-- `MAXP` is at all times the maximum of `VER` (10_state.md R22). -/
theorem State.maxp_eq (s : State) : s.maxp = match s.ver with | .v1 => 255 | .v2 => 65535 := by
  cases hv : s.ver with
  | v1 => exact State.maxp_v1 s hv
  | v2 => exact State.maxp_v2 s hv

end Sys2Proof.Machine

namespace Sys2Proof.Proofs

open Sys2Proof Sys2Proof.Machine Sys2Proof.Safety

/-- Settles O1: one direction row by row (`presents_of_decode`), the other is the round trip of each operation. -/
theorem decoderAcceptsExactlyTheEncodedOperations : Obligations.DecoderAcceptsExactlyTheEncodedOperations := by
  intro c i
  refine ⟨presents_of_decode, ?_⟩
  rintro ⟨hw, rfl⟩
  exact decode_encode hw

/-- Settles O2: the words are closed terms, and the decoder computes. -/
theorem wordsOfTheOpcodeMapDecode : Obligations.WordsOfTheOpcodeMapDecode :=
  ⟨rfl, rfl, rfl, rfl, rfl, rfl, rfl, rfl, rfl, rfl⟩

/-- Settles O3: the byte is illegal for the whole map, and the block's own decoder takes rows away and nothing more. -/
theorem illegalOpcodeAnswersBadOperand : Obligations.IllegalOpcodeAnswersBadOperand := by
  intro op operands rest s hp hgap
  refine step_illegal hp ?_
  rcases s.params.decodes_cases ⟨op, operands⟩ with ⟨-, h⟩ | ⟨-, h⟩
  · rw [h]; exact decode_illegal operands hgap
  · exact h

/-- Settles O4: `absent` says that the block does not offer the opcode (`Params.offers_eq_false_iff`). -/
theorem stepRunsTheDecodedCommand : Obligations.StepRunsTheDecodedCommand := by
  intro c rest s hp absent
  have habs : absent ↔ s.params.offers c.op = false := Params.offers_eq_false_iff.symm
  rw [habs]
  refine ⟨fun i hd hoff => ?_, fun hoff => ?_, fun hb ho => Params.admits_unbounded hb ho c, fun hP => ?_⟩
  · rw [Bool.not_eq_false] at hoff
    have hdec : s.params.decodes c = .instr i := by rw [Params.decodes, if_pos hoff, hd]
    rw [step_instr hp hdec]
    exact ⟨fun ha => if_pos ha, fun ha => if_neg (by rw [ha]; decide)⟩
  · exact step_illegal hp (by rw [Params.decodes, hoff]; rfl)
  · rw [hP, Params.offers_default]; decide

/-- Settles O5: the working registers after the reset are those of `RxRegs.reset`. -/
theorem resetSetsBlockStateAndNothingElse : Obligations.ResetSetsBlockStateAndNothingElse := by
  intro v rest s hp
  exact ⟨RxRegs.reset, _, step_eq hp, rfl, rfl, State.maxp_eq _⟩

/-- Settles O6. -/
theorem linkInputsChangeTheEnvironmentOnly : Obligations.LinkInputsChangeTheEnvironmentOnly := by
  intro s rest
  exact ⟨fun _ h => step_eq h, fun _ h => step_eq h, fun _ h => step_eq h, step_idle⟩

/-- Settles O7: each field of the state after construction is the one R31 names. -/
theorem stateAfterResetIsTheSpecs : Obligations.StateAfterResetIsTheSpecs :=
  ⟨fun _ => ⟨rfl, rfl, rfl, State.maxp_eq _, rfl⟩, rfl⟩

end Sys2Proof.Proofs
end

section
/-! PROOFS. The codec (spec/40_codec.md R90 to R118): DECODE_INT of the signed types and at several widths, ENCODE_INT,
the two round trips, and DECODE_FLOAT, each once for all eight types. -/

namespace Sys2Proof

theorem IntType.size_pos (T : IntType) : 0 < T.size := by cases T <;> decide

theorem IntType.inRange_iff {T : IntType} {v : Int} : T.inRange v = true ↔ T.minVal ≤ v ∧ v ≤ T.maxVal := by
  simp [IntType.inRange]

end Sys2Proof

namespace Sys2Proof.Machine

open Sys2Proof.Safety

theorem valueOf_signed {T : IntType} (hT : T.signed = true) {b : Buf} (hb : b.length = T.size) :
    valueOf T b = twosComplement T.size (leUint b) := by
  rw [valueOf, if_pos hT, leSint, hb, twosComplement]

/-- A signed type reads the bytes at the offset as the two's complement of the number `u` they stand for. -/
theorem exec_decodeIntOf_signed {T : IntType} (hT : T.signed = true) (p q : Buf) {b : Buf} {u : Nat} (s : State)
    (hb : b.length = T.size) (hu : leUint b = u) : exec (decodeIntOf T (p ++ b ++ q) p.length) s =
      .next { s with resLog := s.resLog ++ [.ok (.int (twosComplement T.size u))] } := by
  rw [exec_decodeIntOf_mid T p b q s hb, valueOf_signed hT hb, hu]

theorem exec_decodeIntOf_full (T : IntType) {buf : Buf} {k : Nat} (s : State) (h : k + T.size ≤ buf.length) :
    exec (decodeIntOf T buf k) s =
      .next { s with resLog := s.resLog ++ [.ok (.int (valueOf T (memRead buf k T.size)))] } := by
  rw [exec_decodeIntOf, decodeInt, fetchInt_full h]
  exact ret_eq rfl

/-- The first `n` bytes of a little-endian number are its value modulo `2^(8n)`. -/
theorem leUint_take (n : Nat) (b : Buf) : leUint (b.take n) = leUint b % 256 ^ n := by
  induction n generalizing b with
  | zero => simp [leUint, Nat.mod_one]
  | succ n ih =>
    cases b with
    | nil => simp [leUint]
    | cons x xs =>
      have hx := x.isLt
      rw [List.take_succ_cons, leUint, leUint, ih, pow_succ, mul_comm (256 ^ n), Nat.mod_mul,
        show (x.toNat + 256 * leUint xs) / 256 = leUint xs by omega]
      omega

theorem memRead_narrow (buf : Buf) (k : Nat) {m n : Nat} (h : m ≤ n) :
    memRead buf k m = (memRead buf k n).take m := by
  rw [memRead, memRead, List.take_take, Nat.min_eq_left h]

/-- R44: an unsigned type reads, at any offset, the low bits of what a wider one reads there. -/
theorem exec_decodeIntOf_narrow {T : IntType} (hT : T.signed = false) {n : Nat} (hn : T.size ≤ n) {buf : Buf} {k : Nat}
    (s : State) (h : k + n ≤ buf.length) : exec (decodeIntOf T buf k) s =
      .next { s with resLog := s.resLog ++ [.ok (.int ((leUint (memRead buf k n) % 256 ^ T.size : Nat)))] } := by
  rw [exec_decodeIntOf_full T s (by omega), valueOf_unsigned hT, memRead_narrow buf k hn, leUint_take]

/-! ### ENCODE_INT -/

theorem wellFormed_encodeIntOf (T : IntType) (v : Int) (out : Buf) :
    (encodeIntOf T v out).wellFormed = T.inRange v := by
  cases T <;> rfl

theorem leImage_eq_map (n u : Nat) : leImage n u = (List.range n).map (byteOf u) := by
  induction n generalizing u with
  | zero => rfl
  | succ n ih =>
    have hdiv : ∀ k, byteOf (u / 256) k = byteOf u (k + 1) := fun k => by
      rw [byteOf, byteOf, Nat.div_div_eq_div_mul, pow_succ']
    have h0 : BitVec.ofNat 8 u = byteOf u 0 := by simp [byteOf]
    simp [leImage, ih, List.range_succ_eq_map, hdiv, h0, Function.comp_def]

theorem leBytes_eq (T : IntType) (v : Int) : leBytes T v = (List.range T.size).map (byteOf (imageOf T.size v)) :=
  leImage_eq_map _ _

theorem exec_encodeIntOf_inRange {T : IntType} {v : Int} {out : Buf} {s : State} (hv : T.inRange v = true)
    (hroom : s.params.holds (out.length + T.size) = true) :
    exec (encodeIntOf T v out) s = .next { s with resLog := s.resLog ++ [.ok (.grown (out ++ leBytes T v))] } := by
  rw [exec_encodeIntOf, encodeInt, if_pos hv]
  refine ret_eq ?_
  simpa [Value.fits, memWrite, leBytes, leImage_length] using hroom

/-- R109: the command of an ENCODE_INT in range decodes, and the operation appends the image byte by byte. -/
theorem encodeIntOf_appends {T : IntType} {v : Int} {out : Buf} {s : State} (hv : T.inRange v = true)
    (hroom : s.params.holds (out.length + T.size) = true) :
    decode (encode (encodeIntOf T v out)) = .instr (encodeIntOf T v out) ∧
    exec (encodeIntOf T v out) s = .next { s with
      resLog := s.resLog ++ [.ok (.grown (out ++ (List.range T.size).map (byteOf (imageOf T.size v))))] } :=
  ⟨decode_encode (by rw [wellFormed_encodeIntOf, hv]), by rw [exec_encodeIntOf_inRange hv hroom, leBytes_eq]⟩

theorem imageOf_natCast (n u : Nat) : imageOf n u = u := by simp [imageOf]

/-- The same for an unsigned type, whose image is the value itself. -/
theorem encodeIntOf_appends_nat {T : IntType} {u : Nat} {out : Buf} {s : State} (hu : T.inRange u = true)
    (hroom : s.params.holds (out.length + T.size) = true) :
    decode (encode (encodeIntOf T u out)) = .instr (encodeIntOf T u out) ∧
    exec (encodeIntOf T u out) s = .next { s with
      resLog := s.resLog ++ [.ok (.grown (out ++ (List.range T.size).map (byteOf u)))] } := by
  have h := encodeIntOf_appends hu hroom
  rwa [imageOf_natCast] at h

theorem inRange_unsigned {T : IntType} (hT : T.signed = false) {u : Nat} (hu : u < 2 ^ (8 * T.size)) :
    T.inRange u = true := by
  have h : (u : Int) < 2 ^ (8 * T.size) := by exact_mod_cast hu
  simp only [IntType.inRange_iff, IntType.minVal, IntType.maxVal, hT]
  exact ⟨Int.natCast_nonneg u, Int.le_sub_one_of_lt h⟩

theorem inRange_signed {T : IntType} (hT : T.signed = true) {v : Int} (hlo : -2 ^ (8 * T.size - 1) ≤ v)
    (hhi : v < 2 ^ (8 * T.size - 1)) : T.inRange v = true := by
  simp only [IntType.inRange_iff, IntType.minVal, IntType.maxVal, hT]
  exact ⟨hlo, Int.le_sub_one_of_lt hhi⟩

/-! ### Two's complement -/

theorem two_pow_bits {n : Nat} (hn : 0 < n) : 2 ^ (8 * n) = 2 * 2 ^ (8 * n - 1) := by
  rw [← pow_succ']; congr 1; omega

theorem pow_256 (n : Nat) : 256 ^ n = 2 ^ (8 * n) := by rw [pow_mul]; rfl

theorem two_pow_cast (n : Nat) : (2 : Int) ^ n = ((2 ^ n : Nat) : Int) := by push_cast; rfl

theorem imageOf_lt {n : Nat} (hn : 0 < n) {v : Int} (hlo : -2 ^ (8 * n - 1) ≤ v) (hhi : v < 2 ^ (8 * n)) :
    imageOf n v < 2 ^ (8 * n) := by
  have := two_pow_bits hn
  simp only [two_pow_cast] at hlo hhi
  simp only [imageOf, two_pow_cast]
  split <;> omega

theorem twosComplement_imageOf {n : Nat} (hn : 0 < n) {v : Int} (hlo : -2 ^ (8 * n - 1) ≤ v)
    (hhi : v < 2 ^ (8 * n - 1)) : twosComplement n (imageOf n v) = v := by
  have := two_pow_bits hn
  simp only [two_pow_cast] at hlo hhi
  simp only [twosComplement, imageOf, two_pow_cast]
  split <;> split <;> omega

theorem imageOf_twosComplement {n u : Nat} (hu : u < 2 ^ (8 * n)) : imageOf n (twosComplement n u) = u := by
  simp only [twosComplement, imageOf, two_pow_cast]
  split <;> split <;> omega

theorem twosComplement_mem {n u : Nat} (hn : 0 < n) (hu : u < 2 ^ (8 * n)) :
    -2 ^ (8 * n - 1) ≤ twosComplement n u ∧ twosComplement n u < 2 ^ (8 * n - 1) := by
  have := two_pow_bits hn
  simp only [twosComplement, two_pow_cast]
  split <;> omega

/-- R118, one way: reading the image of a value in range gives the value. -/
theorem valueOf_leBytes {T : IntType} {v : Int} (hv : T.inRange v = true) : valueOf T (leBytes T v) = v := by
  have hpos := T.size_pos
  obtain ⟨hlo, hhi⟩ := IntType.inRange_iff.1 hv
  have hread {w : Int} (h : imageOf T.size w < 2 ^ (8 * T.size)) : leUint (leBytes T w) = imageOf T.size w := by
    rw [← pow_256] at h
    exact (leUint_leImage _ _).trans (Nat.mod_eq_of_lt h)
  cases hT : T.signed with
  | false =>
    simp only [IntType.minVal, IntType.maxVal, hT] at hlo hhi
    obtain ⟨u, rfl⟩ := Int.eq_ofNat_of_zero_le hlo
    have hu : u < 2 ^ (8 * T.size) := by exact_mod_cast Int.lt_of_le_sub_one hhi
    rw [valueOf_unsigned hT, hread (by rwa [imageOf_natCast]), imageOf_natCast]
  | true =>
    simp only [IntType.minVal, IntType.maxVal, hT] at hlo hhi
    have hhi' : v < 2 ^ (8 * T.size - 1) := Int.lt_of_le_sub_one hhi
    have hle : (2 : Int) ^ (8 * T.size - 1) ≤ 2 ^ (8 * T.size) := pow_le_pow_right₀ (by decide) (by omega)
    rw [valueOf_signed hT (b := leBytes T v) (leImage_length _ _), hread (imageOf_lt hpos hlo (hhi'.trans_le hle)),
      twosComplement_imageOf hpos hlo hhi']

/-- R118, the other way: the value of exactly the type's bytes is in range, and its image is these bytes. -/
theorem leBytes_valueOf {T : IntType} {b : Buf} (hb : b.length = T.size) :
    T.inRange (valueOf T b) = true ∧ leBytes T (valueOf T b) = b := by
  have hlt : leUint b < 2 ^ (8 * T.size) := by rw [← pow_256, ← hb]; exact leUint_lt b
  have himage : leImage T.size (leUint b) = b := by rw [← hb]; exact leImage_leUint b
  cases hT : T.signed with
  | false =>
    rw [valueOf_unsigned hT]
    exact ⟨inRange_unsigned hT hlt, (congrArg (leImage T.size) (imageOf_natCast T.size (leUint b))).trans himage⟩
  | true =>
    rw [valueOf_signed hT hb]
    obtain ⟨hlo, hhi⟩ := twosComplement_mem T.size_pos hlt
    exact ⟨inRange_signed hT hlo hhi, (congrArg (leImage T.size) (imageOf_twosComplement hlt)).trans himage⟩

/-! ### DECODE_FLOAT -/

/-- DECODE_FLOAT.T.F32, the type as an argument. -/
def decodeFloat32Of : IntType → Buf → Nat → F32 → Instr
  | .u8 => .decodeFloatU8F32 | .i8 => .decodeFloatI8F32 | .u16 => .decodeFloatU16F32 | .i16 => .decodeFloatI16F32
  | .u32 => .decodeFloatU32F32 | .i32 => .decodeFloatI32F32 | .u64 => .decodeFloatU64F32 | .i64 => .decodeFloatI64F32

/-- DECODE_FLOAT.T.F64, the type as an argument. -/
def decodeFloat64Of : IntType → Buf → Nat → F64 → Instr
  | .u8 => .decodeFloatU8F64 | .i8 => .decodeFloatI8F64 | .u16 => .decodeFloatU16F64 | .i16 => .decodeFloatI16F64
  | .u32 => .decodeFloatU32F64 | .i32 => .decodeFloatI32F64 | .u64 => .decodeFloatU64F64 | .i64 => .decodeFloatI64F64

theorem exec_decodeFloat32Of (T : IntType) (b : Buf) (k : Nat) (x : F32) (s : State) :
    exec (decodeFloat32Of T b k x) s = decodeFloat32 T b k x s := by cases T <;> rfl

theorem exec_decodeFloat64Of (T : IntType) (b : Buf) (k : Nat) (x : F64) (s : State) :
    exec (decodeFloat64Of T b k x) s = decodeFloat64 T b k x s := by cases T <;> rfl

section
variable {F : Type} (cvt : IntType → Int → F) (fmul : F → F → F) (val : F → Value) {T : IntType} (scale : F) (s : State)

theorem decodeFloat_short {buf : Buf} {k : Nat} (h : buf.length < k + T.size) :
    decodeFloat cvt fmul val T buf k scale s = .next { s with resLog := s.resLog ++ [.err .shortBuffer] } := by
  rw [decodeFloat, fetchInt_short h]
  exact raise_eq .shortBuffer s

/-- R100: the bytes at the offset stand for `i`, which is cast and then multiplied by the scale. -/
theorem decodeFloat_mid (p q : Buf) {b : Buf} {i : Int} (hb : b.length = T.size) (hi : valueOf T b = i)
    (hfits : ∀ x, (val x).fits s.params = true) : decodeFloat cvt fmul val T (p ++ b ++ q) p.length scale s =
      .next { s with resLog := s.resLog ++ [.ok (val (fmul (cvt T i) scale))] } := by
  rw [decodeFloat, fetchInt_mid T p b q hb, hi]
  exact ret_eq (hfits _)

end

theorem exec_decodeFloat32Of_short (T : IntType) {buf : Buf} {k : Nat} (x : F32) (s : State)
    (h : buf.length < k + T.size) :
    exec (decodeFloat32Of T buf k x) s = .next { s with resLog := s.resLog ++ [.err .shortBuffer] } := by
  rw [exec_decodeFloat32Of]
  exact decodeFloat_short _ _ _ x s h

theorem exec_decodeFloat64Of_short (T : IntType) {buf : Buf} {k : Nat} (x : F64) (s : State)
    (h : buf.length < k + T.size) :
    exec (decodeFloat64Of T buf k x) s = .next { s with resLog := s.resLog ++ [.err .shortBuffer] } := by
  rw [exec_decodeFloat64Of]
  exact decodeFloat_short _ _ _ x s h

theorem exec_decodeFloat32Of_mid {T : IntType} (p q : Buf) {b : Buf} {i : Int} (x : F32) (s : State)
    (hb : b.length = T.size) (hi : valueOf T b = i) : exec (decodeFloat32Of T (p ++ b ++ q) p.length x) s =
      .next { s with resLog := s.resLog ++ [.ok (.f32 (s.params.floats.fmul32 (s.params.floats.cvt32 T i) x))] } := by
  rw [exec_decodeFloat32Of]
  exact decodeFloat_mid _ _ _ x s p q hb hi fun _ => rfl

theorem exec_decodeFloat64Of_mid {T : IntType} (p q : Buf) {b : Buf} {i : Int} (x : F64) (s : State)
    (hb : b.length = T.size) (hi : valueOf T b = i) : exec (decodeFloat64Of T (p ++ b ++ q) p.length x) s =
      .next { s with resLog := s.resLog ++ [.ok (.f64 (s.params.floats.fmul64 (s.params.floats.cvt64 T i) x))] } := by
  rw [exec_decodeFloat64Of]
  exact decodeFloat_mid _ _ _ x s p q hb hi fun _ => rfl

theorem valueOf_unsigned_eq {T : IntType} (hT : T.signed = false) {b : Buf} {u : Nat} (hu : leUint b = u) :
    valueOf T b = (u : Int) := by rw [valueOf_unsigned hT, hu]

theorem valueOf_signed_eq {T : IntType} (hT : T.signed = true) {b : Buf} {u : Nat} (hb : b.length = T.size)
    (hu : leUint b = u) : valueOf T b = twosComplement T.size u := by rw [valueOf_signed hT hb, hu]

end Sys2Proof.Machine

namespace Sys2Proof.Proofs

open Sys2Proof Sys2Proof.Machine Sys2Proof.Safety

/-- Settles O9: as for the unsigned types, with the two's complement reading of the same bytes. -/
theorem decodeIntSignedReadsTwosComplement : Obligations.DecodeIntSignedReadsTwosComplement := by
  intro p q buf offset b0 b1 b2 b3 b4 b5 b6 b7 s
  refine ⟨rfl, ?i8, exec_decodeIntOf_short .i8 s, rfl, ?i16, exec_decodeIntOf_short .i16 s,
    rfl, ?i32, exec_decodeIntOf_short .i32 s, rfl, ?i64, exec_decodeIntOf_short .i64 s⟩
  case i8 => exact exec_decodeIntOf_signed (T := .i8) rfl p q s rfl (leUint_one b0)
  case i16 => exact exec_decodeIntOf_signed (T := .i16) rfl p q s rfl (leUint_two b0 b1)
  case i32 => exact exec_decodeIntOf_signed (T := .i32) rfl p q s rfl (leUint_four b0 b1 b2 b3)
  case i64 => exact exec_decodeIntOf_signed (T := .i64) rfl p q s rfl (leUint_eight b0 b1 b2 b3 b4 b5 b6 b7)

/-- Settles O10: all three are readings of the four bytes at the offset. -/
theorem mixedWidthReadsAgree : Obligations.MixedWidthReadsAgree := by
  intro buf k s h
  refine ⟨leUint (memRead buf k 4), ?_, exec_decodeIntOf_narrow (T := .u16) rfl (by decide) s h,
    exec_decodeIntOf_narrow (T := .u8) rfl (by decide) s h⟩
  have hu32 := exec_decodeIntOf_full .u32 s h
  rwa [valueOf_unsigned rfl] at hu32

/-- Settles O11: an unsigned value below `2^(8n)` is in range, and its image is the value itself. -/
theorem encodeIntUnsignedAppendsLittleEndian : Obligations.EncodeIntUnsignedAppendsLittleEndian := by
  intro u out s
  exact ⟨fun hu hroom => encodeIntOf_appends_nat (T := .u8) (inRange_unsigned rfl hu) hroom,
    fun hu hroom => encodeIntOf_appends_nat (T := .u16) (inRange_unsigned rfl hu) hroom,
    fun hu hroom => encodeIntOf_appends_nat (T := .u32) (inRange_unsigned rfl hu) hroom,
    fun hu hroom => encodeIntOf_appends_nat (T := .u64) (inRange_unsigned rfl hu) hroom⟩

/-- Settles O12: a value between `-2^(8n-1)` and `2^(8n-1) - 1` is in range. -/
theorem encodeIntSignedAppendsTwosComplement : Obligations.EncodeIntSignedAppendsTwosComplement := by
  intro v out s
  exact ⟨fun hlo hhi hroom => encodeIntOf_appends (T := .i8) (inRange_signed rfl hlo hhi) hroom,
    fun hlo hhi hroom => encodeIntOf_appends (T := .i16) (inRange_signed rfl hlo hhi) hroom,
    fun hlo hhi hroom => encodeIntOf_appends (T := .i32) (inRange_signed rfl hlo hhi) hroom,
    fun hlo hhi hroom => encodeIntOf_appends (T := .i64) (inRange_signed rfl hlo hhi) hroom⟩

/-- Settles O13: the image of the value is `leBytes`, and it and `valueOf` undo each other. -/
theorem codecRoundTripsBothWays : Obligations.CodecRoundTripsBothWays := by
  refine ⟨fun T v p q s hv hroom => ?_, fun T b out s hb hroom => ?_⟩
  · have hlen : (leBytes T v).length = T.size := leImage_length _ _
    refine ⟨leBytes T v, hlen, exec_encodeIntOf_inRange hv hroom, ?_⟩
    rw [exec_decodeIntOf_mid T p _ q s hlen, valueOf_leBytes hv]
  · obtain ⟨hv, himage⟩ := leBytes_valueOf hb
    refine ⟨valueOf T b, hv, ?_, ?_⟩
    · simpa using exec_decodeIntOf_mid T [] b [] s hb
    · rw [exec_encodeIntOf_inRange hv hroom, himage]

/-- Settles O14: per type, the opcode, the integer DECODE_INT returns, cast and scaled, and the bounds check. -/
theorem decodeFloatF32CastsAndScales : Obligations.DecodeFloatF32CastsAndScales := by
  intro p q buf offset b0 b1 b2 b3 b4 b5 b6 b7 scale s
  have h1 := leUint_one b0
  have h2 := leUint_two b0 b1
  have h4 := leUint_four b0 b1 b2 b3
  have h8 := leUint_eight b0 b1 b2 b3 b4 b5 b6 b7
  refine ⟨rfl, ?u8, exec_decodeFloat32Of_short .u8 scale s, rfl, ?i8, exec_decodeFloat32Of_short .i8 scale s,
    rfl, ?u16, exec_decodeFloat32Of_short .u16 scale s, rfl, ?i16, exec_decodeFloat32Of_short .i16 scale s,
    rfl, ?u32, exec_decodeFloat32Of_short .u32 scale s, rfl, ?i32, exec_decodeFloat32Of_short .i32 scale s,
    rfl, ?u64, exec_decodeFloat32Of_short .u64 scale s, rfl, ?i64, exec_decodeFloat32Of_short .i64 scale s⟩
  case u8 => exact exec_decodeFloat32Of_mid (T := .u8) p q scale s rfl (valueOf_unsigned_eq rfl h1)
  case i8 => exact exec_decodeFloat32Of_mid (T := .i8) p q scale s rfl (valueOf_signed_eq rfl rfl h1)
  case u16 => exact exec_decodeFloat32Of_mid (T := .u16) p q scale s rfl (valueOf_unsigned_eq rfl h2)
  case i16 => exact exec_decodeFloat32Of_mid (T := .i16) p q scale s rfl (valueOf_signed_eq rfl rfl h2)
  case u32 => exact exec_decodeFloat32Of_mid (T := .u32) p q scale s rfl (valueOf_unsigned_eq rfl h4)
  case i32 => exact exec_decodeFloat32Of_mid (T := .i32) p q scale s rfl (valueOf_signed_eq rfl rfl h4)
  case u64 => exact exec_decodeFloat32Of_mid (T := .u64) p q scale s rfl (valueOf_unsigned_eq rfl h8)
  case i64 => exact exec_decodeFloat32Of_mid (T := .i64) p q scale s rfl (valueOf_signed_eq rfl rfl h8)

/-- Settles O15: the same into F64. -/
theorem decodeFloatF64CastsAndScales : Obligations.DecodeFloatF64CastsAndScales := by
  intro p q buf offset b0 b1 b2 b3 b4 b5 b6 b7 scale s
  have h1 := leUint_one b0
  have h2 := leUint_two b0 b1
  have h4 := leUint_four b0 b1 b2 b3
  have h8 := leUint_eight b0 b1 b2 b3 b4 b5 b6 b7
  refine ⟨rfl, ?u8, exec_decodeFloat64Of_short .u8 scale s, rfl, ?i8, exec_decodeFloat64Of_short .i8 scale s,
    rfl, ?u16, exec_decodeFloat64Of_short .u16 scale s, rfl, ?i16, exec_decodeFloat64Of_short .i16 scale s,
    rfl, ?u32, exec_decodeFloat64Of_short .u32 scale s, rfl, ?i32, exec_decodeFloat64Of_short .i32 scale s,
    rfl, ?u64, exec_decodeFloat64Of_short .u64 scale s, rfl, ?i64, exec_decodeFloat64Of_short .i64 scale s⟩
  case u8 => exact exec_decodeFloat64Of_mid (T := .u8) p q scale s rfl (valueOf_unsigned_eq rfl h1)
  case i8 => exact exec_decodeFloat64Of_mid (T := .i8) p q scale s rfl (valueOf_signed_eq rfl rfl h1)
  case u16 => exact exec_decodeFloat64Of_mid (T := .u16) p q scale s rfl (valueOf_unsigned_eq rfl h2)
  case i16 => exact exec_decodeFloat64Of_mid (T := .i16) p q scale s rfl (valueOf_signed_eq rfl rfl h2)
  case u32 => exact exec_decodeFloat64Of_mid (T := .u32) p q scale s rfl (valueOf_unsigned_eq rfl h4)
  case i32 => exact exec_decodeFloat64Of_mid (T := .i32) p q scale s rfl (valueOf_signed_eq rfl rfl h4)
  case u64 => exact exec_decodeFloat64Of_mid (T := .u64) p q scale s rfl (valueOf_unsigned_eq rfl h8)
  case i64 => exact exec_decodeFloat64Of_mid (T := .i64) p q scale s rfl (valueOf_signed_eq rfl rfl h8)

end Sys2Proof.Proofs
end

section
/-! PROOFS. The checksums (spec/41_checksum.md R130 to R138): the operations, a buffer streamed through CRCACC, the CRC-8
as a polynomial remainder over GF(2), linearity, and single-bit changes. -/

namespace Sys2Proof.Machine

open Sys2Proof.Safety

theorem exec_xor8Buf (b : Buf) (s : State) :
    exec (.xor8Buf b) s = .next { s with resLog := s.resLog ++ [.ok (.byte (xor8 b))] } :=
  ret_eq (v := .byte (xor8 b)) rfl

theorem exec_crc8Buf (b : Buf) (s : State) :
    exec (.crc8Buf b) s = .next { s with resLog := s.resLog ++ [.ok (.byte (crc8 b))] } :=
  ret_eq (v := .byte (crc8 b)) rfl

theorem exec_crcClr (s : State) :
    exec .crcClr s = .next { s with crcAcc := 0x00, resLog := s.resLog ++ [.ok .none] } :=
  ret_eq (v := .none) (s := { s with crcAcc := 0x00 }) rfl

theorem exec_crcUpd (x : Byte) (s : State) : exec (.crcUpd x) s =
    .next { s with crcAcc := crc8Step s.crcAcc x, resLog := s.resLog ++ [.ok .none] } :=
  ret_eq (v := .none) (s := { s with crcAcc := crc8Step s.crcAcc x }) rfl

theorem exec_crcRd (s : State) : exec .crcRd s = .next { s with resLog := s.resLog ++ [.ok (.byte s.crcAcc)] } :=
  ret_eq (v := .byte s.crcAcc) rfl

@[simp] theorem xor8_append_one (b : Buf) (x : Byte) : xor8 (b ++ [x]) = xor8 b ^^^ x := by simp [xor8]

@[simp] theorem crc8_append_one (b : Buf) (x : Byte) : crc8 (b ++ [x]) = crc8Step (crc8 b) x := by simp [crc8]

/-! ### A program on CMD -/

section
variable {s : State} {rest : List Input}

/-- A command the block offers and admits is one step of the operation it decodes to. -/
theorem step_plain {c : Command} {i : Instr} (h : s.pending = .command c :: rest) (ho : s.params.offers c.op = true)
    (hd : decode c = .instr i) (ha : s.params.admits c = true) : step s = exec i { s with pending := rest } := by
  rw [step_instr h (by rw [Params.decodes, if_pos ho, hd]), if_pos ha]

theorem step_crcClr (h : s.pending = .command ⟨0x42, []⟩ :: rest) :
    step s = .next { s with pending := rest, crcAcc := 0x00, resLog := s.resLog ++ [.ok .none] } := by
  rw [step_plain (i := .crcClr) h rfl rfl rfl, exec_crcClr]

theorem step_crcUpd {x : Byte} (h : s.pending = .command ⟨0x43, [.byte x]⟩ :: rest) : step s = .next { s with
      pending := rest, crcAcc := crc8Step s.crcAcc x, resLog := s.resLog ++ [.ok .none] } := by
  rw [step_plain (i := .crcUpd x) h (show s.params.offers 0x43 = true from rfl) rfl rfl, exec_crcUpd]

theorem step_crcRd (h : s.pending = .command ⟨0x44, []⟩ :: rest) :
    step s = .next { s with pending := rest, resLog := s.resLog ++ [.ok (.byte s.crcAcc)] } := by
  rw [step_plain (i := .crcRd) h rfl rfl rfl, exec_crcRd]

end

/-- One CRC.UPD for each byte of a buffer folds the buffer into whatever CRCACC holds. -/
theorem run_crcUpds (buf : Buf) (k : Nat) (rest : List Input) (s : State)
    (h : s.pending = buf.map (fun x => Input.command ⟨0x43, [.byte x]⟩) ++ rest) :
    core.run (buf.length + k) s = core.run k { s with
      pending := rest, crcAcc := buf.foldl crc8Step s.crcAcc
      resLog := s.resLog ++ List.replicate buf.length (.ok .none) } := by
  induction buf generalizing s with
  | nil =>
    obtain ⟨⟩ := s
    obtain rfl : _ = rest := h
    simp
  | cons x xs ih =>
    have hlen : (x :: xs).length + k = xs.length + k + 1 := by simp only [List.length_cons]; omega
    rw [hlen, run_succ _ _ _ (step_crcUpd h), ih _ rfl]
    simp only [List.foldl_cons, List.length_cons, List.replicate_succ, List.append_assoc, List.cons_append,
      List.nil_append]

/-! ### The CRC-8 as a remainder -/

open Polynomial in
/-- A byte as a polynomial over GF(2), bit `k` the coefficient of `x^k`. -/
noncomputable def bitPoly (b : Byte) : (ZMod 2)[X] := ∑ k ∈ Finset.range 8, if b.getLsbD k then X ^ k else 0

open Polynomial in
/-- The generator of R138. -/
noncomputable def crcGen : (ZMod 2)[X] := X ^ 8 + X ^ 7 + X ^ 6 + X ^ 4 + X ^ 2 + 1

open Polynomial in
/-- A buffer as a polynomial, the byte at index 0 most significant, appended to `p`. -/
noncomputable def messageFrom (p : (ZMod 2)[X]) (buf : Buf) : (ZMod 2)[X] :=
  buf.foldl (fun p b => p * X ^ 8 + bitPoly b) p

section
open Polynomial

theorem bitPoly_xor (a b : Byte) : bitPoly (a ^^^ b) = bitPoly a + bitPoly b := by
  unfold bitPoly
  rw [← Finset.sum_add_distrib]
  refine Finset.sum_congr rfl fun k _ => ?_
  rw [BitVec.getLsbD_xor]
  cases a.getLsbD k <;> cases b.getLsbD k <;> simp [CharTwo.add_self_eq_zero]

/-- A shift to the left multiplies by `x`, but for the bit that leaves position 7. -/
theorem bitPoly_shiftLeft (c : Byte) :
    X * bitPoly c = bitPoly (c <<< 1) + if c.getLsbD 7 then X ^ 8 else 0 := by
  simp [bitPoly, Finset.sum_range_succ, mul_add, ← pow_succ', ← pow_two]

theorem bitPoly_poly : bitPoly Config.CRC_POLY + crcGen = X ^ 8 := by
  have h : bitPoly Config.CRC_POLY = 1 + X ^ 2 + X ^ 4 + X ^ 6 + X ^ 7 := by
    simp [bitPoly, Finset.sum_range_succ, Config.CRC_POLY]
  have h2 : (2 : (ZMod 2)[X]) = 0 := CharTwo.two_eq_zero
  rw [h, crcGen]
  linear_combination (X ^ 7 + X ^ 6 + X ^ 4 + X ^ 2 + 1) * h2

/-- One iteration of R132 multiplies by `x` modulo the generator. -/
theorem crcGen_dvd_shift (c : Byte) : crcGen ∣ bitPoly (crc8Shift c) - X * bitPoly c := by
  rw [bitPoly_shiftLeft, crc8Shift]
  cases hc : c.getLsbD 7 with
  | false => simp
  | true =>
    refine ⟨-1, ?_⟩
    simp only [if_true, bitPoly_xor, ← bitPoly_poly]
    ring

theorem crcGen_dvd_shifts (n : Nat) (c : Byte) : crcGen ∣ bitPoly (crc8Shifts n c) - X ^ n * bitPoly c := by
  induction n generalizing c with
  | zero => simp [crc8Shifts]
  | succ n ih =>
    have h := (ih (crc8Shift c)).add ((crcGen_dvd_shift c).mul_left (X ^ n))
    rw [crc8Shifts]
    convert h using 1
    ring

/-- The running value, carried over a buffer, is the message times `x^8` modulo the generator. -/
theorem crcGen_dvd_foldl (buf : Buf) (c : Byte) (p : (ZMod 2)[X]) (h : crcGen ∣ bitPoly c - p * X ^ 8) :
    crcGen ∣ bitPoly (buf.foldl crc8Step c) - messageFrom p buf * X ^ 8 := by
  induction buf generalizing c p with
  | nil => exact h
  | cons b bs ih =>
    refine ih _ _ ?_
    have h8 := (crcGen_dvd_shifts 8 (c ^^^ b)).add (h.mul_left (X ^ 8))
    rw [crc8Step]
    rw [bitPoly_xor] at h8
    convert h8 using 1
    ring

theorem crcGen_degree : crcGen.degree = 8 := by unfold crcGen; compute_degree!

theorem crcGen_monic : crcGen.Monic := by unfold crcGen; monicity!

theorem bitPoly_degree_lt (b : Byte) : (bitPoly b).degree < 8 := by
  refine (degree_sum_le _ _).trans_lt ((Finset.sup_lt_iff (by decide)).2 fun k hk => ?_)
  have hk8 : (k : WithBot ℕ) < 8 := by exact_mod_cast Finset.mem_range.1 hk
  split
  · simpa using hk8
  · rw [degree_zero]; exact WithBot.bot_lt_coe 8

/-- R138 (a). -/
theorem bitPoly_crc8 (buf : Buf) : bitPoly (crc8 buf) = (messageFrom 0 buf * X ^ 8) %ₘ crcGen := by
  have hdvd : crcGen ∣ bitPoly (crc8 buf) - messageFrom 0 buf * X ^ 8 :=
    crcGen_dvd_foldl buf 0x00 0 (by simp [bitPoly])
  rw [← modByMonic_eq_of_dvd_sub crcGen_monic hdvd,
    (modByMonic_eq_self_iff crcGen_monic).2 (crcGen_degree ▸ bitPoly_degree_lt _)]

end

/-! ### Linearity -/

theorem xor_xor_xor (a b c d : Byte) : (a ^^^ b) ^^^ (c ^^^ d) = (a ^^^ c) ^^^ (b ^^^ d) := by
  ac_rfl

theorem crc8Shift_eq (c : Byte) : crc8Shift c = (c <<< 1) ^^^ (if c.getLsbD 7 then Config.CRC_POLY else 0) := by
  unfold crc8Shift; split <;> simp

theorem crc8Shift_xor (a b : Byte) : crc8Shift (a ^^^ b) = crc8Shift a ^^^ crc8Shift b := by
  simp only [crc8Shift_eq, BitVec.shiftLeft_xor_distrib, BitVec.getLsbD_xor, xor_xor_xor]
  cases a.getLsbD 7 <;> cases b.getLsbD 7 <;> simp

theorem crc8Shifts_xor (n : Nat) (a b : Byte) : crc8Shifts n (a ^^^ b) = crc8Shifts n a ^^^ crc8Shifts n b := by
  induction n generalizing a b with
  | zero => rfl
  | succ n ih => simp only [crc8Shifts, crc8Shift_xor, ih]

theorem crc8Step_xor (a b x y : Byte) : crc8Step (a ^^^ b) (x ^^^ y) = crc8Step a x ^^^ crc8Step b y := by
  rw [crc8Step, xor_xor_xor, crc8Shifts_xor, crc8Step, crc8Step]

/-- A fold of a step that is linear in both arguments is linear in the buffer and the value it starts from. -/
theorem foldl_zipWith_xor {f : Byte → Byte → Byte} (hf : ∀ a b x y, f (a ^^^ b) (x ^^^ y) = f a x ^^^ f b y)
    {as bs : Buf} (hlen : as.length = bs.length) (a b : Byte) :
    (List.zipWith (· ^^^ ·) as bs).foldl f (a ^^^ b) = as.foldl f a ^^^ bs.foldl f b := by
  induction as generalizing bs a b with
  | nil =>
    obtain rfl : bs = [] := List.length_eq_zero_iff.1 hlen.symm
    rfl
  | cons x xs ih =>
    cases bs with
    | nil => cases hlen
    | cons y ys =>
      simp only [List.zipWith_cons_cons, List.foldl_cons, hf]
      exact ih (Nat.succ.inj hlen) _ _

theorem crc8Step_self (c : Byte) : crc8Step c c = 0x00 := by
  rw [crc8Step, BitVec.xor_self]; decide

/-! ### Single-bit changes -/

theorem crc8Shift_injective : Function.Injective crc8Shift := by
  have hker : ∀ c : Byte, crc8Shift c = 0 → c = 0 := by decide
  intro a b h
  have h0 : crc8Shift (a ^^^ b) = 0 := by rw [crc8Shift_xor, h, BitVec.xor_self]; rfl
  simpa using hker _ h0

theorem crc8Shifts_injective (n : Nat) : Function.Injective (crc8Shifts n) := by
  induction n with
  | zero => exact fun _ _ h => h
  | succ n ih => exact ih.comp crc8Shift_injective

theorem crc8Step_left_injective (x : Byte) : Function.Injective (crc8Step · x) :=
  fun _ _ h => (BitVec.xor_left_inj x).1 (crc8Shifts_injective 8 h)

theorem crc8Step_right_injective (c : Byte) : Function.Injective (crc8Step c) :=
  fun _ _ h => (BitVec.xor_right_inj c).1 (crc8Shifts_injective 8 h)

theorem foldl_left_injective {f : Byte → Byte → Byte} (hl : ∀ x, Function.Injective (f · x)) (b : Buf) :
    Function.Injective (b.foldl f) := by
  induction b with
  | nil => exact fun _ _ h => h
  | cons x xs ih => exact fun a b h => hl x (ih h)

/-- A fold of a step that is injective in both arguments changes when one byte of the buffer does. -/
theorem foldl_ne_of_byte_ne {f : Byte → Byte → Byte} (hl : ∀ x, Function.Injective (f · x))
    (hr : ∀ c, Function.Injective (f c)) (c : Byte) (p q : Buf) {x y : Byte} (hxy : x ≠ y) :
    (p ++ x :: q).foldl f c ≠ (p ++ y :: q).foldl f c := by
  simp only [List.foldl_append, List.foldl_cons]
  exact fun h => hxy (hr _ (foldl_left_injective hl q h))

theorem xor_bit_ne {k : Nat} (hk : k < 8) (x : Byte) : x ^^^ BitVec.ofNat 8 (2 ^ k) ≠ x := by
  have hbit : ∀ j : Fin 8, BitVec.ofNat 8 (2 ^ j.val) ≠ 0 := by decide
  intro h
  exact hbit ⟨k, hk⟩ (by simpa using congrArg (x ^^^ ·) h)

/-- The byte at the place of the change, and what stands before and behind it. -/
theorem flipBit_split {b : Buf} {i : Nat} (k : Nat) (hi : i < b.length) : ∃ p x q, p.length = i ∧ b = p ++ x :: q ∧
    flipBit b i k = p ++ (x ^^^ BitVec.ofNat 8 (2 ^ k)) :: q := by
  refine ⟨b.take i, b[i], b.drop (i + 1), by simp; omega, ?_, ?_⟩
  · rw [← List.drop_eq_getElem_cons hi, List.take_append_drop]
  · rw [flipBit, List.modify_eq_take_cons_drop hi]

theorem crc8_ne_of_byte_ne (p q : Buf) {x y : Byte} (hxy : x ≠ y) : crc8 (p ++ x :: q) ≠ crc8 (p ++ y :: q) :=
  foldl_ne_of_byte_ne crc8Step_left_injective crc8Step_right_injective _ p q hxy

theorem xor8_ne_of_byte_ne (p q : Buf) {x y : Byte} (hxy : x ≠ y) : xor8 (p ++ x :: q) ≠ xor8 (p ++ y :: q) :=
  foldl_ne_of_byte_ne (f := fun c x => c ^^^ x) (fun x _ _ h => (BitVec.xor_left_inj x).1 h)
    (fun c _ _ h => (BitVec.xor_right_inj c).1 h) _ p q hxy

end Sys2Proof.Machine

namespace Sys2Proof.Proofs

open Sys2Proof Sys2Proof.Machine Sys2Proof.Safety

/-- Settles O19: the results are bytes, which fit any block, and the recurrences are those of the folds. -/
theorem bufferChecksumsAreReturned : Obligations.BufferChecksumsAreReturned := by
  intro buf x c s
  exact ⟨rfl, rfl, exec_xor8Buf buf s, exec_crc8Buf buf s, rfl, xor8_append_one buf x, rfl, crc8_append_one buf x, rfl⟩

/-- Settles O20. -/
theorem crcAccumulatorOperations : Obligations.CrcAccumulatorOperations := by
  intro x s
  exact ⟨rfl, rfl, rfl, exec_crcClr s, exec_crcUpd x s, exec_crcRd s⟩

/-- Settles O21: CRC.CLR starts the fold at 0, each CRC.UPD folds one byte in (`run_crcUpds`), CRC.RD returns it. -/
theorem streamedCrcEqualsBufferCrc : Obligations.StreamedCrcEqualsBufferCrc := by
  intro buf rest s hp
  rw [run_succ _ _ _ (step_crcClr hp), run_crcUpds buf 1 (.command ⟨0x44, []⟩ :: rest) _ rfl,
    run_succ _ _ _ (step_crcRd rfl)]
  simp only [Host.Core.run, crc8, Config.CRC_INIT, List.replicate_succ, List.append_assoc, List.cons_append,
    List.nil_append]

/-- Settles O22. -/
theorem crc8IsThePolynomialRemainder : Obligations.Crc8IsThePolynomialRemainder :=
  bitPoly_crc8

/-- Settles O23: both steps are linear, and a step by the running value itself gives 0. -/
theorem checksumsAreLinearWithZeroResidue : Obligations.ChecksumsAreLinearWithZeroResidue := by
  refine ⟨fun a b hlen => ⟨?crc, ?xor⟩, fun b => ⟨?crc0, ?xor0⟩⟩
  case crc => exact foldl_zipWith_xor crc8Step_xor hlen 0 0
  case xor => exact foldl_zipWith_xor (f := fun c x => c ^^^ x) (fun _ _ _ _ => xor_xor_xor _ _ _ _) hlen 0 0
  case crc0 => rw [crc8_append_one, crc8Step_self]
  case xor0 => rw [xor8_append_one, BitVec.xor_self]; rfl

/-- Settles O24: both steps are injective in the running value and in the byte. -/
theorem checksumsDetectEverySingleBitFlip : Obligations.ChecksumsDetectEverySingleBitFlip := by
  intro b i k hi hk
  obtain ⟨p, x, q, -, rfl, hflip⟩ := flipBit_split k hi
  rw [hflip]
  exact ⟨crc8_ne_of_byte_ne p q (xor_bit_ne hk x), xor8_ne_of_byte_ne p q (xor_bit_ne hk x)⟩

end Sys2Proof.Proofs
end

section
/-! PROOFS. The transmit framer (spec/42_framer_tx.md R150 to R155): what PACK and SEND answer when the guards of R152
accept and when they do not, and what a frame determines. -/

namespace Sys2Proof.Machine

open Sys2Proof.Safety

/-- The bytes of a frame that its checksum is taken over (30_encoding.md R67): from index 3 on. -/
def frameBody (v : Version) (flag : Byte) (code : Code) (data : Buf) : Buf :=
  match v with
  | .v1 => [byteOf data.length 0, byteOf code.toNat 0] ++ data
  | .v2 => [flag, byteOf code.toNat 0, byteOf code.toNat 1, byteOf data.length 0, byteOf data.length 1] ++ data

theorem validFrame_eq (v : Version) (typ flag : Byte) (code : Code) (data : Buf) :
    validFrame v typ flag code data =
      [0x24, letter v, typ] ++ frameBody v flag code data ++ [checksum v (frameBody v flag code data)] := by
  cases v <;> rfl

theorem frameBytes_eq (v : Version) (code : Code) (data : Buf) : frameBytes v code data =
    [0x24, letter v, 0x3C] ++ frameBody v 0x00 code data ++ [checksum v (frameBody v 0x00 code data)] :=
  validFrame_eq v 0x3C 0x00 code data

theorem frameBytes_drop_three (v : Version) (code : Code) (data : Buf) : (frameBytes v code data).drop 3 =
    frameBody v 0x00 code data ++ [checksum v (frameBody v 0x00 code data)] := by
  rw [frameBytes_eq]; rfl

theorem checksum_append_self (v : Version) (b : Buf) : checksum v (b ++ [checksum v b]) = 0x00 := by
  cases v with
  | v1 => exact (xor8_append_one b _).trans (BitVec.xor_self)
  | v2 => exact (crc8_append_one b _).trans (crc8Step_self _)

/-! ### The guards -/

theorem packGuard_tooLarge {v : Version} {data : Buf} (code : Code) (h : maxPayload v ≤ data.length) :
    packGuard v code data = some .payloadTooLarge := if_pos h

theorem packGuard_badOperand {code : Code} {data : Buf} (h : data.length < 255) (hc : 255 < code.toNat) :
    packGuard .v1 code data = some .badOperand := by
  rw [packGuard, if_neg (show ¬ maxPayload .v1 ≤ data.length from Nat.not_le.2 h), if_pos ⟨rfl, hc⟩]

/-- The guards refuse with one of two kinds. -/
theorem packGuard_kind {v : Version} {code : Code} {data : Buf} {k : ErrKind} (h : packGuard v code data = some k) :
    k = .payloadTooLarge ∨ k = .badOperand := by
  unfold packGuard at h
  split at h
  · exact .inl (Option.some.inj h).symm
  · split at h
    · exact .inr (Option.some.inj h).symm
    · cases h

/-! ### PACK -/

theorem exec_pack_refused {v : Version} {code : Code} {data : Buf} {k : ErrKind} (s : State)
    (h : packGuard v code data = some k) :
    exec (.pack v code data) s = .next { s with resLog := s.resLog ++ [.err k] } := by
  simp only [exec, execPack, h, raise_eq]

theorem exec_pack_sendable {v : Version} {code : Code} {data : Buf} (s : State) (h : sendable v code data) :
    exec (.pack v code data) s = ret (.buf (frameBytes v code data)) s := by
  simp only [exec, execPack, (packGuard_none v code data).2 h, packFrame_eq v code data h]

/-- PACK answers a frame only for operands the guards accept, and then the frame of 30_encoding.md. -/
theorem eq_frameBytes_of_exec_pack {v : Version} {code : Code} {data frame : Buf} {s : State}
    (h : exec (.pack v code data) s = .next { s with resLog := s.resLog ++ [.ok (.buf frame)] }) :
    sendable v code data ∧ frame = frameBytes v code data ∧ s.params.holds frame.length = true := by
  cases hg : packGuard v code data with
  | some k =>
    rw [exec_pack_refused s hg] at h
    simp at h
  | none =>
    have hs := (packGuard_none v code data).1 hg
    rw [exec_pack_sendable s hs] at h
    cases hf : Value.fits s.params (.buf (frameBytes v code data)) with
    | false => rw [ret_full hf] at h; cases h
    | true =>
      rw [ret_eq hf] at h
      obtain rfl : frameBytes v code data = frame := by simpa using h
      exact ⟨hs, rfl, hf⟩

/-! ### SEND -/

theorem exec_send_closed {s : State} (h : s.portOpen = false) (code : Code) (data : Buf) :
    exec (.send code data) s = .next { s with resLog := s.resLog ++ [.err .portClosed] } := by
  simp only [exec, execSend, h, Bool.false_eq_true, if_false, raise_eq]

theorem exec_send_refused {s : State} (ho : s.portOpen = true) {code : Code} {data : Buf} {k : ErrKind}
    (h : packGuard s.ver code data = some k) :
    exec (.send code data) s = .next { s with resLog := s.resLog ++ [.err k] } := by
  simp only [exec, execSend, ho, if_true, h, raise_eq]

/-- SEND behind its guards: the link accepts the first `m` bytes of the frame; all of them where no answer or a large
enough one is listed. -/
theorem exec_send_sendable {s : State} (ho : s.portOpen = true) {code : Code} {data : Buf}
    (hs : sendable s.ver code data) : ∃ m ≤ (frameBytes s.ver code data).length,
      (s.txAnswers = [] → m = (frameBytes s.ver code data).length) ∧
      (∀ a as, s.txAnswers = a :: as → m = min a (frameBytes s.ver code data).length) ∧
      exec (.send code data) s = .next { s with
        txlog := s.txlog ++ (frameBytes s.ver code data).take m, txAnswers := s.txAnswers.tail
        resLog := s.resLog ++
          [if m < (frameBytes s.ver code data).length then .err .writeShort else .ok .none] } := by
  obtain ⟨m, hm, hw, hnil, hcons⟩ := txWrite_spec s (frameBytes s.ver code data)
  refine ⟨m, hm, hnil, hcons, ?_⟩
  simp only [exec, execSend, ho, if_true, (packGuard_none _ _ _).2 hs, packFrame_eq _ _ _ hs, hw]
  split
  · exact raise_eq _ _
  · exact ret_eq rfl

/-! ### What a frame determines -/

theorem byteOf_zero_toNat (n : Nat) : (byteOf n 0).toNat = n % 256 := by simp [byteOf]

theorem byteOf_one_toNat (n : Nat) : (byteOf n 1).toNat = n / 256 % 256 := by simp [byteOf]

/-- The checksummed bytes of a sendable frame determine its code and payload. -/
theorem frameBody_inj {v : Version} {code code' : Code} {data data' : Buf} (hs : sendable v code data)
    (hs' : sendable v code' data') (h : frameBody v 0x00 code data = frameBody v 0x00 code' data') :
    code = code' ∧ data = data' := by
  cases v with
  | v1 =>
    simp only [frameBody, List.cons_append, List.nil_append, List.cons.injEq] at h
    obtain ⟨-, hcode, hdata⟩ := h
    have h0 := congrArg BitVec.toNat hcode
    rw [byteOf_zero_toNat, byteOf_zero_toNat] at h0
    obtain ⟨-, hc⟩ := hs
    obtain ⟨-, hc'⟩ := hs'
    exact ⟨BitVec.eq_of_toNat_eq (by omega), hdata⟩
  | v2 =>
    simp only [frameBody, List.cons_append, List.nil_append, List.cons.injEq] at h
    obtain ⟨-, hlo, hhi, -, -, hdata⟩ := h
    have h0 := congrArg BitVec.toNat hlo
    have h1 := congrArg BitVec.toNat hhi
    rw [byteOf_zero_toNat, byteOf_zero_toNat] at h0
    rw [byteOf_one_toNat, byteOf_one_toNat] at h1
    exact ⟨BitVec.eq_of_toNat_eq (by have := code.isLt; have := code'.isLt; omega), hdata⟩

end Sys2Proof.Machine

namespace Sys2Proof.Proofs

open Sys2Proof Sys2Proof.Machine Sys2Proof.Safety

/-- Settles O25. -/
theorem packBuildsTheFrame : Obligations.PackBuildsTheFrame := by
  intro v code data s hs hroom
  exact ⟨rfl, (exec_pack_sendable s hs).trans (ret_eq hroom)⟩

/-- Settles O26: the length is the first guard, the code the second. -/
theorem packRefusesByNameInOrder : Obligations.PackRefusesByNameInOrder := by
  intro code data s
  exact ⟨fun h => exec_pack_refused s (packGuard_tooLarge (v := .v1) code h),
    fun h => exec_pack_refused s (packGuard_tooLarge (v := .v2) code h),
    fun h hc => exec_pack_refused s (packGuard_badOperand h hc)⟩

/-- Settles O27: with no answer listed, or one of at least the frame's length, all of the frame is accepted. -/
theorem sendPutsTheWholeFrameOnTheWire : Obligations.SendPutsTheWholeFrameOnTheWire := by
  intro code data s ho hs hw
  refine ⟨rfl, ?_⟩
  obtain ⟨m, -, hnil, hcons, hexec⟩ := exec_send_sendable ho hs
  have hm : m = (frameBytes s.ver code data).length := by
    cases ha : s.txAnswers with
    | nil => exact hnil ha
    | cons a as =>
      rw [hcons a as ha]
      exact Nat.min_eq_right (hw a (by rw [ha]; rfl))
  rw [hexec, hm, List.take_length, if_neg (Nat.lt_irrefl _)]

/-- Settles O28: an answer below the frame's length is how many bytes are accepted. -/
theorem shortWriteLeavesTheAcceptedBytes : Obligations.ShortWriteLeavesTheAcceptedBytes := by
  intro code data k ks s ho hs ha hk
  obtain ⟨m, -, -, hcons, hexec⟩ := exec_send_sendable ho hs
  obtain rfl : m = k := (hcons k ks ha).trans (Nat.min_eq_left (Nat.le_of_lt hk))
  rw [hexec, if_pos hk, ha, List.tail_cons]

/-- Settles O29: the port, then the two guards of PACK at VER. -/
theorem sendRefusesByNameInOrder : Obligations.SendRefusesByNameInOrder := by
  intro code data s
  refine ⟨fun hc => exec_send_closed hc code data, fun ho hlen => ?_, fun ho hlen hv hc => ?_⟩
  · exact exec_send_refused ho (packGuard_tooLarge code hlen)
  · rw [State.maxp_v1 s hv] at hlen
    exact exec_send_refused ho (by rw [hv]; exact packGuard_badOperand hlen hc)

/-- Settles O30: from index 3 on a frame is its checksummed bytes and their checksum. -/
theorem packedFrameChecksumCloses : Obligations.PackedFrameChecksumCloses := by
  intro v code data frame s h
  obtain ⟨-, rfl, -⟩ := eq_frameBytes_of_exec_pack h
  rw [frameBytes_drop_three]
  refine ⟨fun hv => ?_, fun hv => ⟨?_, ?_⟩⟩
  · subst hv; exact checksum_append_self .v1 _
  · subst hv; exact checksum_append_self .v2 _
  · subst hv; rw [frameBytes_eq, List.dropLast_concat, List.getLast?_concat]; rfl

/-- Settles O31: both operands are those of the same checksummed bytes. -/
theorem packIsInjectivePerVersion : Obligations.PackIsInjectivePerVersion := by
  intro v code code' data data' frame s h h'
  obtain ⟨hs, rfl, -⟩ := eq_frameBytes_of_exec_pack h
  obtain ⟨hs', he, -⟩ := eq_frameBytes_of_exec_pack h'
  have hdrop := congrArg (List.drop 3) he
  rw [frameBytes_drop_three, frameBytes_drop_three] at hdrop
  exact frameBody_inj hs hs' (List.append_inj_left' hdrop rfl)

end Sys2Proof.Proofs
end

section
/-! PROOFS. The receive framer (spec/43_framer_rx.md R171 to R182, 20_memory.md R48): one read, and what RECV makes of a
whole frame, a mismatch, an error frame, a stream that is cut, a short answer and an answer that never comes. -/

namespace Sys2Proof.Machine

open Sys2Proof.Safety

/-! ### One read -/

theorem cycleTake_length (n : Nat) {c : Buf} (hc : c ≠ []) : (cycleTake n c).length = n := by
  induction n generalizing c with
  | zero => rfl
  | succ n ih =>
    cases c with
    | nil => exact absurd rfl hc
    | cons b bs => simp [cycleTake, ih]

/-- The bytes that leave a stream and the stream they leave behind (20_memory.md R48, log 25). -/
theorem RxStream.take_spec (st : RxStream) (m : Nat) (as : List ReadAnswer) : ∃ r rest, st.take m as = .got r rest ∧
    rest.answers = as ∧ r.length = (if st.tail = [] then min m st.bytes.length else m) ∧
    (st.tail = [] → r ++ rest.bytes = st.bytes ∧ rest.tail = []) ∧
    (r.length ≤ st.bytes.length → r ++ rest.bytes = st.bytes ∧ rest.tail = st.tail) ∧
    (st.bytes.length ≤ r.length → rest.bytes = [] ∧
      r = st.bytes ++ cycleTake (r.length - st.bytes.length) st.tail ∧
      rest.tail = st.tail.rotate (r.length - st.bytes.length)) := by
  refine ⟨_, _, rfl, rfl, ?_⟩
  by_cases ht : st.tail = []
  · simp only [ht, cycleTake_nil, List.append_nil, List.rotate_nil, List.length_take, if_true, List.take_append_drop]
    refine ⟨trivial, fun _ => ⟨trivial, trivial⟩, fun _ => ⟨trivial, trivial⟩, fun h => ?_⟩
    have hm : st.bytes.length ≤ m := h.trans (Nat.min_le_left _ _)
    exact ⟨List.drop_eq_nil_of_le hm, List.take_of_length_le hm, trivial⟩
  · have hlen : (st.bytes.take m ++ cycleTake (m - st.bytes.length) st.tail).length = m := by
      rw [List.length_append, List.length_take, cycleTake_length _ ht]; omega
    rw [hlen, if_neg ht]
    refine ⟨rfl, fun h => absurd h ht, fun h => ?_, fun h => ?_⟩
    · simp [Nat.sub_eq_zero_of_le h, cycleTake]
    · exact ⟨List.drop_eq_nil_of_le h, by rw [List.take_of_length_le h], rfl⟩

/-! ### Whole frames -/

theorem frameReads_v1 (n len : Nat) : frameReads .v1 n len = (preambleReads n ++ [3]) ++ [len, 1] := by
  simp [frameReads, headerSize]

theorem frameReads_v2 (n len : Nat) : frameReads .v2 n len = (preambleReads n ++ [6]) ++ [len, 1] := by
  simp [frameReads, headerSize]

/-- A run over a whole V1 frame with any checksum byte. -/
theorem rxMachine_frame1 (regs : RxRegs) {g data : Buf} {typ len : Byte} (code c : Byte) {as : List ReadAnswer}
    (hg : 0x24 ∉ g) (ht : typ ≠ 0x21) (hl : data.length = len.toNat)
    (hf : answeredInFull (frameReads .v1 g.length data.length) as) (rest t : Buf) :
    rxMachine .v1 regs ⟨g ++ [0x24, 0x4D, typ, len, code] ++ data ++ [c] ++ rest, as, t⟩ =
      .ended ⟨if c = xor8 ([len, code] ++ data) then .deliver (zext16 code) data else .fail .checksumError, .v1, [],
        { regs with rxs := .search, type := typ, len := zext16 len, code := zext16 code, data := data, rxcrc := c },
        ⟨rest, answersLeft (frameReads .v1 g.length data.length) as, t⟩⟩ := by
  rw [frameReads_v1, answeredInFull_append] at hf
  rw [frameReads_v1, answersLeft_append]
  have hhdr := rxMachine_header1 regs hg hf.1 typ len code (data ++ [c] ++ rest) t
  simp only [List.append_assoc] at hhdr ⊢
  rw [hhdr, ← List.append_assoc,
    rxDirection_full .v1 _ data hf.2 c rest t (by rw [hl, zext16_toNat]) ht]
  simp only [rxExpected, bodyV1, lo8_zext16]

/-- A run over a whole V2 frame with any checksum byte. -/
theorem rxMachine_frame2 (regs : RxRegs) {g data : Buf} {typ lenLo lenHi : Byte} (flag codeLo codeHi c : Byte)
    {as : List ReadAnswer} (hg : 0x24 ∉ g) (ht : typ ≠ 0x21) (hl : data.length = lenLo.toNat + 256 * lenHi.toNat)
    (hf : answeredInFull (frameReads .v2 g.length data.length) as) (rest t : Buf) :
    rxMachine .v2 regs ⟨g ++ [0x24, 0x58, typ, flag, codeLo, codeHi, lenLo, lenHi] ++ data ++ [c] ++ rest, as, t⟩ =
      .ended ⟨if c = crc8 ([flag, codeLo, codeHi, lenLo, lenHi] ++ data) then .deliver (codeHi ++ codeLo) data
          else .fail .checksumError, .v2, [],
        { rxs := .search, type := typ, flag := flag, len := lenHi ++ lenLo, code := codeHi ++ codeLo, data := data,
          rxcrc := c },
        ⟨rest, answersLeft (frameReads .v2 g.length data.length) as, t⟩⟩ := by
  rw [frameReads_v2, answeredInFull_append] at hf
  rw [frameReads_v2, answersLeft_append]
  have hhdr := rxMachine_header2 regs hg hf.1 typ flag codeLo codeHi lenLo lenHi (data ++ [c] ++ rest) t
  simp only [List.append_assoc] at hhdr ⊢
  rw [hhdr, ← List.append_assoc,
    rxDirection_full .v2 _ data hf.2 c rest t (by rw [hl, word16_toNat]) ht]
  simp only [rxExpected, bodyV2, lo8_word16, hi8_word16]
  simp only [word16_eq]

/-- A run whose second byte is not the letter of the version (R173). -/
theorem rxMachine_mismatch {v : Version} (regs : RxRegs) {g : Buf} {x : Byte} {as : List ReadAnswer} (hg : 0x24 ∉ g)
    (hx : x ≠ letter v) (hf : answeredInFull (preambleReads g.length) as) (rest t : Buf) :
    rxMachine v regs ⟨g ++ [0x24, x] ++ rest, as, t⟩ = .ended ⟨.fail .versionMismatch, v.other, [.versionMismatch],
      { regs with rxs := .search }, ⟨rest, answersLeft (preambleReads g.length) as, t⟩⟩ := by
  rw [rxMachine_head v regs g hg hf, if_neg, if_neg]
  · rfl
  · rintro ⟨rfl, rfl⟩; exact hx rfl
  · rintro ⟨rfl, rfl⟩; exact hx rfl

/-- The direction test on an error frame (R176). -/
theorem rxDirection_error (v : Version) {regs : RxRegs} (ht : regs.type = 0x21) (st : RxStream) :
    rxDirection v regs st = .ended ⟨.fail .remoteError, v, [], { regs with rxs := .search }, st⟩ :=
  if_pos ht

/-! ### A run that stands before a read -/

/-- On a finite stream that ends before the read is served, all of it is consumed (R179). -/
theorem nextRead_cut {v : Version} {g consumed : Buf} {reads : List Nat} {n : Nat} (hr : NextRead v g consumed reads n)
    (hg : 0x24 ∉ g) (regs : RxRegs) {rest : Buf} (hn : rest.length < n) : ∃ regs', rxMachine v regs ⟨consumed ++ rest, [], []⟩ =
      .ended ⟨.fail .shortRead, v, [], regs', ⟨[], [], []⟩⟩ := by
  rcases nextRead_run hr hg regs rest [] (answeredInFull_nil reads) with ⟨regs', next, h⟩ | ⟨rfl, h⟩
  · rw [h, answersLeft_nil]
    exact ⟨_, rxReadThen_short rest hn v regs' next⟩
  · obtain rfl : rest = [] := List.length_eq_zero_iff.1 (Nat.lt_one_iff.1 hn)
    rw [h, answersLeft_nil]
    exact ⟨_, rfl⟩

/-- A V1 stream that ends in the payload or before the checksum. -/
theorem rxMachine_cut1 (regs : RxRegs) {g data : Buf} {typ len : Byte} (code : Byte) (hg : 0x24 ∉ g) (ht : typ ≠ 0x21)
    (hl : data.length ≤ len.toNat) : ∃ regs', rxMachine .v1 regs ⟨g ++ [0x24, 0x4D, typ, len, code] ++ data, [], []⟩ =
      .ended ⟨.fail .shortRead, .v1, [], regs', ⟨[], [], []⟩⟩ := by
  rcases Nat.lt_or_eq_of_le hl with hlt | heq
  · exact nextRead_cut (.payloadV1 typ len code rfl ht) hg regs hlt
  · simpa using nextRead_cut (.crcV1 typ len code data rfl ht heq) hg regs (rest := []) Nat.zero_lt_one

/-- A V2 stream that ends in the payload or before the checksum. -/
theorem rxMachine_cut2 (regs : RxRegs) {g data : Buf} {typ lenLo lenHi : Byte} (flag codeLo codeHi : Byte) (hg : 0x24 ∉ g)
    (ht : typ ≠ 0x21) (hl : data.length ≤ lenLo.toNat + 256 * lenHi.toNat) :
    ∃ regs', rxMachine .v2 regs ⟨g ++ [0x24, 0x58, typ, flag, codeLo, codeHi, lenLo, lenHi] ++ data, [], []⟩ =
      .ended ⟨.fail .shortRead, .v2, [], regs', ⟨[], [], []⟩⟩ := by
  rcases Nat.lt_or_eq_of_le hl with hlt | heq
  · exact nextRead_cut (.payloadV2 typ flag codeLo codeHi lenLo lenHi rfl ht) hg regs hlt
  · simpa using nextRead_cut (.crcV2 typ flag codeLo codeHi lenLo lenHi data rfl ht heq) hg regs (rest := [])
      Nat.zero_lt_one

/-! ### RECV -/

theorem exec_recv_closed {s : State} (h : s.portOpen = false) :
    exec .recv s = .next { s with resLog := s.resLog ++ [.err .portClosed] } := by
  simp only [exec, execRecv, h, Bool.false_eq_true, if_false, raise_eq]

theorem exec_recv_hung {s : State} (ho : s.portOpen = true) {why : Fault}
    (h : rxMachine s.ver s.rx s.rxStream = .hung why) : exec .recv s = .fault why := by
  simp only [exec, execRecv, ho, if_true, h]

/-- RECV when the run delivers: VER stays and nothing is warned of. -/
theorem exec_recv_delivers {s : State} (ho : s.portOpen = true) {c : Code} {d q : Buf} {as : List ReadAnswer}
    {regs : RxRegs} (hd : s.params.holds d.length = true)
    (h : rxMachine s.ver s.rx ⟨s.rxq, s.rxAnswers, s.rxTail⟩ = .ended ⟨.deliver c d, s.ver, [], regs, ⟨q, as, s.rxTail⟩⟩) :
    exec .recv s = .next { s with
      rxq := q, rxAnswers := as, rx := regs, resLog := s.resLog ++ [.ok (.packet c d)] } := by
  refine (execRecv_deliver ho hd h).trans ?_
  simp only [List.append_nil]

/-- RECV when the run fails with no warning: VER stays. -/
theorem exec_recv_fails {s : State} (ho : s.portOpen = true) {k : ErrKind} {q t : Buf} {as : List ReadAnswer}
    {regs : RxRegs}
    (h : rxMachine s.ver s.rx ⟨s.rxq, s.rxAnswers, s.rxTail⟩ = .ended ⟨.fail k, s.ver, [], regs, ⟨q, as, t⟩⟩) :
    exec .recv s = .next { s with
      rxq := q, rxTail := t, rxAnswers := as, rx := rxRegsAfterFail k regs s.freeCount, freeCount := s.freeCount + 1
      resLog := s.resLog ++ [.err k] } := by
  refine (execRecv_fail ho h).trans ?_
  simp only [List.append_nil]

@[simp] theorem rxRegsAfterFail_rxs (k : ErrKind) (regs : RxRegs) (n : Nat) :
    (rxRegsAfterFail k regs n).rxs = .search := by
  cases k <;> rfl

end Sys2Proof.Machine

namespace Sys2Proof.Proofs

open Sys2Proof Sys2Proof.Machine Sys2Proof.Safety

/-- Settles O32: a read of no bytes touches nothing, one that the peer answers takes what `RxStream.take_spec` says. -/
theorem readTakesAFrontPartOfTheStream : Obligations.ReadTakesAFrontPartOfTheStream := by
  refine ⟨fun st n => ?_, fun bytes tail answers n k hn hkn hkb => ?_⟩
  · cases n with
    | zero =>
      refine .inr ⟨[], st, rfl, Nat.le_refl 0, fun h => ⟨rfl, h⟩, fun _ => ⟨rfl, rfl⟩, fun h => ?_, fun _ => rfl,
        fun h => absurd h (Nat.lt_irrefl 0), fun _ => by simp⟩
      have hb : st.bytes = [] := List.length_eq_zero_iff.1 (Nat.le_zero.1 h)
      simp [hb, cycleTake]
    | succ n =>
      rcases RxStream.read_spec st n with ⟨hread, as, ha⟩ | ⟨m, as, hm, htail, -, hread⟩
      · exact .inl ⟨hread, Nat.succ_pos n, by rw [ha]; rfl⟩
      · obtain ⟨r, rest, htake, hans, hlen, hend, hlisted, hused⟩ := RxStream.take_spec st m as
        have hle : r.length ≤ n + 1 := by rw [hlen]; split <;> omega
        refine .inr ⟨r, rest, hread.trans htake, hle, hend, hlisted, hused, fun h => absurd h (Nat.succ_ne_zero n),
          fun _ => hans.trans htail.symm, fun hnil => ?_⟩
        have hall : st.read (n + 1) = st.take (n + 1) [] := by
          rw [RxStream.read, hnil]
        obtain ⟨r', rest', htake', -, hlen', -⟩ := RxStream.take_spec st (n + 1) []
        obtain ⟨rfl, -⟩ := ReadResult.got.inj ((htake.symm.trans hread.symm).trans (hall.trans htake'))
        exact hlen'
  · obtain ⟨n, rfl⟩ : ∃ j, n = j + 1 := ⟨n - 1, by omega⟩
    refine ⟨?_, rfl⟩
    rw [RxStream.read]
    simp only [Nat.min_eq_left hkn]
    exact RxStream.take_listed hkb

/-- Settles O33: the run over the frame (`rxMachine_frame1`) delivers or fails by the checksum. -/
theorem recvRunsAV1FrameToItsChecksum : Obligations.RecvRunsAV1FrameToItsChecksum := by
  intro g data rest typ len code crc s hv ho hf hroom hg ht hl hq
  have hrun := rxMachine_frame1 s.rx code crc hg ht hl hf rest s.rxTail
  rw [← hq, ← hv] at hrun
  refine ⟨fun hc => ?_, fun hc => ?_⟩
  · rw [if_pos hc] at hrun
    rw [← hv]
    exact exec_recv_delivers ho hroom hrun
  · rw [if_neg hc] at hrun
    rw [← hv]
    exact ⟨_, _, rxRegsAfterFail_rxs _ _ _, exec_recv_fails ho hrun⟩

/-- Settles O34: the same for the V2 frame. -/
theorem recvRunsAV2FrameToItsChecksum : Obligations.RecvRunsAV2FrameToItsChecksum := by
  intro g data rest typ flag codeLo codeHi lenLo lenHi crc s hv ho hf hroom hg ht hl hq
  have hrun := rxMachine_frame2 s.rx flag codeLo codeHi crc hg ht hl hf rest s.rxTail
  rw [← hq, ← hv] at hrun
  refine ⟨fun hc => ?_, fun hc => ?_⟩
  · rw [if_pos hc] at hrun
    rw [← hv]
    exact exec_recv_delivers ho hroom hrun
  · rw [if_neg hc] at hrun
    rw [← hv]
    exact ⟨_, _, rxRegsAfterFail_rxs _ _ _, exec_recv_fails ho hrun⟩

/-- Settles O35: the mismatch arm of VARIANT, per version. -/
theorem recvFlipsVersionOnAnyOtherLetter : Obligations.RecvFlipsVersionOnAnyOtherLetter := by
  intro g rest x s ho hf hg hx hq
  have hrun := rxMachine_mismatch s.rx hg hx hf rest s.rxTail
  rw [← hq] at hrun
  have hexec := execRecv_fail ho hrun
  refine ⟨RxRegs.unspecified s.freeCount, s.freeCount + 1, _, rfl, hexec, ?_, ?_⟩
  · rw [State.maxp_eq]
    cases s.ver <;> rfl
  · cases s.ver <;> rfl

/-- Settles O36: the direction test stands behind the header and before the payload; CODE is the header's. -/
theorem recvStopsAfterTheHeaderOfAnErrorFrame : Obligations.RecvStopsAfterTheHeaderOfAnErrorFrame := by
  intro g rest flag lo hi len lenHi s ho hf hg
  refine ⟨fun hv hq => ?_, fun hv hq => ?_⟩
  · rw [hv] at hf
    have hrun := rxMachine_header1 s.rx hg hf 0x21 len lo rest s.rxTail
    rw [rxDirection_error .v1 rfl, ← hq, ← hv] at hrun
    refine ⟨_, _, ?_, ?_, exec_recv_fails ho hrun⟩
    · exact rxRegsAfterFail_rxs _ _ _
    · rfl
  · rw [hv] at hf
    have hrun := rxMachine_header2 s.rx hg hf 0x21 flag lo hi len lenHi rest s.rxTail
    rw [rxDirection_error .v2 rfl, ← hq, ← hv] at hrun
    refine ⟨_, _, ?_, ?_, exec_recv_fails ho hrun⟩
    · exact rxRegsAfterFail_rxs _ _ _
    · exact word16_eq lo hi

/-- Settles O37: each cut leaves the run before a read that the rest of the stream does not serve. -/
theorem recvReportsAStreamCutAnywhere : Obligations.RecvReportsAStreamCutAnywhere := by
  intro g h data typ flag len lenHi lo hi s ho ha ht hg htyp hcut
  have hrun : ∃ regs, rxMachine s.ver s.rx ⟨s.rxq, [], []⟩ =
      .ended ⟨.fail .shortRead, s.ver, [], regs, ⟨[], [], []⟩⟩ := by
    rcases hcut with hq | hq | ⟨hv, hh, hq⟩ | ⟨hv, hh, hq⟩ | ⟨hv, hl, hq⟩ | ⟨hv, hl, hq⟩
    · rw [hq]
      simpa using nextRead_cut .search hg s.rx (v := s.ver) (rest := []) Nat.zero_lt_one
    · rw [hq]
      simpa using nextRead_cut .variant hg s.rx (v := s.ver) (rest := []) Nat.zero_lt_one
    · rw [hq, hv]
      exact nextRead_cut (.header (v := .v1)) hg s.rx hh
    · rw [hq, hv]
      exact nextRead_cut (.header (v := .v2)) hg s.rx hh
    · rw [hq, hv]
      exact rxMachine_cut1 s.rx lo hg htyp hl
    · rw [hq, hv]
      exact rxMachine_cut2 s.rx flag lo hi hg htyp hl
  obtain ⟨regs, hrun⟩ := hrun
  have hexec := exec_recv_fails ho (q := []) (t := s.rxTail) (as := s.rxAnswers) (by rw [ha, ht]; exact hrun)
  exact ⟨_, _, rxRegsAfterFail_rxs .shortRead regs s.freeCount, hexec⟩

/-- Settles O38: the run stands before a read (`nextRead_gives`), which is answered short. -/
theorem shortAnswerConsumesWhatItGave : Obligations.ShortAnswerConsumesWhatItGave := by
  intro g consumed rest reads n k as s ho hg hr hq hf ha hk
  obtain ⟨regs, hrun⟩ := nextRead_gives hr hg s.rx rest s.rxTail hf ha hk
  rw [← hq] at hrun
  exact ⟨_, _, rxRegsAfterFail_rxs .shortRead regs s.freeCount, exec_recv_fails ho hrun⟩

/-- Settles O39. -/
theorem recvWithThePortClosed : Obligations.RecvWithThePortClosed :=
  fun _ => ⟨rfl, exec_recv_closed⟩

/-- Settles O40: a read that is never answered hangs the run, and so does the scan of an endless stream with no `$`. -/
theorem recvHangsWhereAReadOrTheSearchNeverEnds : Obligations.RecvHangsWhereAReadOrTheSearchNeverEnds := by
  refine ⟨fun g consumed rest reads n as s ho hg hr hq hf ha hn => ?_, fun s ho ht hq htail hans => ?_⟩
  · have hrun := nextRead_never hr hg s.rx rest s.rxTail hf ha hn
    rw [← hq] at hrun
    exact exec_recv_hung ho hrun
  · refine exec_recv_hung ho ?_
    simp only [rxMachine, State.rxStream, rxScan_endless hans hq ht htail]

end Sys2Proof.Proofs
end

section
/-! PROOFS. The receive machine as a function of its stream alone, and as the table of 43_framer_rx.md R171: UNPACK against
RECV (R183), and the table's arrows followed one by one against the function of R181. -/

namespace Sys2Proof.Machine

open Sys2Proof.Safety

/-! ### The old contents of the working registers do not matter -/

/-- Two runs that differ at most in the working registers they leave. -/
inductive RxRun.Agree : RxRun → RxRun → Prop where
  | hung (why : Fault) : Agree (.hung why) (.hung why)
  | ended (out : RxOutcome) (v : Version) (ws : List Warning) (regs regs' : RxRegs) (st : RxStream) :
      Agree (.ended ⟨out, v, ws, regs, st⟩) (.ended ⟨out, v, ws, regs', st⟩)

theorem rxReadThen_agree (n : Nat) (v : Version) (regs regs' : RxRegs) (st : RxStream)
    {next next' : Buf → RxStream → RxRun} (h : ∀ r rest, (next r rest).Agree (next' r rest)) :
    (rxReadThen n v regs st next).Agree (rxReadThen n v regs' st next') := by
  unfold rxReadThen
  cases st.read n with
  | never => exact .hung _
  | got r rest =>
    simp only
    split
    · exact .ended _ _ _ _ _ _
    · exact h r rest

/-- Everything a run reads from the registers behind the header is of that header. -/
theorem rxDirection_agree (v : Version) {regs regs' : RxRegs} (st : RxStream) (htype : regs.type = regs'.type)
    (hcode : regs.code = regs'.code) (hlen : regs.len = regs'.len) (hflag : v = .v2 → regs.flag = regs'.flag) :
    (rxDirection v regs st).Agree (rxDirection v regs' st) := by
  obtain ⟨rxs, type, flag, code, len, data, rxcrc⟩ := regs
  obtain ⟨rxs', type', flag', code', len', data', rxcrc'⟩ := regs'
  obtain rfl : type = type' := htype
  obtain rfl : code = code' := hcode
  obtain rfl : len = len' := hlen
  have hexpected (d : Buf) (c : Byte) : rxExpected v ⟨.crc, type, flag, code, len, d, c⟩ =
      rxExpected v ⟨.crc, type, flag', code, len, d, c⟩ := by
    cases v with
    | v1 => rfl
    | v2 => rw [show flag = flag' from hflag rfl]
  unfold rxDirection
  split
  · exact .ended _ _ _ _ _ _
  · refine rxReadThen_agree _ _ _ _ _ fun d rest => rxReadThen_agree _ _ _ _ _ fun r rest' => ?_
    simp only [hexpected]
    split
    · exact .ended _ _ _ _ _ _
    · exact .ended _ _ _ _ _ _

theorem rxMachine_agree (v : Version) (regs regs' : RxRegs) (st : RxStream) :
    (rxMachine v regs st).Agree (rxMachine v regs' st) := by
  unfold rxMachine
  cases rxScan st.tail st.bytes st.answers with
  | hung why => exact .hung why
  | short rest => exact .ended _ _ _ _ _ _
  | found rest =>
    refine rxReadThen_agree _ _ _ _ _ fun r rest' => ?_
    split
    · exact rxReadThen_agree _ _ _ _ _ fun h st => rxDirection_agree v st rfl rfl rfl (by rintro rfl; simp_all)
    · split
      · exact rxReadThen_agree _ _ _ _ _ fun h st => rxDirection_agree v st rfl rfl rfl fun _ => rfl
      · exact .ended _ _ _ _ _ _

/-- The run of UNPACK on a buffer ends as that of RECV on the same bytes does, whatever the registers hold. -/
theorem rxMachine_buffer (v : Version) (regs : RxRegs) (b : Buf) : ∃ e e' : RxEnd,
    rxMachine v RxRegs.reset ⟨b, [], []⟩ = .ended e ∧ rxMachine v regs ⟨b, [], []⟩ = .ended e' ∧
    e'.outcome = e.outcome ∧ ∀ c d, e.outcome = .deliver c d → d.length ≤ b.length := by
  obtain ⟨e, he⟩ := rxMachine_nil_ended v RxRegs.reset b
  have hgood := rxMachine_good v RxRegs.reset ⟨b, [], []⟩
  have hagree := rxMachine_agree v RxRegs.reset regs ⟨b, [], []⟩
  rw [he] at hgood hagree
  cases hr : rxMachine v regs ⟨b, [], []⟩ with
  | hung why => rw [hr] at hagree; cases hagree
  | ended e' =>
    rw [hr] at hagree
    cases hagree
    exact ⟨_, _, he, rfl, rfl, fun c d hd => hgood.payload c d hd rfl⟩

/-! ### The scan of SEARCH, read by read -/

/-- The scan as a function of the stream. -/
def scanStream (st : RxStream) : SearchEnd := rxScan st.tail st.bytes st.answers

/-- How many reads of SEARCH a stream has at most, if the scan ends at all: each takes a listed byte off, or uses an
answer up, or brings the first `$` of the endless part one place nearer. -/
def scanBound (st : RxStream) : Nat := st.bytes.length + st.answers.length + st.tail.idxOf Config.SOF

/-- What one read of SEARCH makes of the scan. -/
inductive ScanStep (st : RxStream) : Prop where
  | never : st.read 1 = .never → scanStream st = .hung .readNeverAnswers → ScanStep st
  | short (rest : RxStream) : st.read 1 = .got [] rest → scanStream st = .short rest → ScanStep st
  | found (rest : RxStream) : st.read 1 = .got [Config.SOF] rest → scanStream st = .found rest → ScanStep st
  | skip (b : Byte) (rest : RxStream) : b ≠ Config.SOF → st.read 1 = .got [b] rest →
      scanStream st = scanStream rest → (scanStream st ≠ .hung .searchNeverEnds → scanBound rest < scanBound st) →
      ScanStep st

/-- One place nearer: the first `$` behind a byte that is none. -/
theorem idxOf_rotate_one {b : Byte} (hb : b ≠ Config.SOF) (bs : Buf) : (bs ++ [b]).idxOf Config.SOF =
    if Config.SOF ∈ bs then (b :: bs).idxOf Config.SOF - 1 else (b :: bs).idxOf Config.SOF := by
  have hone : [b].idxOf Config.SOF = 1 := by simp [hb]
  rw [List.idxOf_cons_ne _ hb, List.idxOf_append]
  split
  · rfl
  · rw [hone, List.idxOf_of_notMem ‹_›, Nat.add_comm]

theorem scanStep_tail (as : List ReadAnswer) (t : Buf) : ScanStep ⟨[], as, t⟩ := by
  match as, t with
  | [], [] => exact .short ⟨[], [], []⟩ rfl rfl
  | .never :: as, t => exact .never rfl (rxScan_never t [] as)
  | .gives k :: as, [] =>
    refine .short ⟨[], as, []⟩ ?_ rfl
    simp [RxStream.read, RxStream.take]
  | .gives 0 :: as, b :: bs =>
    refine .short ⟨[], as, b :: bs⟩ ?_ rfl
    simp [RxStream.read, RxStream.take, cycleTake]
  | .gives (k + 1) :: as, b :: bs =>
    have hread : RxStream.read ⟨[], .gives (k + 1) :: as, b :: bs⟩ 1 = .got [b] ⟨[], as, bs ++ [b]⟩ := by
      simp [RxStream.read, RxStream.take, cycleTake]
    by_cases hb : b = Config.SOF
    · subst hb
      refine .found _ hread ?_
      simp [scanStream, rxScan, rxScanTail]
    · refine .skip b _ hb hread ?_ fun _ => ?_
      · simp [scanStream, rxScan, rxScanTail, hb]
      · have hidx := idxOf_rotate_one hb bs
        simp only [scanBound, List.length_cons, List.length_nil]
        split at hidx <;> omega
  | [], b :: bs =>
    have hread : RxStream.read ⟨[], [], b :: bs⟩ 1 = .got [b] ⟨[], [], bs ++ [b]⟩ := by
      simp [RxStream.read, RxStream.take, cycleTake]
    by_cases hb : b = Config.SOF
    · subst hb
      refine .found _ hread ?_
      simp [scanStream, rxScan, rxScanTail]
    · have hmem : Config.SOF ∈ b :: bs ↔ Config.SOF ∈ bs := by simp [Ne.symm hb]
      have hidx := idxOf_rotate_one hb bs
      rw [List.idxOf_cons_ne _ hb] at hidx
      have hscan (c : Byte) (cs : Buf) : scanStream ⟨[], [], c :: cs⟩ = if Config.SOF ∈ c :: cs then
          .found ⟨[], [], (c :: cs).rotate ((c :: cs).idxOf Config.SOF + 1)⟩ else .hung .searchNeverEnds := rfl
      obtain ⟨c, cs, hc⟩ : ∃ c cs, bs ++ [b] = c :: cs := List.exists_cons_of_ne_nil (by simp)
      have hmem' : Config.SOF ∈ c :: cs ↔ Config.SOF ∈ bs := by rw [← hc]; simp [Ne.symm hb]
      refine .skip b _ hb hread ?_ fun hne => ?_
      · rw [hc, hscan, hscan]
        by_cases hs : Config.SOF ∈ bs
        · rw [if_pos (hmem.2 hs), if_pos (hmem'.2 hs), ← hc, hidx, if_pos hs, List.idxOf_cons_ne _ hb]
          simp [List.rotate_cons_succ]
        · rw [if_neg (mt hmem.1 hs), if_neg (mt hmem'.1 hs)]
      · rw [hscan] at hne
        have hs : Config.SOF ∈ bs := by
          by_contra hs
          exact hne (if_neg (mt hmem.1 hs))
        simp only [scanBound, List.length_nil]
        rw [hidx, if_pos hs, List.idxOf_cons_ne _ hb]
        omega

theorem scanStep (st : RxStream) : ScanStep st := by
  obtain ⟨b, as, t⟩ := st
  match b, as with
  | [], as => exact scanStep_tail as t
  | x :: xs, .never :: as => exact .never rfl rfl
  | x :: xs, .gives 0 :: as =>
    refine .short ⟨x :: xs, as, t⟩ ?_ rfl
    simp [RxStream.read, RxStream.take, cycleTake]
  | x :: xs, [] =>
    have hread : RxStream.read ⟨x :: xs, [], t⟩ 1 = .got [x] ⟨xs, [], t⟩ := RxStream.take_listed (by simp)
    by_cases hx : x = Config.SOF
    · subst hx; exact .found _ hread (by simp [scanStream, rxScan])
    · exact .skip x _ hx hread (by simp [scanStream, rxScan, hx]) fun _ => by simp [scanBound]
  | x :: xs, .gives (k + 1) :: as =>
    have hread : RxStream.read ⟨x :: xs, .gives (k + 1) :: as, t⟩ 1 = .got [x] ⟨xs, as, t⟩ := by
      simp [RxStream.read, RxStream.take, cycleTake]
    by_cases hx : x = Config.SOF
    · subst hx; exact .found _ hread (by simp [scanStream, rxScan])
    · exact .skip x _ hx hread (by simp [scanStream, rxScan, hx]) fun _ => by simp [scanBound]; omega

/-! ### The table behind SEARCH -/

/-- What `n` more arrows make of a move. -/
def RxMove.runFor (n : Nat) (v : Version) : RxMove → Option RxRun
  | .stop run => some run
  | .goto regs st => rxTableRun n v regs st

theorem rxTableRun_succ (n : Nat) (v : Version) (regs : RxRegs) (st : RxStream) :
    rxTableRun (n + 1) v regs st = (rxTableStep v regs st).runFor n v := by
  rw [rxTableRun]
  cases rxTableStep v regs st <;> rfl

/-- An arrow of the table is the read of the function when they go on alike behind a full read. -/
theorem rxArrow_runFor {m n : Nat} {v : Version} {regs : RxRegs} {st : RxStream} {full : Buf → RxStream → RxMove}
    {next : Buf → RxStream → RxRun} (h : ∀ r rest, r.length = m → (full r rest).runFor n v = some (next r rest)) :
    (rxArrow m v regs st full).runFor n v = some (rxReadThen m v regs st next) := by
  have hread := st.read_good m
  unfold rxArrow rxReadThen
  revert hread
  cases st.read m with
  | never => exact fun _ => rfl
  | got r rest =>
    rintro ⟨hle, -⟩
    simp only
    split
    · rfl
    · exact h r rest (by omega)

theorem rxTableRun_crc (n : Nat) (v : Version) (regs : RxRegs) (st : RxStream) :
    rxTableRun (n + 1) v { regs with rxs := .crc } st = some (rxCrc v regs st) := by
  rw [rxTableRun_succ]
  refine rxArrow_runFor fun r rest _ => ?_
  simp only
  split <;> rfl

theorem rxTableRun_payload (n : Nat) (v : Version) (regs : RxRegs) (st : RxStream) :
    rxTableRun (n + 2) v { regs with rxs := .payload } st = some (rxPayload v regs st) := by
  rw [rxTableRun_succ]
  exact rxArrow_runFor fun r rest _ => rxTableRun_crc n v { regs with data := r } rest

/-- Behind a header: the direction test is part of the header's arrow. -/
theorem direction_runFor (n : Nat) (v : Version) (regs : RxRegs) (st : RxStream) :
    RxMove.runFor (n + 2) v (if regs.type = Config.DIR_ERR then .stop (rxStop (.fail .remoteError) v regs st)
      else .goto { regs with rxs := .payload } st) = some (rxDirection v regs st) := by
  rw [rxDirection]
  split
  · rfl
  · exact rxTableRun_payload n v regs st

theorem rxTableRun_hdr1 (n : Nat) (v : Version) (regs : RxRegs) (st : RxStream) :
    rxTableRun (n + 3) v { regs with rxs := .hdr1 } st = some (rxHdr1 v regs st) := by
  rw [rxTableRun_succ]
  exact rxArrow_runFor fun _ rest _ => direction_runFor n v _ rest

theorem rxTableRun_hdr2 (n : Nat) (v : Version) (regs : RxRegs) (st : RxStream) :
    rxTableRun (n + 3) v { regs with rxs := .hdr2 } st = some (rxHdr2 v regs st) := by
  rw [rxTableRun_succ]
  exact rxArrow_runFor fun _ rest _ => direction_runFor n v _ rest

theorem rxTableRun_variant (n : Nat) (v : Version) (regs : RxRegs) (st : RxStream) :
    rxTableRun (n + 4) v { regs with rxs := .variant } st = some (rxVariant v regs st) := by
  rw [rxTableRun_succ]
  refine rxArrow_runFor fun r rest hr => ?_
  obtain ⟨x, rfl⟩ := List.length_eq_one_iff.1 hr
  have hx (c : Byte) : ([x] = [c]) = (([x] : Buf).headD 0 = c) := by simp
  simp only [hx]
  split
  · exact rxTableRun_hdr1 n v _ rest
  · split
    · exact rxTableRun_hdr2 n v _ rest
    · rfl

/-! ### The table from SEARCH -/

/-- The function from what its scan gives. -/
def runOfScan (v : Version) (regs : RxRegs) : SearchEnd → RxRun
  | .hung why => .hung why
  | .short rest => rxStop (.fail .shortRead) v { regs with rxs := .search } rest
  | .found rest => rxVariant v { regs with rxs := .search } rest

theorem rxMachine_eq_runOfScan (v : Version) (regs : RxRegs) (st : RxStream) :
    rxMachine v regs st = runOfScan v regs (scanStream st) := by
  unfold rxMachine scanStream
  cases rxScan st.tail st.bytes st.answers <;> rfl

/-- Where the scan ends, its reads and four more arrows give the run. -/
theorem rxTableRun_search (v : Version) (regs : RxRegs) (n : Nat) (st : RxStream)
    (hend : scanStream st ≠ .hung .searchNeverEnds) (hn : scanBound st + 5 ≤ n) :
    rxTableRun n v { regs with rxs := .search } st = some (runOfScan v regs (scanStream st)) := by
  induction n generalizing st with
  | zero => omega
  | succ n ih =>
    rw [rxTableRun_succ]
    cases scanStep st with
    | never hread hscan => simp only [rxTableStep, rxArrow, hread, hscan]; rfl
    | short rest hread hscan => simp only [rxTableStep, rxArrow, hread, hscan]; rfl
    | found rest hread hscan =>
      obtain ⟨m, rfl⟩ : ∃ m, n = m + 4 := ⟨n - 4, by omega⟩
      simp only [rxTableStep, rxArrow, hread, hscan]
      exact rxTableRun_variant m v { regs with rxs := .search } rest
    | skip b rest hb hread hscan hlt =>
      have hlt := hlt hend
      rw [hscan] at hend ⊢
      simp only [rxTableStep, rxArrow, hread, List.cons.injEq, and_true, if_neg hb]
      exact ih rest hend (by omega)

/-- Where it never ends, no number of arrows ends the run. -/
theorem rxTableRun_endless (v : Version) (regs : RxRegs) (n : Nat) (st : RxStream)
    (hend : scanStream st = .hung .searchNeverEnds) : rxTableRun n v { regs with rxs := .search } st = none := by
  induction n generalizing st with
  | zero => rfl
  | succ n ih =>
    rw [rxTableRun_succ]
    cases scanStep st with
    | never hread hscan => rw [hend] at hscan; cases hscan
    | short rest hread hscan => rw [hend] at hscan; cases hscan
    | found rest hread hscan => rw [hend] at hscan; cases hscan
    | skip b rest hb hread hscan hlt =>
      simp only [rxTableStep, rxArrow, hread, List.cons.injEq, and_true, if_neg hb]
      exact ih rest (hscan ▸ hend)

/-! ### Only SEARCH never ends -/

theorem rxReadThen_ne_endless {n : Nat} {v : Version} {regs : RxRegs} {st : RxStream} {next : Buf → RxStream → RxRun}
    (h : ∀ r rest, next r rest ≠ .hung .searchNeverEnds) : rxReadThen n v regs st next ≠ .hung .searchNeverEnds := by
  unfold rxReadThen
  split
  · simp
  · split
    · simp [rxStop]
    · exact h _ _

theorem rxDirection_ne_endless (v : Version) (regs : RxRegs) (st : RxStream) :
    rxDirection v regs st ≠ .hung .searchNeverEnds := by
  unfold rxDirection
  split
  · simp [rxStop]
  · refine rxReadThen_ne_endless fun _ _ => rxReadThen_ne_endless fun _ _ => ?_
    simp only
    split <;> simp [rxStop]

theorem rxVariant_ne_endless (v : Version) (regs : RxRegs) (st : RxStream) :
    rxVariant v regs st ≠ .hung .searchNeverEnds := by
  refine rxReadThen_ne_endless fun _ _ => ?_
  split
  · exact rxReadThen_ne_endless fun _ _ => rxDirection_ne_endless _ _ _
  · split
    · exact rxReadThen_ne_endless fun _ _ => rxDirection_ne_endless _ _ _
    · simp [rxMismatch]

theorem runOfScan_endless_iff {v : Version} {regs : RxRegs} {e : SearchEnd} :
    runOfScan v regs e = .hung .searchNeverEnds ↔ e = .hung .searchNeverEnds := by
  cases e with
  | hung why => simp [runOfScan]
  | short rest => simp [runOfScan, rxStop]
  | found rest => simp [runOfScan, rxVariant_ne_endless]

end Sys2Proof.Machine

namespace Sys2Proof.Proofs

open Sys2Proof Sys2Proof.Machine Sys2Proof.Safety

/-- Settles O41: both runs end with one outcome (`rxMachine_buffer`), and a payload is no longer than its buffer. -/
theorem unpackGivesTheResultOfRecv : Obligations.UnpackGivesTheResultOfRecv := by
  intro v frame s hroom
  refine ⟨rfl, ?_⟩
  obtain ⟨⟨out, w, ws, regs, st⟩, ⟨out', w', ws', regs', st'⟩, hrun, hrun', hout, hlen⟩ :=
    rxMachine_buffer v s.rx frame
  obtain rfl : out' = out := hout
  cases out' with
  | deliver c d =>
    have hd : s.params.holds d.length = true := Params.holds_mono hroom (hlen c d rfl)
    exact ⟨_, _, execUnpack_deliver s hd hrun, execRecv_deliver (s := { s with
      ver := v, rxq := frame, rxTail := [], rxAnswers := [], portOpen := true }) rfl hd hrun', rfl⟩
  | fail k =>
    exact ⟨_, _, execUnpack_fail s hrun, execRecv_fail (s := { s with
      ver := v, rxq := frame, rxTail := [], rxAnswers := [], portOpen := true }) rfl hrun', rfl⟩

/-- Settles O42: the arrows of SEARCH are the reads of the scan (`scanStep`), the others are one per state. -/
theorem runningTheR171TableGivesTheR181Function : Obligations.RunningTheR171TableGivesTheR181Function := by
  intro v regs st n
  rw [rxMachine_eq_runOfScan, ne_eq, runOfScan_endless_iff]
  refine ⟨fun hend hn => rxTableRun_search v regs n st hend ?_, rxTableRun_endless v regs n st⟩
  have hidx : st.tail.idxOf Config.SOF ≤ st.tail.length := List.idxOf_le_length
  unfold scanBound
  omega

end Sys2Proof.Proofs
end

section
/-! PROOFS. Round trips through the framers (spec/43_framer_rx.md R184 to R186): what PACK makes UNPACK and RECV give back,
a valid frame of the other version, and a packed frame with one bit flipped. -/

namespace Sys2Proof.Machine

open Sys2Proof.Safety

/-! ### Valid frames -/

theorem byteOf_zero_toNat_of_le {n : Nat} (h : n ≤ 255) : (byteOf n 0).toNat = n := by
  rw [byteOf_zero_toNat, Nat.mod_eq_of_lt (by omega)]

theorem byteOf_toNat_add {n : Nat} (h : n ≤ 65535) : (byteOf n 0).toNat + 256 * (byteOf n 1).toNat = n := by
  rw [byteOf_zero_toNat, byteOf_one_toNat]; omega

theorem zext16_byteOf {code : Code} (h : code.toNat ≤ 255) : zext16 (byteOf code.toNat 0) = code :=
  BitVec.eq_of_toNat_eq (by rw [zext16_toNat, byteOf_zero_toNat_of_le h])

theorem append_byteOf (code : Code) : (byteOf code.toNat 1 ++ byteOf code.toNat 0 : BitVec 16) = code := by
  rw [← word16_eq]
  exact BitVec.eq_of_toNat_eq (by rw [word16_toNat, byteOf_toNat_add (Nat.le_of_lt_succ code.isLt)])

theorem framable_of_sendable {v : Version} {code : Code} {data : Buf} (h : sendable v code data) :
    framable v code data := by
  cases v with
  | v1 => exact ⟨Nat.le_of_lt h.1, h.2⟩
  | v2 => exact Nat.le_of_lt h

/-- A run over a valid frame that is no error frame delivers its code and its payload. -/
theorem rxMachine_validFrame {v : Version} (regs : RxRegs) {g : Buf} {typ : Byte} (flag : Byte) {code : Code} {data : Buf}
    {as : List ReadAnswer} (hg : 0x24 ∉ g) (ht : typ ≠ 0x21) (hfr : framable v code data)
    (hf : answeredInFull (frameReads v g.length data.length) as) (rest t : Buf) : ∃ regs', regs'.rxs = .search ∧
      rxMachine v regs ⟨g ++ validFrame v typ flag code data ++ rest, as, t⟩ = .ended ⟨.deliver code data, v, [], regs',
        ⟨rest, answersLeft (frameReads v g.length data.length) as, t⟩⟩ := by
  cases v with
  | v1 =>
    obtain ⟨hlen, hcode⟩ := hfr
    have hrun := rxMachine_frame1 regs (byteOf code.toNat 0) (xor8 ([byteOf data.length 0, byteOf code.toNat 0] ++ data))
      hg ht (byteOf_zero_toNat_of_le hlen).symm hf rest t
    rw [if_pos rfl, zext16_byteOf hcode] at hrun
    refine ⟨_, ?_, (congrArg (fun b => rxMachine .v1 regs ⟨b, as, t⟩) ?_).trans hrun⟩
    · rfl
    · simp only [validFrame, List.append_assoc]
  | v2 =>
    have hrun := rxMachine_frame2 regs flag (byteOf code.toNat 0) (byteOf code.toNat 1) (crc8 ([flag, byteOf code.toNat 0,
      byteOf code.toNat 1, byteOf data.length 0, byteOf data.length 1] ++ data)) hg ht (byteOf_toNat_add hfr).symm hf rest t
    rw [if_pos rfl, append_byteOf] at hrun
    refine ⟨_, ?_, (congrArg (fun b => rxMachine .v2 regs ⟨b, as, t⟩) ?_).trans hrun⟩
    · rfl
    · simp only [validFrame, List.append_assoc]

/-- UNPACK of a valid frame that is no error frame. -/
theorem exec_unpack_validFrame {v : Version} {typ : Byte} (flag : Byte) {code : Code} {data : Buf} (s : State)
    (ht : typ ≠ 0x21) (hfr : framable v code data) (hroom : s.params.holds data.length = true) :
    exec (.unpack v (validFrame v typ flag code data)) s =
      .next { s with resLog := s.resLog ++ [.ok (.packet code data)] } := by
  obtain ⟨regs, -, hrun⟩ := rxMachine_validFrame RxRegs.reset flag (g := []) (by simp) ht hfr (answeredInFull_nil _) [] []
  rw [List.nil_append, List.append_nil] at hrun
  exact execUnpack_deliver s hroom hrun

theorem length_le_frameBytes (v : Version) (code : Code) (data : Buf) : data.length ≤ (frameBytes v code data).length := by
  cases v <;> simp [frameBytes, validFrame] <;> omega

/-! ### Two versions -/

theorem eq_other_of_ne : ∀ {v w : Version}, w ≠ v → w = v.other
  | .v1, .v2, _ => rfl
  | .v2, .v1, _ => rfl
  | .v1, .v1, h => absurd rfl h
  | .v2, .v2, h => absurd rfl h

theorem letter_other_ne (v : Version) : letter v.other ≠ letter v := by
  cases v <;> decide

theorem validFrame_preamble (v : Version) (typ flag : Byte) (code : Code) (data : Buf) :
    validFrame v typ flag code data = [0x24, letter v] ++ (validFrame v typ flag code data).drop 2 := by
  cases v <;> rfl

/-! ### UNPACK of any frame -/

/-- UNPACK of a V1 frame with any checksum byte, whatever stands behind it. -/
theorem exec_unpack_frame1 {data : Buf} {typ len : Byte} (code c : Byte) (rest : Buf) (s : State) (ht : typ ≠ 0x21)
    (hl : data.length = len.toNat) (hroom : s.params.holds data.length = true) :
    exec (.unpack .v1 ([0x24, 0x4D, typ, len, code] ++ data ++ [c] ++ rest)) s = .next { s with resLog := s.resLog ++
      [if c = xor8 ([len, code] ++ data) then .ok (.packet (zext16 code) data) else .err .checksumError] } := by
  have hrun := rxMachine_frame1 RxRegs.reset code c (g := []) (by simp) ht hl (answeredInFull_nil _) rest []
  split at hrun
  · rw [if_pos ‹_›]; exact execUnpack_deliver s hroom hrun
  · rw [if_neg ‹_›]; exact execUnpack_fail s hrun

/-- UNPACK of a V2 frame with any checksum byte, whatever stands behind it. -/
theorem exec_unpack_frame2 {data : Buf} {typ lenLo lenHi : Byte} (flag codeLo codeHi c : Byte) (rest : Buf) (s : State)
    (ht : typ ≠ 0x21) (hl : data.length = lenLo.toNat + 256 * lenHi.toNat)
    (hroom : s.params.holds data.length = true) :
    exec (.unpack .v2 ([0x24, 0x58, typ, flag, codeLo, codeHi, lenLo, lenHi] ++ data ++ [c] ++ rest)) s =
      .next { s with resLog := s.resLog ++ [if c = crc8 ([flag, codeLo, codeHi, lenLo, lenHi] ++ data)
        then .ok (.packet (codeHi ++ codeLo) data) else .err .checksumError] } := by
  have hrun := rxMachine_frame2 RxRegs.reset flag codeLo codeHi c (g := []) (by simp) ht hl (answeredInFull_nil _) rest []
  split at hrun
  · rw [if_pos ‹_›]; exact execUnpack_deliver s hroom hrun
  · rw [if_neg ‹_›]; exact execUnpack_fail s hrun

/-- UNPACK of bytes that are exactly a frame by the length they state, and whose checksum does not close (R178). -/
theorem exec_unpack_badChecksum {v : Version} {w : Buf} (s : State)
    (hlen : w.length = headerSize v + statedLength v ([0x24, letter v, 0x3C] ++ w)) (hc : checksum v w ≠ 0x00)
    (hroom : s.params.holds w.length = true) : exec (.unpack v ([0x24, letter v, 0x3C] ++ w)) s =
      .next { s with resLog := s.resLog ++ [.err .checksumError] } := by
  cases v with
  | v1 =>
    rcases w with _ | ⟨len, _ | ⟨code, tail⟩⟩
    case cons.cons =>
      have htail : tail.length = len.toNat + 1 := by
        have : (len :: code :: tail).length = 3 + len.toNat := hlen
        simp only [List.length_cons] at this; omega
      obtain ⟨d, c, rfl⟩ := (List.eq_nil_or_concat' tail).resolve_left (List.ne_nil_of_length_eq_add_one htail)
      have hd : d.length = len.toNat := by simpa using htail
      have hexec := exec_unpack_frame1 code c [] s (typ := 0x3C) (by decide) hd
        (Params.holds_mono hroom (by simp; omega))
      rw [if_neg, List.append_nil] at hexec
      · exact hexec
      · rintro rfl; exact hc (checksum_append_self .v1 ([len, code] ++ d))
    all_goals simp [headerSize] at hlen; omega
  | v2 =>
    rcases w with _ | ⟨flag, _ | ⟨codeLo, _ | ⟨codeHi, _ | ⟨lenLo, _ | ⟨lenHi, tail⟩⟩⟩⟩⟩
    case cons.cons.cons.cons.cons =>
      have htail : tail.length = lenLo.toNat + 256 * lenHi.toNat + 1 := by
        have : (flag :: codeLo :: codeHi :: lenLo :: lenHi :: tail).length =
          6 + (lenLo.toNat + 256 * lenHi.toNat) := hlen
        simp only [List.length_cons] at this; omega
      obtain ⟨d, c, rfl⟩ := (List.eq_nil_or_concat' tail).resolve_left (List.ne_nil_of_length_eq_add_one htail)
      have hd : d.length = lenLo.toNat + 256 * lenHi.toNat := by simpa using htail
      have hexec := exec_unpack_frame2 flag codeLo codeHi c [] s (typ := 0x3C) (by decide) hd
        (Params.holds_mono hroom (by simp; omega))
      rw [if_neg, List.append_nil] at hexec
      · exact hexec
      · rintro rfl; exact hc (checksum_append_self .v2 ([flag, codeLo, codeHi, lenLo, lenHi] ++ d))
    all_goals simp [headerSize] at hlen; omega

/-- UNPACK of a V1 frame whose header states more bytes than the payload has. -/
theorem exec_unpack_grown1 {data : Buf} {len : Byte} (code c : Byte) (s : State) (h : data.length < len.toNat) :
    exec (.unpack .v1 ([0x24, 0x4D, 0x3C, len, code] ++ data ++ [c])) s =
      .next { s with resLog := s.resLog ++ [.err .shortRead] } := by
  obtain ⟨regs, hrun⟩ := rxMachine_cut1 RxRegs.reset code (g := []) (data := data ++ [c]) (typ := 0x3C) (len := len)
    (by simp) (by decide) (by simpa using h)
  exact execUnpack_fail s (by simpa using hrun)

/-- UNPACK of a V2 frame whose header states more bytes than the payload has. -/
theorem exec_unpack_grown2 {data : Buf} {lenLo lenHi : Byte} (flag codeLo codeHi c : Byte) (s : State)
    (h : data.length < lenLo.toNat + 256 * lenHi.toNat) :
    exec (.unpack .v2 ([0x24, 0x58, 0x3C, flag, codeLo, codeHi, lenLo, lenHi] ++ data ++ [c])) s =
      .next { s with resLog := s.resLog ++ [.err .shortRead] } := by
  obtain ⟨regs, hrun⟩ := rxMachine_cut2 RxRegs.reset flag codeLo codeHi (g := []) (data := data ++ [c]) (typ := 0x3C)
    (lenLo := lenLo) (lenHi := lenHi) (by simp) (by decide) (by simpa using h)
  exact execUnpack_fail s (by simpa using hrun)

/-- The bytes behind a header `h` when the header states `n` bytes of payload and more stand there: the byte taken for the
checksum and the bytes it is compared over. -/
theorem cut_payload {data : Buf} {n : Nat} (hn : n < data.length) (h : Buf) (hh : 3 ≤ h.length) (c : Byte) :
    ∃ x rest, h ++ data ++ [c] = h ++ data.take n ++ [x] ++ rest ∧ (h ++ data ++ [c]).getD (h.length + n) 0 = x ∧
      ((h ++ data ++ [c]).take (h.length + n)).drop 3 = h.drop 3 ++ data.take n := by
  have hsplit : h ++ data ++ [c] = h ++ data.take n ++ [data[n]] ++ (data.drop (n + 1) ++ [c]) := by
    have hd : data.take n ++ ([data[n]] ++ data.drop (n + 1)) = data := by
      rw [List.singleton_append, ← List.drop_eq_getElem_cons hn, List.take_append_drop]
    conv_lhs => rw [← hd]
    simp only [List.append_assoc]
  have hlen : (h ++ data.take n).length = h.length + n := by simp; omega
  refine ⟨data[n], data.drop (n + 1) ++ [c], hsplit, ?_, ?_⟩
  · rw [hsplit, List.append_assoc _ [data[n]], ← hlen]
    simp
  · rw [hsplit, List.append_assoc _ [data[n]], ← hlen, List.take_left, List.drop_append_of_le_length hh]

theorem exec_unpack_shrunk1 {data : Buf} {len : Byte} (code c : Byte) (s : State) (h : len.toNat < data.length)
    (hroom : s.params.holds data.length = true) {f : Buf} (hf : f = [0x24, 0x4D, 0x3C, len, code] ++ data ++ [c]) :
    exec (.unpack .v1 f) s = .next { s with resLog := s.resLog ++
      [if f.getD (5 + len.toNat) 0 = xor8 ((f.take (5 + len.toNat)).drop 3)
        then .ok (.packet (zext16 code) (data.take len.toNat)) else .err .checksumError] } := by
  obtain ⟨x, rest, hsplit, hx, hdrop⟩ := cut_payload h [0x24, 0x4D, 0x3C, len, code] (by simp) c
  rw [← hf] at hsplit hx hdrop
  rw [show 5 + len.toNat = [0x24, 0x4D, 0x3C, len, code].length + len.toNat from rfl, hx, hdrop, hsplit]
  exact exec_unpack_frame1 code x rest s (by decide) (List.length_take_of_le (Nat.le_of_lt h))
    (Params.holds_mono hroom (List.length_take_le' _ _))

theorem exec_unpack_shrunk2 {data : Buf} {lenLo lenHi : Byte} (flag codeLo codeHi c : Byte) (s : State) {n : Nat}
    (hn : n = lenLo.toNat + 256 * lenHi.toNat) (h : n < data.length) (hroom : s.params.holds data.length = true) {f : Buf}
    (hf : f = [0x24, 0x58, 0x3C, flag, codeLo, codeHi, lenLo, lenHi] ++ data ++ [c]) :
    exec (.unpack .v2 f) s = .next { s with resLog := s.resLog ++
      [if f.getD (8 + n) 0 = crc8 ((f.take (8 + n)).drop 3)
        then .ok (.packet (codeHi ++ codeLo) (data.take n)) else .err .checksumError] } := by
  obtain ⟨x, rest, hsplit, hx, hdrop⟩ :=
    cut_payload h [0x24, 0x58, 0x3C, flag, codeLo, codeHi, lenLo, lenHi] (by simp) c
  rw [← hf] at hsplit hx hdrop
  rw [show 8 + n = [0x24, 0x58, 0x3C, flag, codeLo, codeHi, lenLo, lenHi].length + n from rfl, hx, hdrop, hsplit]
  exact exec_unpack_frame2 flag codeLo codeHi x rest s (by decide) ((List.length_take_of_le (Nat.le_of_lt h)).trans hn)
    (Params.holds_mono hroom (List.length_take_le' _ _))

/-- UNPACK of a V1 frame whose length field no longer states the length of its payload: all that can follow. -/
theorem exec_unpack_lengthChanged1 {code : Code} {data : Buf} {len : Byte} (c : Byte) (s : State) (hcode : code.toNat ≤ 255)
    (hne : len.toNat ≠ data.length) (hroom : s.params.holds data.length = true) {f : Buf}
    (hf : f = [0x24, 0x4D, 0x3C, len, byteOf code.toNat 0] ++ data ++ [c]) :
    statedLength .v1 f ≠ data.length ∧
    (data.length < statedLength .v1 f →
      exec (.unpack .v1 f) s = .next { s with resLog := s.resLog ++ [.err .shortRead] }) ∧
    (statedLength .v1 f < data.length → exec (.unpack .v1 f) s = .next { s with resLog := s.resLog ++
      [if f.getD (2 + headerSize .v1 + statedLength .v1 f) 0 =
          checksum .v1 ((f.take (2 + headerSize .v1 + statedLength .v1 f)).drop 3)
        then .ok (.packet code (data.take (statedLength .v1 f))) else .err .checksumError] }) := by
  have hstated : statedLength .v1 f = len.toNat := by rw [hf]; rfl
  rw [hstated]
  refine ⟨hne, fun h => ?_, fun h => ?_⟩
  · rw [hf]; exact exec_unpack_grown1 _ c s h
  · have hexec := exec_unpack_shrunk1 (byteOf code.toNat 0) c s h hroom hf
    rwa [zext16_byteOf hcode] at hexec

/-- The same for V2. -/
theorem exec_unpack_lengthChanged2 {code : Code} {data : Buf} {lenLo lenHi : Byte} (flag c : Byte) (s : State)
    (hne : lenLo.toNat + 256 * lenHi.toNat ≠ data.length) (hroom : s.params.holds data.length = true) {f : Buf}
    (hf : f = [0x24, 0x58, 0x3C, flag, byteOf code.toNat 0, byteOf code.toNat 1, lenLo, lenHi] ++ data ++ [c]) :
    statedLength .v2 f ≠ data.length ∧
    (data.length < statedLength .v2 f →
      exec (.unpack .v2 f) s = .next { s with resLog := s.resLog ++ [.err .shortRead] }) ∧
    (statedLength .v2 f < data.length → exec (.unpack .v2 f) s = .next { s with resLog := s.resLog ++
      [if f.getD (2 + headerSize .v2 + statedLength .v2 f) 0 =
          checksum .v2 ((f.take (2 + headerSize .v2 + statedLength .v2 f)).drop 3)
        then .ok (.packet code (data.take (statedLength .v2 f))) else .err .checksumError] }) := by
  have hstated : statedLength .v2 f = lenLo.toNat + 256 * lenHi.toNat := by rw [hf]; rfl
  rw [hstated]
  refine ⟨hne, fun h => ?_, fun h => ?_⟩
  · rw [hf]; exact exec_unpack_grown2 flag _ _ c s h
  · have hexec := exec_unpack_shrunk2 flag (byteOf code.toNat 0) (byteOf code.toNat 1) c s rfl h hroom hf
    rwa [append_byteOf] at hexec

/-- UNPACK skips a byte that is no `$` in front of its buffer. -/
theorem exec_unpack_skip (v : Version) {x : Byte} (hx : x ≠ 0x24) (b : Buf) (s : State) :
    exec (.unpack v (x :: b)) s = exec (.unpack v b) s := by
  have hrun : rxMachine v RxRegs.reset ⟨x :: b, [], []⟩ = rxMachine v RxRegs.reset ⟨b, [], []⟩ := by
    simp only [rxMachine, rxScan, if_neg (show x ≠ Config.SOF from hx)]
  simp only [exec, execUnpack, hrun]

theorem exec_unpack_noStart (v : Version) {b : Buf} (hb : 0x24 ∉ b) (s : State) :
    exec (.unpack v b) s = .next { s with resLog := s.resLog ++ [.err .shortRead] } := by
  have hrun : rxMachine v RxRegs.reset ⟨b, [], []⟩ = rxStop (.fail .shortRead) v RxRegs.reset ⟨[], [], []⟩ := by
    simp only [rxMachine, rxScan_short hb]; rfl
  exact execUnpack_fail s hrun

theorem exec_unpack_mismatch {v : Version} {x : Byte} (hx : x ≠ letter v) (b : Buf) (s : State) :
    exec (.unpack v ([0x24, x] ++ b)) s = .next { s with resLog := s.resLog ++ [.err .versionMismatch] } :=
  execUnpack_fail s (rxMachine_mismatch RxRegs.reset (g := []) (by simp) hx (answeredInFull_nil _) b [])

/-! ### One bit flipped -/

theorem flipBit_length (b : Buf) (i k : Nat) : (flipBit b i k).length = b.length := List.length_modify _ _ _

theorem flipBit_append_right (p q : Buf) (i k : Nat) : flipBit (p ++ q) (p.length + i) k = p ++ flipBit q i k := by
  induction p with
  | nil => simp
  | cons x xs ih =>
    rw [List.length_cons, Nat.add_right_comm, List.cons_append, flipBit, List.modify_succ_cons, ← flipBit, ih,
      List.cons_append]

theorem flipBit_getD_ne {i j : Nat} (h : i ≠ j) (b : Buf) (k : Nat) : (flipBit b i k).getD j 0 = b.getD j 0 := by
  simp [flipBit, List.getD_eq_getElem?_getD, h]

theorem checksum_flipBit_ne (v : Version) {b : Buf} {i k : Nat} (hi : i < b.length) (hk : k < 8) :
    checksum v (flipBit b i k) ≠ checksum v b := by
  obtain ⟨hcrc, hxor⟩ := Proofs.checksumsDetectEverySingleBitFlip b i k hi hk
  cases v with
  | v1 => exact hxor
  | v2 => exact hcrc

theorem statedLength_frameBytes {v : Version} {code : Code} {data : Buf} (hs : sendable v code data) :
    statedLength v (frameBytes v code data) = data.length := by
  have hfr := framable_of_sendable hs
  cases v with
  | v1 => exact byteOf_zero_toNat_of_le hfr.1
  | v2 => exact byteOf_toNat_add hfr

theorem frameBytes_length (v : Version) (code : Code) (data : Buf) :
    (frameBytes v code data).length = 3 + (headerSize v + data.length) := by
  cases v <;> simp [frameBytes, validFrame, headerSize] <;> omega

/-- From index 3 on, with the stated length as it was, the checksum no longer closes. -/
theorem exec_unpack_flipped_body {v : Version} {code : Code} {data : Buf} {i k : Nat} (s : State)
    (hs : sendable v code data) (hk : k < 8) (hi : 3 ≤ i) (hlen : i < (frameBytes v code data).length)
    (hstated : statedLength v (flipBit (frameBytes v code data) i k) = statedLength v (frameBytes v code data))
    (hroom : s.params.holds (frameBytes v code data).length = true) :
    exec (.unpack v (flipBit (frameBytes v code data) i k)) s =
      .next { s with resLog := s.resLog ++ [.err .checksumError] } := by
  obtain ⟨j, rfl⟩ : ∃ j, i = 3 + j := ⟨i - 3, by omega⟩
  have hsum := checksum_append_self v (frameBody v 0x00 code data)
  rw [← frameBytes_drop_three] at hsum
  have hsplit : frameBytes v code data = [0x24, letter v, 0x3C] ++ (frameBytes v code data).drop 3 := by
    rw [frameBytes_eq]; rfl
  have hflip : flipBit (frameBytes v code data) (3 + j) k =
      [0x24, letter v, 0x3C] ++ flipBit ((frameBytes v code data).drop 3) j k := by
    conv_lhs => rw [hsplit]
    exact flipBit_append_right [0x24, letter v, 0x3C] _ j k
  have hw : ((frameBytes v code data).drop 3).length = headerSize v + data.length := by
    rw [List.length_drop, frameBytes_length]; omega
  rw [hflip] at hstated ⊢
  refine exec_unpack_badChecksum s ?_ ?_ ?_
  · rw [flipBit_length, hw, hstated, statedLength_frameBytes hs]
  · rw [← hsum]
    exact checksum_flipBit_ne v (by rw [frameBytes_length] at hlen; omega) hk
  · rw [flipBit_length]
    exact Params.holds_mono hroom (by rw [List.length_drop]; omega)

/-- No single flip makes a request an error frame. -/
theorem flipped_request_ne {k : Nat} (hk : k < 8) : 0x3C#8 ^^^ BitVec.ofNat 8 (2 ^ k) ≠ 0x21#8 := by
  have h : ∀ j : Fin 8, 0x3C#8 ^^^ BitVec.ofNat 8 (2 ^ j.val) ≠ 0x21#8 := by decide
  exact h ⟨k, hk⟩

end Sys2Proof.Machine

namespace Sys2Proof.Proofs

open Sys2Proof Sys2Proof.Machine Sys2Proof.Safety

/-- Settles O43: what PACK answers is a valid frame (`eq_frameBytes_of_exec_pack`), and a run over it delivers. -/
theorem unpackInvertsPack : Obligations.UnpackInvertsPack := by
  intro v code data frame s h
  obtain ⟨hs, rfl, hroom⟩ := eq_frameBytes_of_exec_pack h
  exact exec_unpack_validFrame 0x00 s (by decide) (framable_of_sendable hs)
    (Params.holds_mono hroom (length_le_frameBytes v code data))

/-- Settles O44: the same run, behind garbage and in front of other bytes. -/
theorem recvDeliversWhatWasPacked : Obligations.RecvDeliversWhatWasPacked := by
  intro code data frame g rest s u hpack ho hf hroom hg hq
  obtain ⟨hs, rfl, -⟩ := eq_frameBytes_of_exec_pack hpack
  obtain ⟨regs, hidle, hrun⟩ := rxMachine_validFrame s.rx 0x00 (typ := 0x3C) hg (by decide) (framable_of_sendable hs) hf
    rest s.rxTail
  exact ⟨regs, hidle, exec_recv_delivers ho hroom (by rw [hq]; exact hrun)⟩

/-- Settles O45: the first run is a mismatch behind two bytes, the second has the residue as garbage in front. -/
theorem versionAutoSwitchThenDelivers : Obligations.VersionAutoSwitchThenDelivers := by
  intro typ1 typ2 flag1 flag2 code1 code2 data1 data2 residue rest s w hw ho hfr1 hfr2 ht2 hres hnone hq hf hroom
  obtain rfl := eq_other_of_ne hw
  rw [answeredInFull_append] at hf
  have hmis := rxMachine_mismatch s.rx (g := []) (by simp) (letter_other_ne s.ver) hf.1
    (residue ++ validFrame s.ver.other typ2 flag2 code2 data2 ++ rest) s.rxTail
  have hq' : s.rxq = [] ++ [0x24, letter s.ver.other] ++
      (residue ++ validFrame s.ver.other typ2 flag2 code2 data2 ++ rest) := by
    rw [hq, validFrame_preamble s.ver.other typ1, ← hres]
    simp only [List.append_assoc, List.nil_append]
  rw [← hq'] at hmis
  have hfirst := execRecv_fail ho hmis
  obtain ⟨regs2, -, hrun⟩ := rxMachine_validFrame (RxRegs.unspecified s.freeCount) flag2 hnone ht2 hfr2 hf.2 rest s.rxTail
  refine ⟨_, RxRegs.unspecified s.freeCount, regs2, s.freeCount + 1, hfirst, rfl, State.maxp_eq _, ?_⟩
  exact exec_recv_delivers (by exact ho) (by exact hroom) hrun

/-- Settles O46, by the place of the bit: behind the preamble and outside the length field the checksum no longer
closes; in the length field the payload read is another; before it the start, the letter or the direction changes. -/
theorem unpackOfAFrameWithOneBitFlipped : Obligations.UnpackOfAFrameWithOneBitFlipped := by
  intro v code data f i k s hs hk hi hf hroom
  have hfr := framable_of_sendable hs
  have hroomF : s.params.holds (frameBytes v code data).length = true := by
    rwa [hf, flipBit_length] at hroom
  have hroomD : s.params.holds data.length = true := Params.holds_mono hroomF (length_le_frameBytes v code data)
  refine ⟨?body, ?length, ?direction, ?letter, ?start⟩
  case body =>
    rintro (⟨rfl, h4⟩ | ⟨rfl, h3, h6, h7⟩)
    · rw [hf]
      refine exec_unpack_flipped_body s hs hk (by omega) hi ?_ hroomF
      rw [statedLength, statedLength, flipBit_getD_ne (by omega)]
    · rw [hf]
      refine exec_unpack_flipped_body s hs hk h3 hi ?_ hroomF
      rw [statedLength, statedLength, flipBit_getD_ne h6, flipBit_getD_ne h7]
  case length =>
    rintro (⟨rfl, rfl⟩ | ⟨rfl, rfl | rfl⟩)
    · refine exec_unpack_lengthChanged1 _ s hs.2 (fun h => ?_) hroomD hf
      exact xor_bit_ne hk _ (BitVec.eq_of_toNat_eq (h.trans (byteOf_zero_toNat_of_le hfr.1).symm))
    · refine exec_unpack_lengthChanged2 0x00 _ s (fun h => ?_) hroomD hf
      exact xor_bit_ne hk _ (BitVec.eq_of_toNat_eq (Nat.add_right_cancel (h.trans (byteOf_toNat_add hfr).symm)))
    · refine exec_unpack_lengthChanged2 0x00 _ s (fun h => ?_) hroomD hf
      have hhi := Nat.add_left_cancel (h.trans (byteOf_toNat_add hfr).symm)
      exact xor_bit_ne hk _ (BitVec.eq_of_toNat_eq (Nat.eq_of_mul_eq_mul_left (by decide) hhi))
  case direction =>
    rintro rfl
    have hflip : f = validFrame v (0x3C ^^^ BitVec.ofNat 8 (2 ^ k)) 0x00 code data := by
      rw [hf]; cases v <;> rfl
    rw [hflip]
    exact exec_unpack_validFrame 0x00 s (flipped_request_ne hk) hfr hroomD
  case letter =>
    rintro rfl
    have hflip : f = [0x24, letter v ^^^ BitVec.ofNat 8 (2 ^ k)] ++ (frameBytes v code data).drop 2 := by
      rw [hf]; cases v <;> rfl
    rw [hflip]
    exact exec_unpack_mismatch (xor_bit_ne hk _) _ s
  case start =>
    rintro rfl
    have hflip : f = (0x24 ^^^ BitVec.ofNat 8 (2 ^ k)) :: (frameBytes v code data).drop 1 := by
      rw [hf]; cases v <;> rfl
    rw [hflip, exec_unpack_skip v (xor_bit_ne hk _)]
    exact ⟨rfl, fun h => exec_unpack_noStart v h s⟩

end Sys2Proof.Proofs
end

section
/-! PROOFS. What an operation can do (spec/10_state.md R33, 60_exceptions.md R210): the operations by family, the pure
ones as functions of their operands and the machine's parameters, and one inversion for every next state; with the
control operations GETMAXP and FLUSH (44_control.md R202, R203). -/

namespace Sys2Proof.Machine

open Sys2Proof.Safety

/-! ### Families -/

/-- To prove a statement of every operation, prove it of each family; the integer type is an argument. -/
theorem Instr.byFamily {motive : Instr → Prop} (decodeInt : ∀ T b k, motive (decodeIntOf T b k))
    (encodeInt : ∀ T v b, motive (encodeIntOf T v b)) (decodeFloat32 : ∀ T b k x, motive (decodeFloat32Of T b k x))
    (decodeFloat64 : ∀ T b k x, motive (decodeFloat64Of T b k x)) (xor8Buf : ∀ b, motive (.xor8Buf b))
    (crc8Buf : ∀ b, motive (.crc8Buf b)) (crcClr : motive .crcClr) (crcUpd : ∀ x, motive (.crcUpd x))
    (crcRd : motive .crcRd) (pack : ∀ v c b, motive (.pack v c b)) (send : ∀ c b, motive (.send c b))
    (unpack : ∀ v b, motive (.unpack v b)) (recv : motive .recv) (setVer : ∀ v, motive (.setVer v))
    (getVer : motive .getVer) (getMaxp : motive .getMaxp) (flush : motive .flush) : ∀ i, motive i
  | .decodeIntU8 b k => decodeInt .u8 b k
  | .decodeIntI8 b k => decodeInt .i8 b k
  | .decodeIntU16 b k => decodeInt .u16 b k
  | .decodeIntI16 b k => decodeInt .i16 b k
  | .decodeIntU32 b k => decodeInt .u32 b k
  | .decodeIntI32 b k => decodeInt .i32 b k
  | .decodeIntU64 b k => decodeInt .u64 b k
  | .decodeIntI64 b k => decodeInt .i64 b k
  | .encodeIntU8 v b => encodeInt .u8 v b
  | .encodeIntI8 v b => encodeInt .i8 v b
  | .encodeIntU16 v b => encodeInt .u16 v b
  | .encodeIntI16 v b => encodeInt .i16 v b
  | .encodeIntU32 v b => encodeInt .u32 v b
  | .encodeIntI32 v b => encodeInt .i32 v b
  | .encodeIntU64 v b => encodeInt .u64 v b
  | .encodeIntI64 v b => encodeInt .i64 v b
  | .decodeFloatU8F32 b k x => decodeFloat32 .u8 b k x
  | .decodeFloatI8F32 b k x => decodeFloat32 .i8 b k x
  | .decodeFloatU16F32 b k x => decodeFloat32 .u16 b k x
  | .decodeFloatI16F32 b k x => decodeFloat32 .i16 b k x
  | .decodeFloatU32F32 b k x => decodeFloat32 .u32 b k x
  | .decodeFloatI32F32 b k x => decodeFloat32 .i32 b k x
  | .decodeFloatU64F32 b k x => decodeFloat32 .u64 b k x
  | .decodeFloatI64F32 b k x => decodeFloat32 .i64 b k x
  | .decodeFloatU8F64 b k x => decodeFloat64 .u8 b k x
  | .decodeFloatI8F64 b k x => decodeFloat64 .i8 b k x
  | .decodeFloatU16F64 b k x => decodeFloat64 .u16 b k x
  | .decodeFloatI16F64 b k x => decodeFloat64 .i16 b k x
  | .decodeFloatU32F64 b k x => decodeFloat64 .u32 b k x
  | .decodeFloatI32F64 b k x => decodeFloat64 .i32 b k x
  | .decodeFloatU64F64 b k x => decodeFloat64 .u64 b k x
  | .decodeFloatI64F64 b k x => decodeFloat64 .i64 b k x
  | .xor8Buf b => xor8Buf b
  | .crc8Buf b => crc8Buf b
  | .crcClr => crcClr
  | .crcUpd x => crcUpd x
  | .crcRd => crcRd
  | .pack v c b => pack v c b
  | .send c b => send c b
  | .unpack v b => unpack v b
  | .recv => recv
  | .setVer v => setVer v
  | .getVer => getVer
  | .getMaxp => getMaxp
  | .flush => flush

/-- The rows of dashes of R33: the operations that neither read nor write the state. -/
def isPure : Instr → Bool
  | .crcClr | .crcUpd _ | .crcRd | .send _ _ | .recv | .setVer _ | .getVer | .getMaxp | .flush => false
  | _ => true

/-- To prove a statement of every operation, prove it of the pure ones and of the nine others. -/
theorem Instr.byPurity {motive : Instr → Prop} (pure : ∀ i, isPure i = true → motive i) (crcClr : motive .crcClr)
    (crcUpd : ∀ x, motive (.crcUpd x)) (crcRd : motive .crcRd) (send : ∀ c b, motive (.send c b)) (recv : motive .recv)
    (setVer : ∀ v, motive (.setVer v)) (getVer : motive .getVer) (getMaxp : motive .getMaxp) (flush : motive .flush)
    (i : Instr) : motive i :=
  Instr.byFamily (fun T b k => pure _ (by cases T <;> rfl)) (fun T v b => pure _ (by cases T <;> rfl))
    (fun T b k x => pure _ (by cases T <;> rfl)) (fun T b k x => pure _ (by cases T <;> rfl)) (fun _ => pure _ rfl)
    (fun _ => pure _ rfl) crcClr crcUpd crcRd (fun _ _ _ => pure _ rfl) send (fun _ _ => pure _ rfl) recv setVer getVer
    getMaxp flush i

/-! ### The pure operations -/

/-- A value of an unbounded block always fits. -/
theorem fits_unbounded {P : Params} (h : P.bufCap = none) (v : Value) : v.fits P = true := by
  cases v <;> simp [Value.fits, Params.holds, h]

/-- The end of a pure operation: a result, or the refusal of an operand that cannot be written down. -/
def finish (a : Option Result) (s : State) : Outcome :=
  match a with
  | some (.ok v) => ret v s
  | some (.err k) => raise k s
  | none => .refused .valueOutOfRange

/-- What a fetch answers: ShortBuffer, or the value made of the integer. -/
def fetched (f : Int → Value) : Option Int → Result
  | none => .err .shortBuffer
  | some i => .ok (f i)

theorem decodeInt_eq_finish (T : IntType) (b : Buf) (k : Nat) (s : State) :
    decodeInt T b k s = finish (some (fetched .int (fetchInt T b k))) s := by
  unfold decodeInt
  cases fetchInt T b k <;> rfl

theorem decodeFloat_eq_finish {F : Type} (cvt : IntType → Int → F) (fmul : F → F → F) (val : F → Value) (T : IntType)
    (b : Buf) (k : Nat) (x : F) (s : State) : decodeFloat cvt fmul val T b k x s =
      finish (some (fetched (fun i => val (fmul (cvt T i) x)) (fetchInt T b k))) s := by
  unfold decodeFloat
  cases fetchInt T b k <;> rfl

theorem encodeInt_eq_finish (T : IntType) (v : Int) (b : Buf) (s : State) : encodeInt T v b s =
    finish (if T.inRange v then some (.ok (.grown (memWrite b (leBytes T v)))) else none) s := by
  unfold encodeInt
  split <;> rfl

/-- The operation is a fetch that finds too few bytes (R91). -/
def FetchesShort (i : Instr) : Prop :=
  ∃ T b k, b.length < k + T.size ∧
    (i = decodeIntOf T b k ∨ (∃ x, i = decodeFloat32Of T b k x) ∨ ∃ x, i = decodeFloat64Of T b k x)

/-- The kinds with which an operation can end without having changed anything, and which operations can. -/
def FailsUnchanged (i : Instr) : ErrKind → Prop
  | .portClosed | .payloadTooLarge | .badOperand => True
  | .shortBuffer => FetchesShort i
  | .shortRead | .versionMismatch | .remoteError | .checksumError => ∃ v f, i = .unpack v f
  | .writeShort | .outOfRange | .unsupported => False

theorem fetched_err {f : Int → Value} {T : IntType} {b : Buf} {k : Nat} {e : ErrKind}
    (h : fetched f (fetchInt T b k) = .err e) : e = .shortBuffer ∧ b.length < k + T.size := by
  rcases Nat.lt_or_ge b.length (k + T.size) with hlt | hge
  · rw [fetchInt_short hlt] at h
    exact ⟨(Result.err.inj h).symm, hlt⟩
  · rw [fetchInt_full hge] at h
    cases h

/-- `a` is what the pure operation `i` ends with at the parameters `P`, whatever the state. -/
structure PureAnswer (P : Params) (i : Instr) (a : Option Result) : Prop where
  runs : ∀ s : State, s.params = P → exec i s = finish a s
  unwritable : a = none → i.wellFormed = false
  kinds : ∀ e, a = some (.err e) → FailsUnchanged i e

theorem PureAnswer.of_value {P : Params} {i : Instr} {v : Value}
    (h : ∀ s : State, s.params = P → exec i s = ret v s) : PureAnswer P i (some (.ok v)) :=
  ⟨h, nofun, nofun⟩

theorem PureAnswer.of_error {P : Params} {i : Instr} {e : ErrKind}
    (h : ∀ s : State, s.params = P → exec i s = raise e s) (he : FailsUnchanged i e) :
    PureAnswer P i (some (.err e)) :=
  ⟨h, nofun, by rintro _ ⟨⟩; exact he⟩

theorem PureAnswer.of_fetch {P : Params} {i : Instr} {f : Int → Value} {T : IntType} {b : Buf} {k : Nat}
    (h : ∀ s : State, s.params = P → exec i s = finish (some (fetched f (fetchInt T b k))) s)
    (hi : i = decodeIntOf T b k ∨ (∃ x, i = decodeFloat32Of T b k x) ∨ ∃ x, i = decodeFloat64Of T b k x) :
    PureAnswer P i (some (fetched f (fetchInt T b k))) := by
  refine ⟨h, nofun, fun e he => ?_⟩
  obtain ⟨rfl, hlt⟩ := fetched_err (Option.some.inj he)
  exact ⟨T, b, k, hlt, hi⟩

/-- UNPACK fails with one of the four kinds of the receive machine. -/
theorem failsUnchanged_of_run {v : Version} {f : Buf} {e : RxEnd} {st : RxStream} (hgood : e.Good v st) {k : ErrKind}
    (hk : e.outcome = .fail k) : FailsUnchanged (.unpack v f) k := by
  rcases hgood.kinds with ⟨-, -, ⟨c, d, h⟩ | ⟨k', h, rfl | rfl | rfl⟩⟩ | ⟨-, -, h⟩
  · rw [hk] at h; cases h
  all_goals
    rw [hk] at h
    cases h
    exact ⟨v, f, rfl⟩

theorem exists_pureAnswer (P : Params) (i : Instr) (hi : isPure i = true) : ∃ a, PureAnswer P i a := by
  induction i using Instr.byFamily with
  | decodeInt T b k =>
    exact ⟨_, .of_fetch (fun s _ => by rw [exec_decodeIntOf, decodeInt_eq_finish]) (.inl rfl)⟩
  | decodeFloat32 T b k x =>
    refine ⟨_, .of_fetch (f := fun i => .f32 (P.floats.fmul32 (P.floats.cvt32 T i) x)) (fun s hs => ?_)
      (.inr (.inl ⟨x, rfl⟩))⟩
    rw [exec_decodeFloat32Of, decodeFloat32, decodeFloat_eq_finish, hs]
  | decodeFloat64 T b k x =>
    refine ⟨_, .of_fetch (f := fun i => .f64 (P.floats.fmul64 (P.floats.cvt64 T i) x)) (fun s hs => ?_)
      (.inr (.inr ⟨x, rfl⟩))⟩
    rw [exec_decodeFloat64Of, decodeFloat64, decodeFloat_eq_finish, hs]
  | encodeInt T v b =>
    refine ⟨_, fun s _ => by rw [exec_encodeIntOf, encodeInt_eq_finish], fun h => ?_, fun e h => ?_⟩
    · rw [wellFormed_encodeIntOf]
      by_contra hv
      rw [if_pos (by simpa using hv)] at h
      cases h
    · split at h <;> cases h
  | xor8Buf b => exact ⟨_, .of_value (v := .byte (xor8 b)) fun _ _ => rfl⟩
  | crc8Buf b => exact ⟨_, .of_value (v := .byte (crc8 b)) fun _ _ => rfl⟩
  | pack v c b =>
    cases hg : packGuard v c b with
    | none => exact ⟨_, .of_value fun s _ => exec_pack_sendable s ((packGuard_none v c b).1 hg)⟩
    | some k =>
      refine ⟨_, .of_error (fun s _ => exec_pack_refused s hg) ?_⟩
      rcases packGuard_kind hg with rfl | rfl <;> trivial
  | unpack v f =>
    obtain ⟨e, he⟩ := rxMachine_nil_ended v RxRegs.reset f
    have hgood := rxMachine_good v RxRegs.reset ⟨f, [], []⟩
    rw [he] at hgood
    cases ho : e.outcome with
    | deliver c d => exact ⟨_, .of_value (v := .packet c d) fun s _ => by simp only [exec, execUnpack, he, ho]⟩
    | fail k =>
      exact ⟨_, .of_error (fun s _ => by simp only [exec, execUnpack, he, ho]) (failsUnchanged_of_run hgood ho)⟩
  | crcClr | crcUpd | crcRd | send | recv | setVer | getVer | getMaxp | flush => cases hi

/-- A pure operation that ends does so at every state of these parameters, with the same result. -/
theorem finish_next {a : Option Result} {s t : State} (h : finish a s = .next t) : ∃ r, a = some r ∧
    t = { s with resLog := s.resLog ++ [r] } ∧
    ∀ s' : State, s'.params = s.params → finish a s' = .next { s' with resLog := s'.resLog ++ [r] } := by
  match a, h with
  | some (.err k), h =>
    exact ⟨_, rfl, (Host.Outcome.next.inj h).symm, fun s' _ => raise_eq k s'⟩
  | some (.ok v), h =>
    change ret v s = .next t at h
    cases hf : v.fits s.params with
    | false => rw [ret_full hf] at h; cases h
    | true =>
      rw [ret_eq hf] at h
      exact ⟨_, rfl, (Host.Outcome.next.inj h).symm, fun s' hs => ret_eq (by rw [hs]; exact hf)⟩

/-! ### The other operations -/

theorem exec_getMaxp (s : State) :
    exec .getMaxp s = .next { s with resLog := s.resLog ++ [.ok (.int s.maxp)] } :=
  ret_eq (v := .int s.maxp) rfl

theorem exec_flush (s : State) :
    exec .flush s = .next { flushRx s with resLog := s.resLog ++ [.ok .none] } := by
  have h : exec .flush s = ret .none (flushRx s) := rfl
  rw [h, ret_eq rfl, flushRx_resLog]

/-- SEND reads VER, PORT_OPEN and the answers to writes, and no other state. -/
theorem exec_send_reads (code : Code) (data : Buf) (s : State) : ∃ (b : Buf) (as : List Nat) (r : Result),
    ∀ s' : State, s'.ver = s.ver → s'.portOpen = s.portOpen → s'.txAnswers = s.txAnswers →
      exec (.send code data) s' = .next { s' with
        txlog := s'.txlog ++ b, txAnswers := as, resLog := s'.resLog ++ [r] } := by
  cases ho : s.portOpen with
  | false =>
    refine ⟨[], s.txAnswers, .err .portClosed, fun s' _ ho' ha' => ?_⟩
    rw [exec_send_closed ho', ← ha', List.append_nil]
  | true =>
    cases hg : packGuard s.ver code data with
    | some k =>
      refine ⟨[], s.txAnswers, .err k, fun s' hv' ho' ha' => ?_⟩
      rw [exec_send_refused ho' (by rw [hv']; exact hg), ← ha', List.append_nil]
    | none =>
      have hs := (packGuard_none _ _ _).1 hg
      obtain ⟨m, -, hnil, hcons, -⟩ := exec_send_sendable ho hs
      refine ⟨(frameBytes s.ver code data).take m, s.txAnswers.tail,
        if m < (frameBytes s.ver code data).length then .err .writeShort else .ok .none, fun s' hv' ho' ha' => ?_⟩
      obtain ⟨m', -, hnil', hcons', hexec⟩ := exec_send_sendable (s := s') ho' (by rw [hv']; exact hs)
      rw [ha', hv'] at hnil' hcons'
      have hm : m' = m := by
        cases ha : s.txAnswers with
        | nil => rw [hnil ha, hnil' ha]
        | cons a as => rw [hcons a as ha, hcons' a as ha]
      rw [hexec, hm, hv', ha']

/-- The next states RECV can have (R182): the port was closed, or its run delivered, or its run failed. -/
inductive RecvNext (s : State) : State → Prop where
  | closed : s.portOpen = false → RecvNext s { s with resLog := s.resLog ++ [.err .portClosed] }
  | delivers (c : Code) (d : Buf) (v : Version) (ws : List Warning) (regs : RxRegs) (st : RxStream) :
      s.portOpen = true → s.params.holds d.length = true →
      rxMachine s.ver s.rx s.rxStream = .ended ⟨.deliver c d, v, ws, regs, st⟩ → RecvNext s { s with
        rxq := st.bytes, rxTail := st.tail, rxAnswers := st.answers, ver := v, warnlog := s.warnlog ++ ws, rx := regs
        resLog := s.resLog ++ [.ok (.packet c d)] }
  | fails (k : ErrKind) (v : Version) (ws : List Warning) (regs : RxRegs) (st : RxStream) :
      s.portOpen = true → rxMachine s.ver s.rx s.rxStream = .ended ⟨.fail k, v, ws, regs, st⟩ → RecvNext s { s with
        rxq := st.bytes, rxTail := st.tail, rxAnswers := st.answers, ver := v, warnlog := s.warnlog ++ ws
        rx := rxRegsAfterFail k regs s.freeCount, freeCount := s.freeCount + 1
        resLog := s.resLog ++ [.err k] }

/-- RECV ends with a next state, or is refused where a finite BUFCAP has no room for the payload, or hangs. -/
theorem exec_recv_cases (s : State) : (∃ t, exec .recv s = .next t ∧ RecvNext s t) ∨
    (exec .recv s = .refused .bufferCapacity ∧ s.params.bufCap ≠ none) ∨
    (∃ why, exec .recv s = .fault why ∧ s.portOpen = true ∧ (RxRun.hung why).Good s.ver s.rxStream) := by
  cases ho : s.portOpen with
  | false => exact .inl ⟨_, exec_recv_closed ho, .closed ho⟩
  | true =>
    have hgood := rxMachine_good s.ver s.rx s.rxStream
    cases hrun : rxMachine s.ver s.rx s.rxStream with
    | hung why => exact .inr (.inr ⟨why, exec_recv_hung ho hrun, rfl, hrun ▸ hgood⟩)
    | ended e =>
      obtain ⟨out, v, ws, regs, st⟩ := e
      cases out with
      | fail k => exact .inl ⟨_, execRecv_fail ho hrun, .fails k v ws regs st ho hrun⟩
      | deliver c d =>
        cases hd : s.params.holds d.length with
        | true => exact .inl ⟨_, execRecv_deliver ho hd hrun, .delivers c d v ws regs st ho hd hrun⟩
        | false =>
          refine .inr (.inl ⟨?_, fun hb => ?_⟩)
          · have hexec : exec .recv s = ret (.packet c d) { s.afterRun ⟨.deliver c d, v, ws, regs, st⟩ with rx := regs } := by
              simp only [exec, execRecv, ho, if_true, hrun]
            rw [hexec]
            exact ret_full hd
          · rw [Params.holds, hb] at hd; cases hd

theorem recvNext_of_exec {s t : State} (h : exec .recv s = .next t) : RecvNext s t := by
  rcases exec_recv_cases s with ⟨t', h', hr⟩ | ⟨h', -⟩ | ⟨why, h', -⟩
  · obtain rfl := Host.Outcome.next.inj (h.symm.trans h')
    exact hr
  all_goals rw [h'] at h; cases h

theorem exec_of_recvNext {s t : State} (h : RecvNext s t) : exec .recv s = .next t := by
  cases h with
  | closed ho => exact exec_recv_closed ho
  | delivers c d v ws regs st ho hd hrun => exact execRecv_deliver ho hd hrun
  | fails k v ws regs st ho hrun => exact execRecv_fail ho hrun

/-! ### Every next state -/

/-- What an operation that ends has done to the state `s`: it answered and changed nothing else, or it is one of the
operations that write state. -/
inductive Effect (s : State) : Instr → State → Prop where
  | answer (i : Instr) (r : Result) : (∀ k, r = .err k → FailsUnchanged i k) →
      Effect s i { s with resLog := s.resLog ++ [r] }
  | crc (i : Instr) (c : Byte) : (i = .crcClr ∨ ∃ x, i = .crcUpd x) →
      Effect s i { s with crcAcc := c, resLog := s.resLog ++ [.ok .none] }
  | setVer (v : Version) : Effect s (.setVer v) { s with ver := v, resLog := s.resLog ++ [.ok .none] }
  | flush (k : Nat) : Effect s .flush { s with
      rxq := s.rxq.drop k, rxTail := s.rxTail.rotate (k - s.rxq.length), flushAnswers := s.flushAnswers.tail
      rxflush := s.rxflush + 1, resLog := s.resLog ++ [.ok .none] }
  | send (code : Code) (data : Buf) (m : Nat) : sendable s.ver code data → m ≤ (frameBytes s.ver code data).length →
      Effect s (.send code data) { s with
        txlog := s.txlog ++ (frameBytes s.ver code data).take m, txAnswers := s.txAnswers.tail
        resLog := s.resLog ++ [if m < (frameBytes s.ver code data).length then .err .writeShort else .ok .none] }
  | recvDelivers (c : Code) (d : Buf) (e : RxEnd) : e.Good s.ver s.rxStream → e.outcome = .deliver c d →
      Effect s .recv { s with
        rxq := e.stream.bytes, rxTail := e.stream.tail, rxAnswers := e.stream.answers, ver := e.version
        warnlog := s.warnlog ++ e.warnings, rx := e.regs, resLog := s.resLog ++ [.ok (.packet c d)] }
  | recvFails (k : ErrKind) (e : RxEnd) : e.Good s.ver s.rxStream → e.outcome = .fail k →
      Effect s .recv { s with
        rxq := e.stream.bytes, rxTail := e.stream.tail, rxAnswers := e.stream.answers, ver := e.version
        warnlog := s.warnlog ++ e.warnings, rx := rxRegsAfterFail k e.regs s.freeCount, freeCount := s.freeCount + 1
        resLog := s.resLog ++ [.err k] }

theorem effect_of_recvNext {s t : State} (h : RecvNext s t) : Effect s .recv t := by
  have hgood := rxMachine_good s.ver s.rx s.rxStream
  cases h with
  | closed _ => exact .answer .recv _ (by rintro _ ⟨⟩; trivial)
  | delivers c d v ws regs st _ _ hrun =>
    rw [hrun] at hgood
    exact .recvDelivers c d ⟨.deliver c d, v, ws, regs, st⟩ hgood rfl
  | fails k v ws regs st _ hrun =>
    rw [hrun] at hgood
    exact .recvFails k ⟨.fail k, v, ws, regs, st⟩ hgood rfl

theorem exec_send_effect (code : Code) (data : Buf) (s : State) :
    ∃ t, exec (.send code data) s = .next t ∧ Effect s (.send code data) t := by
  cases ho : s.portOpen with
  | false => exact ⟨_, exec_send_closed ho code data, .answer _ _ (by rintro _ ⟨⟩; trivial)⟩
  | true =>
    cases hg : packGuard s.ver code data with
    | some k =>
      refine ⟨_, exec_send_refused ho hg, .answer _ _ ?_⟩
      rintro _ ⟨⟩
      rcases packGuard_kind hg with rfl | rfl <;> trivial
    | none =>
      have hs := (packGuard_none _ _ _).1 hg
      obtain ⟨m, hm, -, -, hexec⟩ := exec_send_sendable ho hs
      exact ⟨_, hexec, .send code data m hs hm⟩

/-- The operations that are neither pure nor RECV always end. -/
theorem exec_ends {i : Instr} (hi : isPure i = false) (hr : i ≠ .recv) (s : State) :
    ∃ t, exec i s = .next t ∧ Effect s i t := by
  induction i using Instr.byPurity with
  | pure i h => rw [h] at hi; cases hi
  | recv => exact absurd rfl hr
  | crcClr => exact ⟨_, exec_crcClr s, .crc _ _ (.inl rfl)⟩
  | crcUpd x => exact ⟨_, exec_crcUpd x s, .crc _ _ (.inr ⟨x, rfl⟩)⟩
  | crcRd => exact ⟨_, exec_crcRd s, .answer _ _ nofun⟩
  | send code data => exact exec_send_effect code data s
  | setVer v => exact ⟨_, exec_setVer v s, .setVer v⟩
  | getVer => exact ⟨_, exec_getVer s, .answer _ _ nofun⟩
  | getMaxp => exact ⟨_, exec_getMaxp s, .answer _ _ nofun⟩
  | flush =>
    obtain ⟨k, hk, -⟩ := flushRx_spec s
    exact ⟨_, exec_flush s, by rw [hk]; exact .flush k⟩

/-- Every next state of every operation. -/
theorem effect_of_exec {i : Instr} {s t : State} (h : exec i s = .next t) : Effect s i t := by
  cases hp : isPure i with
  | true =>
    obtain ⟨a, ha⟩ := exists_pureAnswer s.params i hp
    rw [ha.runs s rfl] at h
    obtain ⟨r, rfl, rfl, -⟩ := finish_next h
    exact .answer i r fun k hk => ha.kinds k (by rw [hk])
  | false =>
    by_cases hr : i = .recv
    · subst hr
      exact effect_of_recvNext (recvNext_of_exec h)
    · obtain ⟨t', h', heff⟩ := exec_ends hp hr s
      obtain rfl := Host.Outcome.next.inj (h.symm.trans h')
      exact heff

end Sys2Proof.Machine

namespace Sys2Proof.Proofs

open Sys2Proof Sys2Proof.Machine Sys2Proof.Safety

/-- Settles O48: GETMAXP answers MAXP, which is the maximum of VER. -/
theorem getmaxpReturnsTheMaximumOfVer : Obligations.GetmaxpReturnsTheMaximumOfVer := by
  intro s
  refine ⟨rfl, ?_⟩
  rw [exec_getMaxp, State.maxp_eq]
  cases s.ver <;> rfl

/-- Settles O49: the answer listed, or all of `rxq` with none listed, is how many bytes a flush drops. -/
theorem flushDiscardsTheArrivedBytes : Obligations.FlushDiscardsTheArrivedBytes := by
  intro arrived flight k ks s
  obtain ⟨m, hflush, hnil, hcons⟩ := flushRx_spec s
  refine ⟨rfl, fun ha => ?_, fun ha hq => ?_, fun ha hk => ?_⟩
  · rw [exec_flush, hflush, hnil ha, List.drop_length, Nat.sub_self, List.rotate_zero, ha]
    simp only [List.tail_nil]
  · obtain rfl := hcons _ _ ha
    have hle : arrived.length - s.rxq.length = 0 := by rw [hq, List.length_append]; omega
    rw [exec_flush, hflush, hle, List.rotate_zero, ha, hq, List.drop_left]
    rfl
  · obtain rfl := hcons _ _ ha
    rw [exec_flush, hflush, List.drop_eq_nil_of_le hk, ha]
    rfl

end Sys2Proof.Proofs
end

section
/-! PROOFS. The rules of the whole machine (spec/10_state.md R32, R33, 60_exceptions.md R210 to R225, 70 R248,
20_memory.md R52), each from the inversion `effect_of_exec` or, where an operation is run at two states, from what the
operation reads. -/

namespace Sys2Proof.Machine

open Sys2Proof.Safety

/-! ### Two states that differ in what an operation does not read -/

theorem flushRx_crcAcc_update (s : State) (c : Byte) :
    flushRx { s with crcAcc := c } = { flushRx s with crcAcc := c } := by
  simp only [flushRx]; split <;> rfl

theorem flushRx_rx_update (s : State) (regs : RxRegs) (n : Nat) :
    flushRx { s with rx := regs, freeCount := n } = { flushRx s with rx := regs, freeCount := n } := by
  simp only [flushRx]; split <;> rfl

/-- CRCACC is no part of what a run of RECV reads. -/
theorem RecvNext.at_crcAcc {s t : State} (h : RecvNext s t) (c : Byte) :
    RecvNext { s with crcAcc := c } { t with crcAcc := c } := by
  cases h with
  | closed ho => exact .closed ho
  | delivers co d v ws regs st ho hd hrun => exact .delivers co d v ws regs st ho hd hrun
  | fails k v ws regs st ho hrun => exact .fails k v ws regs st ho hrun

/-- The old working registers decide nothing but what a failed run leaves in them. -/
theorem RecvNext.at_rx {s t : State} (h : RecvNext s t) (regs : RxRegs) (n : Nat) :
    ∃ regs' n', RecvNext { s with rx := regs, freeCount := n } { t with rx := regs', freeCount := n' } := by
  have hagree := rxMachine_agree s.ver s.rx regs s.rxStream
  cases h with
  | closed ho => exact ⟨_, _, .closed ho⟩
  | delivers c d v ws r st ho hd hrun =>
    rw [hrun] at hagree
    generalize hrun' : rxMachine s.ver regs s.rxStream = run at hagree
    cases hagree with
    | ended _ _ _ _ r' _ => exact ⟨_, _, .delivers c d v ws r' st ho hd hrun'⟩
  | fails k v ws r st ho hrun =>
    rw [hrun] at hagree
    generalize hrun' : rxMachine s.ver regs s.rxStream = run at hagree
    cases hagree with
    | ended _ _ _ _ r' _ => exact ⟨_, _, .fails k v ws r' st ho hrun'⟩

/-! ### The invariant -/

/-- The kinds the block never raises (60_exceptions.md R220, R221). -/
def NeverRaised (r : Result) : Prop := r = .err .outOfRange ∨ r = .err .unsupported

theorem FailsUnchanged.not_neverRaised {i : Instr} {r : Result} (h : ∀ k, r = .err k → FailsUnchanged i k) :
    ¬ NeverRaised r := by
  rintro (rfl | rfl)
  · exact h _ rfl
  · exact h _ rfl

/-- Results and wire move on together: one more result, and a piece of a frame that is whole unless the result is
WriteShort. -/
theorem txFramed_append {s t : State} (h : TxFramed s) {p : TxPart} (hp : p.ok) {r : Result}
    (htx : t.txlog = s.txlog ++ p.bytes) (hres : t.resLog = s.resLog ++ [r])
    (hwhole : p.whole = false → r = .err .writeShort) : TxFramed t := by
  obtain ⟨parts, hbytes, hok, hcount⟩ := h
  refine ⟨parts ++ [p], ?_, ?_, ?_⟩
  · simp [hbytes, htx]
  · intro q hq
    rcases List.mem_append.1 hq with hq | hq
    · exact hok q hq
    · rw [List.mem_singleton.1 hq]; exact hp
  · rw [hres, List.countP_append, List.count_append]
    refine Nat.add_le_add hcount ?_
    cases hw : p.whole with
    | true => simp [hw]
    | false => simp [hw, hwhole hw]

/-- An operation that writes nothing on the wire keeps (I-3). -/
theorem txFramed_of_result {s t : State} (h : TxFramed s) {r : Result} (htx : t.txlog = s.txlog)
    (hres : t.resLog = s.resLog ++ [r]) : TxFramed t := by
  obtain ⟨parts, hbytes, hok, hcount⟩ := h
  refine ⟨parts, hbytes.trans htx.symm, hok, hcount.trans ?_⟩
  rw [hres, List.count_append]
  exact Nat.le_add_right _ _

theorem neverRaised_append {l : List Result} {r : Result} (h : .err .outOfRange ∉ l ∧ .err .unsupported ∉ l)
    (hr : ¬ NeverRaised r) : .err .outOfRange ∉ l ++ [r] ∧ .err .unsupported ∉ l ++ [r] := by
  obtain ⟨h1, h2⟩ := h
  simp only [NeverRaised, not_or] at hr
  simp [h1, h2, Ne.symm hr.1, Ne.symm hr.2]

@[simp] theorem rxRegsAfterFail_data_length_le (k : ErrKind) (regs : RxRegs) (n : Nat) :
    (rxRegsAfterFail k regs n).data.length ≤ 65535 := by
  have h : (RxRegs.unspecified n).data.length ≤ 65535 := List.length_take_le _ _
  cases k <;> exact h

/-- What stands on the wire of a frame of which `m` bytes were accepted. -/
def acceptedPart (frame : Buf) (m : Nat) : TxPart := ⟨frame.take m, decide (m = frame.length)⟩

theorem ok_acceptedPart {v : Version} {code : Code} {data : Buf} (hs : sendable v code data) (m : Nat) :
    (acceptedPart (frameBytes v code data) m).ok := by
  refine ⟨v, code, data, hs, List.take_prefix _ _, fun h => ?_⟩
  have hm : m = (frameBytes v code data).length := of_decide_eq_true h
  exact (congrArg (List.take · _) hm).trans List.take_length

/-- A run of RECV fails with a kind the block does raise. -/
theorem RxEnd.Good.not_neverRaised {v : Version} {st : RxStream} {e : RxEnd} (h : e.Good v st) {k : ErrKind}
    (hk : e.outcome = .fail k) : ¬ NeverRaised (.err k) :=
  FailsUnchanged.not_neverRaised (i := .unpack v []) fun _ h' => Result.err.inj h' ▸ failsUnchanged_of_run h hk

theorem not_neverRaised_ok (v : Value) : ¬ NeverRaised (.ok v) := by rintro (h | h) <;> cases h

/-- A result of a kind the block does raise, with nothing on the wire, keeps the invariant where RXS and DATA do. -/
theorem invariant_of_result {s t : State} (h : Invariant s) {r : Result} (hr : ¬ NeverRaised r)
    (hidle : t.rx.rxs = .search) (hdata : t.rx.data.length ≤ 65535) (htx : t.txlog = s.txlog)
    (hres : t.resLog = s.resLog ++ [r]) : Invariant t :=
  ⟨State.maxp_eq _, hidle, hdata, txFramed_of_result h.framed htx hres,
    by rw [hres]; exact neverRaised_append h.kinds hr⟩

theorem invariant_of_effect {i : Instr} {s t : State} (h : Invariant s) (heff : Effect s i t) : Invariant t := by
  cases heff with
  | answer i r hr => exact invariant_of_result h (FailsUnchanged.not_neverRaised hr) h.idle h.data rfl rfl
  | crc | setVer | flush => exact invariant_of_result h (not_neverRaised_ok _) h.idle h.data rfl rfl
  | send code data m hs hm =>
    refine ⟨State.maxp_eq _, h.idle, h.data, txFramed_append h.framed (ok_acceptedPart hs m) rfl rfl fun hpart => ?_,
      neverRaised_append h.kinds ?_⟩
    · exact if_pos (lt_of_le_of_ne hm (of_decide_eq_false hpart))
    · split <;> simp [NeverRaised]
  | recvDelivers c d e he ho => exact invariant_of_result h (not_neverRaised_ok _) he.idle (he.data c d ho) rfl rfl
  | recvFails k e he ho =>
    exact invariant_of_result h (he.not_neverRaised ho) (rxRegsAfterFail_rxs _ _ _)
      (rxRegsAfterFail_data_length_le _ _ _) rfl rfl

theorem invariant_of_exec {i : Instr} {s t : State} (h : Invariant s) (hexec : exec i s = .next t) : Invariant t :=
  invariant_of_effect h (effect_of_exec hexec)

/-- A command that is no operation of the block is answered with BadOperand or refused. -/
theorem invariant_of_rejectCommand {e : DecodeError} {s t : State} (h : Invariant s)
    (hexec : rejectCommand e s = .next t) : Invariant t := by
  cases e with
  | illegalOpcode =>
    obtain rfl := Host.Outcome.next.inj hexec
    exact invariant_of_effect h (.answer .recv _ (by rintro _ ⟨⟩; trivial))
  | operandTypes => cases hexec
  | valueRange => cases hexec

theorem invariant_of_runCommand {c : Command} {s t : State} (h : Invariant s) (hrun : runCommand c s = .next t) :
    Invariant t := by
  unfold runCommand at hrun
  split at hrun
  · split at hrun
    · exact invariant_of_exec h hrun
    · cases hrun
  · exact invariant_of_rejectCommand h hrun

theorem invariant_of_runInput {i : Input} {s t : State} (h : Invariant s) (hrun : runInput i s = .next t) :
    Invariant t := by
  cases i with
  | command c => exact invariant_of_runCommand h hrun
  | reset v =>
    obtain rfl := Host.Outcome.next.inj hrun
    exact ⟨State.maxp_eq _, rfl, Nat.zero_le _, h.framed, h.kinds⟩
  | portLevel level =>
    obtain rfl := Host.Outcome.next.inj hrun
    exact ⟨State.maxp_eq _, h.idle, h.data, h.framed, h.kinds⟩
  | arrive bytes =>
    obtain rfl := Host.Outcome.next.inj hrun
    exact ⟨State.maxp_eq _, h.idle, h.data, h.framed, h.kinds⟩
  | endless bytes =>
    obtain rfl := Host.Outcome.next.inj hrun
    exact ⟨State.maxp_eq _, h.idle, h.data, h.framed, h.kinds⟩

/-! ### The bounds check -/

theorem result_of_append {l : List Result} {r r' : Result} (h : l ++ [r] = l ++ [r']) : r = r' := by simpa using h

/-- The bounds check of R91 as O60 writes it, over the integers. -/
theorem short_iff (b : Buf) (k n : Nat) : (b.length : Int) - (k : Int) < (n : Int) ↔ b.length < k + n := by omega

theorem exec_of_fetchesShort {i : Instr} (h : FetchesShort i) (s : State) :
    exec i s = .next { s with resLog := s.resLog ++ [.err .shortBuffer] } := by
  obtain ⟨T, b, k, hlt, rfl | ⟨x, rfl⟩ | ⟨x, rfl⟩⟩ := h
  · exact exec_decodeIntOf_short T s hlt
  · exact exec_decodeFloat32Of_short T x s hlt
  · exact exec_decodeFloat64Of_short T x s hlt

theorem fetchesShort_of_exec {i : Instr} {s t : State} (h : exec i s = .next t)
    (hres : t.resLog = s.resLog ++ [.err .shortBuffer]) : FetchesShort i := by
  cases effect_of_exec h with
  | answer i r hr => exact hr _ (result_of_append hres)
  | crc | setVer | flush | recvDelivers => cases result_of_append hres
  | send code data m _ _ =>
    have hr := result_of_append hres
    split at hr <;> cases hr
  | recvFails k e he ho =>
    obtain rfl : k = .shortBuffer := Result.err.inj (result_of_append hres)
    rcases he.kinds with ⟨-, -, ⟨c, d, hd⟩ | ⟨k, hk, rfl | rfl | rfl⟩⟩ | ⟨-, -, hk⟩
    · cases ho.symm.trans hd
    all_goals cases ho.symm.trans hk

end Sys2Proof.Machine

namespace Sys2Proof.Proofs

open Sys2Proof Sys2Proof.Machine Sys2Proof.Safety

/-- Settles O50: every effect puts one result on RES. -/
theorem everyOperationGivesExactlyOneResult : Obligations.EveryOperationGivesExactlyOneResult := by
  intro i s t h
  cases effect_of_exec h with
  | answer i r _ => exact ⟨r, rfl⟩
  | crc | setVer | flush | send | recvDelivers | recvFails => exact ⟨_, rfl⟩

/-- Settles O51: an effect names the operation that has it; what it does not write is the same. -/
theorem writesFollowTheAccessTable : Obligations.WritesFollowTheAccessTable := by
  intro i s t h
  cases effect_of_exec h with
  | answer i r _ => simp
  | crc i c hi => simp [hi]
  | setVer v => simp
  | flush k => simp
  | send code data m _ _ => simp
  | recvDelivers c d e _ _ => simp
  | recvFails k e _ _ => simp

/-- Settles O52: the pure operations read no state, and each of the others answers at another CRCACC as it did. -/
theorem onlyTheCrcOperationsReadCrcacc : Obligations.OnlyTheCrcOperationsReadCrcacc := by
  intro i s t c hupd hrd h
  induction i using Instr.byPurity with
  | pure i hi =>
    obtain ⟨a, ha⟩ := exists_pureAnswer s.params i hi
    rw [ha.runs s rfl] at h
    obtain ⟨r, -, rfl, hat⟩ := finish_next h
    exact ⟨c, (ha.runs { s with crcAcc := c } rfl).trans (hat { s with crcAcc := c } rfl)⟩
  | crcUpd x => exact absurd rfl (hupd x)
  | crcRd => exact absurd rfl hrd
  | crcClr =>
    obtain rfl := Host.Outcome.next.inj ((exec_crcClr s).symm.trans h)
    exact ⟨0x00, exec_crcClr _⟩
  | send code data =>
    obtain ⟨b, as, r, hsend⟩ := exec_send_reads code data s
    obtain rfl := Host.Outcome.next.inj ((hsend s rfl rfl rfl).symm.trans h)
    exact ⟨c, hsend { s with crcAcc := c } rfl rfl rfl⟩
  | recv => exact ⟨c, exec_of_recvNext ((recvNext_of_exec h).at_crcAcc c)⟩
  | setVer v =>
    obtain rfl := Host.Outcome.next.inj ((exec_setVer v s).symm.trans h)
    exact ⟨c, exec_setVer v _⟩
  | getVer =>
    obtain rfl := Host.Outcome.next.inj ((exec_getVer s).symm.trans h)
    exact ⟨c, exec_getVer _⟩
  | getMaxp =>
    obtain rfl := Host.Outcome.next.inj ((exec_getMaxp s).symm.trans h)
    exact ⟨c, exec_getMaxp _⟩
  | flush =>
    obtain rfl := Host.Outcome.next.inj ((exec_flush s).symm.trans h)
    exact ⟨c, by rw [exec_flush, flushRx_crcAcc_update]⟩

/-- Settles O53: RECV alone starts the machine on the registers, and its run reads none of them
(`rxMachine_agree`). -/
theorem noOperationReadsOldWorkingRegisters : Obligations.NoOperationReadsOldWorkingRegisters := by
  intro i s t regs n h
  induction i using Instr.byPurity with
  | pure i hi =>
    obtain ⟨a, ha⟩ := exists_pureAnswer s.params i hi
    rw [ha.runs s rfl] at h
    obtain ⟨r, -, rfl, hat⟩ := finish_next h
    exact ⟨regs, n, (ha.runs { s with rx := regs, freeCount := n } rfl).trans
      (hat { s with rx := regs, freeCount := n } rfl)⟩
  | crcClr =>
    obtain rfl := Host.Outcome.next.inj ((exec_crcClr s).symm.trans h)
    exact ⟨regs, n, exec_crcClr _⟩
  | crcUpd x =>
    obtain rfl := Host.Outcome.next.inj ((exec_crcUpd x s).symm.trans h)
    exact ⟨regs, n, exec_crcUpd x _⟩
  | crcRd =>
    obtain rfl := Host.Outcome.next.inj ((exec_crcRd s).symm.trans h)
    exact ⟨regs, n, exec_crcRd _⟩
  | send code data =>
    obtain ⟨b, as, r, hsend⟩ := exec_send_reads code data s
    obtain rfl := Host.Outcome.next.inj ((hsend s rfl rfl rfl).symm.trans h)
    exact ⟨regs, n, hsend { s with rx := regs, freeCount := n } rfl rfl rfl⟩
  | recv =>
    obtain ⟨regs', n', hnext⟩ := (recvNext_of_exec h).at_rx regs n
    exact ⟨regs', n', exec_of_recvNext hnext⟩
  | setVer v =>
    obtain rfl := Host.Outcome.next.inj ((exec_setVer v s).symm.trans h)
    exact ⟨regs, n, exec_setVer v _⟩
  | getVer =>
    obtain rfl := Host.Outcome.next.inj ((exec_getVer s).symm.trans h)
    exact ⟨regs, n, exec_getVer _⟩
  | getMaxp =>
    obtain rfl := Host.Outcome.next.inj ((exec_getMaxp s).symm.trans h)
    exact ⟨regs, n, exec_getMaxp _⟩
  | flush =>
    obtain rfl := Host.Outcome.next.inj ((exec_flush s).symm.trans h)
    exact ⟨regs, n, by rw [exec_flush, flushRx_rx_update]⟩

/-- Settles O54: a pure operation ends at every state of the same parameters with the answer `exists_pureAnswer`
names; a value that does not fit is refused, which an unbounded block never does. -/
theorem codecChecksumPackUnpackArePure : Obligations.CodecChecksumPackUnpackArePure := by
  intro P i hw
  induction i using Instr.byPurity with
  | pure i hi =>
    intro _
    obtain ⟨a, ha⟩ := exists_pureAnswer P i hi
    match a, ha with
    | none, ha => rw [ha.unwritable rfl] at hw; cases hw
    | some (.err k), ha => exact .inl ⟨_, fun s hs => (ha.runs s hs).trans (raise_eq k s)⟩
    | some (.ok v), ha =>
      cases hf : v.fits P with
      | true => exact .inl ⟨_, fun s hs => (ha.runs s hs).trans (ret_eq (by rw [hs]; exact hf))⟩
      | false =>
        refine .inr ⟨fun hb => ?_, fun s hs => (ha.runs s hs).trans (ret_full (by rw [hs]; exact hf))⟩
        rw [fits_unbounded hb] at hf
        cases hf
  | crcClr | crcUpd | crcRd | send | recv | setVer | getVer | getMaxp | flush => exact False.elim

/-- Settles O55, effect by effect: the result on RES says which kind it is. -/
theorem failuresLeaveOnlyWhatTheirKindAllows : Obligations.FailuresLeaveOnlyWhatTheirKindAllows := by
  intro i s t k h hres
  cases effect_of_exec h with
  | answer i r hr =>
    have hk := hr k (result_of_append hres)
    cases k with
    | portClosed | payloadTooLarge | shortBuffer | badOperand => rfl
    | shortRead | versionMismatch | remoteError | checksumError =>
      obtain ⟨v, f, rfl⟩ := hk
      exact .inl ⟨v, f, rfl, rfl⟩
    | writeShort | outOfRange | unsupported => exact False.elim hk
  | crc | setVer | flush | recvDelivers => cases result_of_append hres
  | send code data m hs hm =>
    have hk := result_of_append hres
    split at hk
    · cases hk; exact ⟨code, data, m, rfl, ‹_›, rfl⟩
    · cases hk
  | recvFails k' e he ho =>
    obtain rfl : k' = k := Result.err.inj (result_of_append hres)
    have hq : e.stream.bytes <:+ s.rxq := he.later.bytes
    rcases he.kinds with ⟨hv, hw, ⟨c, d, hd⟩ | ⟨k, hk, hcases⟩⟩ | ⟨hv, hw, hk⟩
    · rw [ho] at hd; cases hd
    · obtain rfl := RxOutcome.fail.inj (ho.symm.trans hk)
      have ht : ∀ rx n rl, ({ s with
            rxq := e.stream.bytes, rxTail := e.stream.tail, rxAnswers := e.stream.answers, ver := e.version
            warnlog := s.warnlog ++ e.warnings, rx := rx, freeCount := n, resLog := rl } : State) = { s with
          rxq := e.stream.bytes, rxTail := e.stream.tail, rxAnswers := e.stream.answers, rx := rx
          freeCount := n, resLog := rl } := by
        intro rx n rl; rw [hv, hw, List.append_nil]
      rcases hcases with rfl | rfl | rfl
      · exact .inr ⟨rfl, hq, ht _ _ _⟩
      · exact .inr ⟨rfl, hq, ht _ _ _⟩
      · exact .inr ⟨rfl, hq, ht _ _ _⟩
    · obtain rfl := RxOutcome.fail.inj (ho.symm.trans hk)
      refine .inr ⟨rfl, hq, ?_, ?_⟩
      · simp only [hv]; cases s.ver <;> simp [Version.other]
      · simp only [hw]

/-- Settles O56: pure operations end by `finish`, the others but RECV always, and RECV as `exec_recv_cases` says. -/
theorem onlyARecvThatNeverReturnsStopsTheBlock : Obligations.OnlyARecvThatNeverReturnsStopsTheBlock := by
  intro i s
  cases hp : isPure i with
  | true =>
    obtain ⟨a, ha⟩ := exists_pureAnswer s.params i hp
    rw [ha.runs s rfl]
    match a, ha with
    | none, ha =>
      have hw := ha.unwritable rfl
      refine ⟨fun h => by rw [hw] at h; (cases h), nofun, fun r hr => .inl ⟨(Host.Outcome.refused.inj hr).symm, hw⟩⟩
    | some (.err k), ha => exact ⟨fun _ _ _ _ => ⟨_, rfl⟩, nofun, nofun⟩
    | some (.ok v), ha =>
      change (_ → _ → _ → _ → ∃ t, ret v s = .next t) ∧ (∀ r, ret v s = .fault r → _) ∧ ∀ r, ret v s = .refused r → _
      cases hf : v.fits s.params with
      | true => rw [ret_eq hf]; exact ⟨fun _ _ _ _ => ⟨_, rfl⟩, nofun, nofun⟩
      | false =>
        have hb : s.params.bufCap ≠ none := fun hb => by rw [fits_unbounded hb] at hf; cases hf
        rw [ret_full hf]
        exact ⟨fun _ hb' => absurd hb' hb, nofun, fun r hr => .inr ⟨(Host.Outcome.refused.inj hr).symm, hb⟩⟩
  | false =>
    by_cases hr : i = .recv
    · subst hr
      rcases exec_recv_cases s with ⟨t, ht, -⟩ | ⟨ht, hb⟩ | ⟨why, ht, ho, hwhy⟩
      · rw [ht]; exact ⟨fun _ _ _ _ => ⟨t, rfl⟩, nofun, nofun⟩
      · rw [ht]
        exact ⟨fun _ hb' => absurd hb' hb, nofun, fun r hr => .inr ⟨(Host.Outcome.refused.inj hr).symm, hb⟩⟩
      · rw [ht]
        refine ⟨fun _ _ hnever htail => ?_, fun r hr => ⟨rfl, ho, Host.Outcome.fault.inj hr ▸ hwhy⟩, nofun⟩
        rcases hwhy with ⟨-, h⟩ | ⟨-, hne, hnone⟩
        · exact absurd h hnever
        · exact absurd htail (not_or.2 ⟨hne, hnone⟩)
    · obtain ⟨t, ht, -⟩ := exec_ends hp hr s
      rw [ht]
      exact ⟨fun _ _ _ _ => ⟨t, rfl⟩, nofun, nofun⟩

/-- Settles O57: what an effect appends, and what a run of RECV takes off (`RxStream.Later`). -/
theorem streamsOnlyMoveForward : Obligations.StreamsOnlyMoveForward := by
  intro i s t h
  cases effect_of_exec h with
  | answer | crc | setVer =>
    exact ⟨List.prefix_refl _, List.prefix_refl _, List.prefix_append _ _, List.suffix_refl _, .refl _, fun _ => rfl,
      List.suffix_refl _⟩
  | send =>
    exact ⟨List.prefix_append _ _, List.prefix_refl _, List.prefix_append _ _, List.suffix_refl _, .refl _, fun _ => rfl,
      List.suffix_refl _⟩
  | flush k =>
    refine ⟨List.prefix_refl _, List.prefix_refl _, List.prefix_append _ _, List.drop_suffix _ _, ⟨_, rfl⟩, fun hne => ?_,
      List.suffix_refl _⟩
    have hk : k - s.rxq.length = 0 := by
      by_contra hk
      exact hne (List.drop_eq_nil_of_le (by omega))
    simp only [hk, List.rotate_zero]
  | recvDelivers c d e he _ =>
    exact ⟨List.prefix_refl _, List.prefix_append _ _, List.prefix_append _ _, he.later.bytes, he.later.rotated,
      he.later.listed, he.later.answers⟩
  | recvFails k e he _ =>
    exact ⟨List.prefix_refl _, List.prefix_append _ _, List.prefix_append _ _, he.later.bytes, he.later.rotated,
      he.later.listed, he.later.answers⟩

/-- Settles O58: a step takes an input off CMD, which the invariant does not speak of, and runs it. -/
theorem everyStepKeepsTheInvariant : Obligations.EveryStepKeepsTheInvariant := by
  intro s t h hstep
  cases hp : s.pending with
  | nil =>
    rw [step_idle hp] at hstep
    exact Host.Outcome.next.inj hstep ▸ h
  | cons i rest =>
    rw [step_eq hp] at hstep
    have htaken : Invariant { s with pending := rest } := ⟨State.maxp_eq _, h.idle, h.data, h.framed, h.kinds⟩
    exact invariant_of_runInput htaken hstep

/-- Settles O59: both logs are empty, so TXLOG is the concatenation of no piece. -/
theorem theInvariantHoldsAfterReset : Obligations.TheInvariantHoldsAfterReset := by
  intro v
  exact ⟨State.maxp_eq _, rfl, Nat.zero_le _, ⟨[], rfl, nofun, Nat.zero_le _⟩, nofun, nofun⟩

/-- Settles O60: the fetches are those of the three families; `FailsUnchanged` says that no other operation raises
ShortBuffer. -/
theorem shortBufferIsTheBoundsCheckAndNothingElse : Obligations.ShortBufferIsTheBoundsCheckAndNothingElse := by
  intro i s
  refine ⟨fun h => exec_of_fetchesShort ?_ s, fun t hexec hres => ?_⟩
  · induction i using Instr.byFamily with
    | decodeInt T b k => exact ⟨T, b, k, by cases T <;> exact (short_iff b k _).1 h, .inl rfl⟩
    | decodeFloat32 T b k x => exact ⟨T, b, k, by cases T <;> exact (short_iff b k _).1 h, .inr (.inl ⟨x, rfl⟩)⟩
    | decodeFloat64 T b k x => exact ⟨T, b, k, by cases T <;> exact (short_iff b k _).1 h, .inr (.inr ⟨x, rfl⟩)⟩
    | encodeInt T v b => cases T <;> exact h.elim
    | xor8Buf | crc8Buf | crcClr | crcUpd | crcRd | pack | send | unpack | recv | setVer | getVer | getMaxp | flush =>
      exact h.elim
  · obtain ⟨T, b, k, hlt, rfl | ⟨x, rfl⟩ | ⟨x, rfl⟩⟩ := fetchesShort_of_exec hexec hres
    all_goals cases T <;> exact (short_iff b k _).2 hlt

end Sys2Proof.Proofs
end

section
/-! PROOFS. The floats at the default (spec/40_codec.md R100, decision D13): rounding a signed value, where it overflows,
what a multiplication makes of NaN and infinity, for every format and then for binary32 and binary64. -/

namespace Sys2Proof.Machine

open Sys2Proof.Safety

/-! ### Formats -/

/-- What the proofs need of a format: an even scale of significands, and an exponent range that reaches beyond them. -/
structure FloatFormat.Regular (f : FloatFormat) : Prop where
  two_le_p : 2 ≤ f.p
  one_le_w : 1 ≤ f.w
  p_lt : f.p < 2 ^ (f.w - 1)

theorem regular_binary32 : binary32.Regular := ⟨by decide, by decide, by decide⟩

theorem regular_binary64 : binary64.Regular := ⟨by decide, by decide, by decide⟩

section
variable {f : FloatFormat} (hf : f.Regular)
include hf

theorem FloatFormat.Regular.infMag_lt_signWeight : f.infMag < f.signWeight :=
  infMag_lt f (one_le_two.trans hf.two_le_p)

/-- The exponent range, written by its half: `2^w = 2 * 2^(w-1)`. -/
theorem FloatFormat.Regular.infMag_eq : f.infMag = (2 * 2 ^ (f.w - 1) - 3) * 2 ^ (f.p - 1) + 2 * 2 ^ (f.p - 1) := by
  have hp := hf.two_le_p
  have hE := hf.p_lt
  have hw : 2 ^ f.w = 2 * 2 ^ (f.w - 1) := by rw [← pow_succ', Nat.sub_add_cancel hf.one_le_w]
  rw [FloatFormat.infMag, hw, ← Nat.add_mul]
  congr 1
  omega

end

theorem roundMag_le (f : FloatFormat) (m k : Nat) : f.roundMag m k ≤ f.infMag := by
  unfold FloatFormat.roundMag
  split
  · exact Nat.zero_le _
  · exact Nat.min_le_right _ _

/-! ### Rounding a signed value -/

/-- The number `(-1)^s * m * 2^(k - 2 Q)` that a rounding starts from. -/
def scaled (f : FloatFormat) (s : Bool) (m k : Nat) : ℚ :=
  (if s then -1 else 1) * (m * 2 ^ k / 2 ^ f.Q) / 2 ^ f.Q

theorem abs_scaled (f : FloatFormat) (s : Bool) (m k : Nat) : |scaled f s m k| = m * 2 ^ k / 2 ^ f.Q / 2 ^ f.Q := by
  have h : (0 : ℚ) ≤ m * 2 ^ k / 2 ^ f.Q / 2 ^ f.Q := by positivity
  unfold scaled
  cases s
  · simp [abs_of_nonneg h]
  · simp [neg_div, abs_of_nonneg h]

/-- The distance of an encoding from the number rounded, in units of the least positive value: the unit of the
rounded number's own sign. -/
theorem abs_toRat_sub_scaled (f : FloatFormat) (s : Bool) (m k y : Nat) : ∃ e : ℚ, (e = 1 ∨ e = -1) ∧
    (f.neg y = s → e = 1) ∧ toRat f y = (if s then -1 else 1) * (e * magUnits (2 ^ (f.p - 1)) (f.mag y)) / 2 ^ f.Q ∧
    |toRat f y - scaled f s m k| =
      |e * magUnits (2 ^ (f.p - 1)) (f.mag y) - m * 2 ^ k / 2 ^ f.Q| / 2 ^ f.Q := by
  have hQ : (0 : ℚ) < 2 ^ f.Q := by positivity
  have hdist : ∀ u x : ℚ, |(if s then -1 else 1) * u / 2 ^ f.Q - (if s then -1 else 1) * x / 2 ^ f.Q| =
      |u - x| / 2 ^ f.Q := by
    intro u x
    rw [← sub_div, ← mul_sub, abs_div, abs_mul, abs_of_pos hQ]
    cases s <;> simp
  refine ⟨if f.neg y = s then 1 else -1, ?_, fun h => if_pos h, ?_⟩
  · split <;> simp
  · have heq : toRat f y = (if s then -1 else 1) *
        ((if f.neg y = s then 1 else -1) * magUnits (2 ^ (f.p - 1)) (f.mag y)) / 2 ^ f.Q := by
      rw [toRat_eq]
      cases f.neg y <;> cases s <;> simp
    exact ⟨heq, by rw [heq, scaled, hdist]⟩

/-- A magnitude nearest to `x ≥ 0` among the magnitudes is nearest among the numbers of both signs. -/
theorem nearest_of_both_signs {f : FloatFormat} {R : Nat} {x : ℚ} (hx : 0 ≤ x)
    (hR : ∀ y : ℕ, |(magUnits (2 ^ (f.p - 1)) R : ℚ) - x| ≤ |(magUnits (2 ^ (f.p - 1)) y : ℚ) - x| ∧
      (|(magUnits (2 ^ (f.p - 1)) R : ℚ) - x| = |(magUnits (2 ^ (f.p - 1)) y : ℚ) - x| →
        y ≠ R → magSig (2 ^ (f.p - 1)) R % 2 = 0))
    {e : ℚ} (he : e = 1 ∨ e = -1) (y : Nat) :
    |(magUnits (2 ^ (f.p - 1)) R : ℚ) - x| ≤ |e * magUnits (2 ^ (f.p - 1)) y - x| ∧
    (|(magUnits (2 ^ (f.p - 1)) R : ℚ) - x| = |e * magUnits (2 ^ (f.p - 1)) y - x| →
      e * magUnits (2 ^ (f.p - 1)) y ≠ (magUnits (2 ^ (f.p - 1)) R : ℚ) → magSig (2 ^ (f.p - 1)) R % 2 = 0) := by
  obtain ⟨hle, heven⟩ := hR y
  rcases he with rfl | rfl
  · rw [one_mul]
    exact ⟨hle, fun heq hne => heven heq fun h => hne (by rw [h])⟩
  · have hu : (0 : ℚ) ≤ magUnits (2 ^ (f.p - 1)) y := Nat.cast_nonneg _
    have hfar : |-1 * (magUnits (2 ^ (f.p - 1)) y : ℚ) - x| = magUnits (2 ^ (f.p - 1)) y + x := by
      rw [abs_of_nonpos (by linarith)]; ring
    have hnear : |(magUnits (2 ^ (f.p - 1)) y : ℚ) - x| ≤ magUnits (2 ^ (f.p - 1)) y + x := by
      rw [abs_le]; constructor <;> linarith
    rw [hfar]
    refine ⟨hle.trans hnear, fun heq hne => heven (le_antisymm hle (hnear.trans heq.ge)) ?_⟩
    rintro rfl
    -- the magnitude itself at distance `u + x` from `x`: then it is 0, or `x` is, and 0 is as near
    have hzero := (hR 0).1
    have h0 : magUnits (2 ^ (f.p - 1)) 0 = 0 := by simp [magUnits, magSig]
    rw [heq, h0, Nat.cast_zero, zero_sub, abs_neg, abs_of_nonneg hx] at hzero
    have hy : (magUnits (2 ^ (f.p - 1)) y : ℚ) = 0 := le_antisymm (by linarith) hu
    exact hne (by rw [hy]; ring)

/-- A rounding that does not overflow gives the nearest number, ties to even. -/
theorem nearestEven_signed {f : FloatFormat} (hf : f.Regular) (s : Bool) {m k : Nat}
    (hlt : f.roundMag m k < f.infMag) : NearestEven f (scaled f s m k) (f.signed s (f.roundMag m k)) := by
  obtain ⟨R, hmin, hnearest⟩ := roundMag_nearest f hf.two_le_p m k
  obtain rfl : f.roundMag m k = R := by omega
  have hw := hlt.trans hf.infMag_lt_signWeight
  have hmag := signed_mag f s hw
  obtain ⟨e, -, he, hval, hdist⟩ := abs_toRat_sub_scaled f s m k (f.signed s (f.roundMag m k))
  obtain rfl := he (signed_neg f s hw)
  rw [hmag, one_mul] at hval hdist
  refine ⟨⟨signed_lt f s hw, by rwa [hmag]⟩, fun y _ => ?_⟩
  obtain ⟨e, he, -, hval', hdist'⟩ := abs_toRat_sub_scaled f s m k y
  obtain ⟨hle, heven⟩ := nearest_of_both_signs (by positivity) hnearest he (f.mag y)
  have hQ : (0 : ℚ) < 2 ^ f.Q := by positivity
  rw [hdist, hdist', div_le_div_iff_of_pos_right hQ, div_left_inj' hQ.ne']
  refine ⟨hle, fun heq hne => ?_⟩
  have hsig : f.sig (f.signed s (f.roundMag m k)) = magSig (2 ^ (f.p - 1)) (f.roundMag m k) := by
    rw [← hmag]; exact congrArg (magSig _) (congrArg f.mag (by rw [hmag]))
  rw [hsig]
  exact heven heq fun h => hne (by rw [hval, hval', h])

/-! ### Overflow -/

/-- The greatest finite magnitude, infinity's as a magnitude of the scale, and the bound half a unit beyond. -/
theorem overflow_units {f : FloatFormat} (hf : f.Regular) : ∃ h : ℚ, 0 < h ∧ 0 < f.infMag ∧
    magSig (2 ^ (f.p - 1)) (f.infMag - 1) % 2 = 1 ∧
    (magUnits (2 ^ (f.p - 1)) f.infMag : ℚ) = magUnits (2 ^ (f.p - 1)) (f.infMag - 1) + 2 * h ∧
    overflowBound f * 2 ^ f.Q = magUnits (2 ^ (f.p - 1)) (f.infMag - 1) + h := by
  have hp := hf.two_le_p
  have hE := hf.p_lt
  have hinf := hf.infMag_eq
  have hP : 0 < 2 ^ (f.p - 1) := Nat.two_pow_pos _
  have hlast : f.infMag - 1 = (2 * 2 ^ (f.w - 1) - 3) * 2 ^ (f.p - 1) + (2 * 2 ^ (f.p - 1) - 1) := by omega
  have hsig := (magSig_of hP (j := 2 * 2 ^ (f.w - 1) - 3) (sg := 2 * 2 ^ (f.p - 1) - 1) (.inr (by omega)) (by omega)).2
  have hunits := magUnits_of hP (j := 2 * 2 ^ (f.w - 1) - 3) (sg := 2 * 2 ^ (f.p - 1) - 1) (.inr (by omega)) (by omega)
  have hunits' := magUnits_of hP (j := 2 * 2 ^ (f.w - 1) - 3) (sg := 2 * 2 ^ (f.p - 1)) (.inr (by omega)) le_rfl
  rw [← hlast] at hsig hunits
  rw [← hinf] at hunits'
  unfold overflowBound FloatFormat.Q
  generalize 2 ^ (f.w - 1) = E at *
  obtain ⟨n, rfl⟩ : ∃ n, E = f.p + 1 + n := ⟨E - (f.p + 1), by omega⟩
  obtain ⟨p, hp'⟩ : ∃ p, f.p = p + 2 := ⟨f.p - 2, by omega⟩
  have hsub : ((2 * 2 ^ (f.p - 1) - 1 : ℕ) : ℚ) = 2 * 2 ^ (f.p - 1) - 1 := by
    push_cast [Nat.cast_sub (show 1 ≤ 2 * 2 ^ (f.p - 1) by omega)]; ring
  refine ⟨2 ^ (2 * (f.p + 1 + n) - 4), by positivity, by omega, by omega, ?_, ?_⟩
  · rw [hunits', hunits, Nat.cast_mul (2 * 2 ^ (f.p - 1) - 1), hsub, hp',
      show 2 * (p + 2 + 1 + n) - 3 = 2 * p + 2 * n + 3 by omega,
      show 2 * (p + 2 + 1 + n) - 4 = 2 * p + 2 * n + 2 by omega]
    push_cast
    ring
  · rw [hunits, Nat.cast_mul, hsub, hp', show 2 * (p + 2 + 1 + n) - 3 = 2 * p + 2 * n + 3 by omega,
      show 2 * (p + 2 + 1 + n) - 4 = 2 * p + 2 * n + 2 by omega, show p + 2 + 1 + n - 1 - (p + 2) = n by omega,
      show p + 2 + 1 + n + (p + 2) - 3 = 2 * p + n + 2 by omega, show p + 2 - 1 = p + 1 by omega]
    push_cast
    ring

/-- A rounding overflows from the bound on. -/
theorem roundMag_lt_infMag_iff {f : FloatFormat} (hf : f.Regular) (s : Bool) (m k : Nat) :
    f.roundMag m k < f.infMag ↔ |scaled f s m k| < overflowBound f := by
  obtain ⟨h, hpos, hinf, hodd, htop, hbound⟩ := overflow_units hf
  obtain ⟨R, hmin, hnearest⟩ := roundMag_nearest f hf.two_le_p m k
  have hmono := magUnits_strictMono (Nat.two_pow_pos (f.p - 1))
  rw [abs_scaled, div_lt_iff₀ (by positivity), hbound, hmin, min_lt_iff, or_iff_left (lt_irrefl _)]
  generalize (m * 2 ^ k / 2 ^ f.Q : ℚ) = x at *
  constructor
  · intro hR
    by_contra hx
    have hle : (magUnits (2 ^ (f.p - 1)) R : ℚ) ≤ magUnits (2 ^ (f.p - 1)) (f.infMag - 1) :=
      Nat.cast_le.2 (hmono.monotone (by omega))
    obtain ⟨hnear, heven⟩ := hnearest f.infMag
    rw [htop, abs_of_nonpos (by linarith : (magUnits (2 ^ (f.p - 1)) R : ℚ) - x ≤ 0)] at hnear heven
    rcases le_or_gt x (magUnits (2 ^ (f.p - 1)) (f.infMag - 1) + 2 * h) with hxle | hxgt
    · -- only the midpoint is left, and there the tie goes to the even significand, which the last one is not
      rw [abs_of_nonneg (by linarith)] at hnear heven
      have hlast : (magUnits (2 ^ (f.p - 1)) R : ℚ) = magUnits (2 ^ (f.p - 1)) (f.infMag - 1) := by linarith
      have hR' := hmono.injective (Nat.cast_injective hlast)
      have := heven (by linarith) (by omega)
      rw [hR'] at this
      omega
    · rw [abs_of_neg (by linarith)] at hnear
      linarith
  · intro hx
    by_contra hR
    have hge : (magUnits (2 ^ (f.p - 1)) f.infMag : ℚ) ≤ magUnits (2 ^ (f.p - 1)) R :=
      Nat.cast_le.2 (hmono.monotone (by omega))
    have hnear := (hnearest (f.infMag - 1)).1
    rw [abs_of_nonneg (by linarith)] at hnear
    rcases abs_cases ((magUnits (2 ^ (f.p - 1)) (f.infMag - 1) : ℚ) - x) with ⟨h1, -⟩ | ⟨h1, -⟩ <;> linarith

/-- What R100 says of a value rounded once: nearest below the bound, infinity from it on, with its sign. -/
theorem signed_roundMag {f : FloatFormat} (hf : f.Regular) (s : Bool) (m k : Nat) :
    f.signed s (f.roundMag m k) < 2 * f.signWeight ∧
    (|scaled f s m k| < overflowBound f → NearestEven f (scaled f s m k) (f.signed s (f.roundMag m k))) ∧
    (overflowBound f ≤ |scaled f s m k| → f.isInf (f.signed s (f.roundMag m k)) = true) ∧
    f.neg (f.signed s (f.roundMag m k)) = s := by
  have hle := roundMag_le f m k
  have hw := lt_of_le_of_lt hle hf.infMag_lt_signWeight
  refine ⟨signed_lt f s hw, fun h => nearestEven_signed hf s ((roundMag_lt_infMag_iff hf s m k).2 h), fun h => ?_,
    signed_neg f s hw⟩
  have hge := mt (roundMag_lt_infMag_iff hf s m k).1 (not_lt.2 h)
  rw [FloatFormat.isInf, signed_mag f s hw]
  exact decide_eq_true (by omega)

/-! ### The cast -/

theorem scaled_natAbs (f : FloatFormat) (i : Int) : scaled f (decide (i < 0)) i.natAbs (2 * f.Q) = i := by
  have hQ : (2 : ℚ) ^ f.Q ≠ 0 := by positivity
  have habs : ((if decide (i < 0) then -1 else 1 : ℚ)) * (i.natAbs : ℚ) = i := by
    rcases lt_or_ge i 0 with h | h
    · rw [if_pos (decide_eq_true h), Nat.cast_natAbs, abs_of_neg h]; push_cast; ring
    · rw [if_neg (by simpa using h), Nat.cast_natAbs, abs_of_nonneg h, one_mul]
  unfold scaled
  rw [two_mul, pow_add, ← mul_assoc, mul_div_cancel_right₀ _ hQ, ← mul_assoc, habs, mul_div_cancel_right₀ _ hQ]

/-- A number of at most `p` bits is a number of the format. -/
theorem exists_magUnits {f : FloatFormat} (hf : f.Regular) {n : Nat} (hn : n ≤ 2 ^ f.p) :
    ∃ y < f.infMag, magUnits (2 ^ (f.p - 1)) y = n * 2 ^ f.Q := by
  have hp := hf.two_le_p
  have hE := hf.p_lt
  have hinf := hf.infMag_eq
  have hP : 0 < 2 ^ (f.p - 1) := Nat.two_pow_pos _
  have h2P : 2 ^ f.p = 2 * 2 ^ (f.p - 1) := by rw [← pow_succ']; congr 1; omega
  rcases Nat.eq_zero_or_pos n with rfl | hpos
  · exact ⟨0, by omega, by simp [magUnits, magSig]⟩
  · -- the significand is `n` moved up until it has `p` bits
    obtain ⟨t, htp, hlow, hhigh⟩ : ∃ t ≤ f.p - 1, 2 ^ (f.p - 1) ≤ n * 2 ^ t ∧ n * 2 ^ t ≤ 2 * 2 ^ (f.p - 1) := by
      rcases Nat.lt_or_ge n (2 ^ (f.p - 1)) with hlt | hge
      · have hlog : Nat.log2 n < f.p - 1 := (Nat.log2_lt (by omega)).2 hlt
        have hself : 2 ^ Nat.log2 n ≤ n := Nat.log2_self_le (by omega)
        have hsplit : 2 ^ (f.p - 1) = 2 ^ Nat.log2 n * 2 ^ (f.p - 1 - Nat.log2 n) := by
          rw [← pow_add]; congr 1; omega
        have htwice : n ≤ 2 * 2 ^ Nat.log2 n := by rw [← pow_succ']; exact Nat.lt_log2_self.le
        refine ⟨f.p - 1 - Nat.log2 n, by omega, ?_, ?_⟩
        · rw [hsplit]; exact Nat.mul_le_mul_right _ hself
        · rw [hsplit, ← mul_assoc]; exact Nat.mul_le_mul_right _ htwice
      · exact ⟨0, by omega, by omega, by omega⟩
    have htQ : t ≤ f.Q := by unfold FloatFormat.Q; omega
    refine ⟨(f.Q - t) * 2 ^ (f.p - 1) + n * 2 ^ t, ?_, ?_⟩
    · have hj : f.Q - t < 2 * 2 ^ (f.w - 1) - 3 := by unfold FloatFormat.Q; omega
      rw [hinf]
      exact Nat.add_lt_add_of_lt_of_le (Nat.mul_lt_mul_of_pos_right hj hP) hhigh
    · rw [magUnits_of hP (.inr hlow) hhigh, mul_assoc, ← pow_add, Nat.add_sub_cancel' htQ]

theorem exists_toRat_eq {f : FloatFormat} (hf : f.Regular) {i : Int} (hi : |i| ≤ 2 ^ f.p) :
    ∃ y, finite f y ∧ toRat f y = i := by
  obtain ⟨y, hy, hunits⟩ := exists_magUnits hf (n := i.natAbs) (by zify; exact hi)
  have hw := hy.trans hf.infMag_lt_signWeight
  refine ⟨f.signed (decide (i < 0)) y, ⟨signed_lt _ _ hw, by rwa [signed_mag _ _ hw]⟩, ?_⟩
  rw [toRat_eq, signed_neg _ _ hw, signed_mag _ _ hw, hunits, ← scaled_natAbs f i, scaled, two_mul, pow_add]
  push_cast
  field_simp

theorem toRat_eq_of_nearestEven {f : FloatFormat} {q : ℚ} {r y : Nat} (h : NearestEven f q r) (hy : finite f y)
    (heq : toRat f y = q) : toRat f r = q := by
  have hle := (h.2 y hy).1
  rw [heq, sub_self, abs_zero] at hle
  exact sub_eq_zero.1 (abs_nonpos_iff.1 hle)

/-- R100 of the cast at an integer that does not overflow the format. -/
theorem ofInt_rounds {f : FloatFormat} (hf : f.Regular) {i : Int} (hi : |(i : ℚ)| < overflowBound f) :
    f.ofInt i < 2 * f.signWeight ∧ NearestEven f i (f.ofInt i) ∧ (|i| ≤ 2 ^ f.p → toRat f (f.ofInt i) = i) ∧
    f.neg (f.ofInt i) = decide (i < 0) := by
  obtain ⟨hlt, hnearest, -, hneg⟩ := signed_roundMag hf (decide (i < 0)) i.natAbs (2 * f.Q)
  rw [scaled_natAbs] at hnearest
  refine ⟨hlt, hnearest hi, fun hp => ?_, hneg⟩
  obtain ⟨y, hy, heq⟩ := exists_toRat_eq hf hp
  exact toRat_eq_of_nearestEven (hnearest hi) hy heq

theorem lt_overflowBound {f : FloatFormat} (hw : 66 ≤ 2 ^ (f.w - 1)) : (2 : ℚ) ^ 64 < overflowBound f := by
  unfold overflowBound
  generalize 2 ^ (f.w - 1) = E at *
  obtain ⟨n, rfl⟩ : ∃ n, E = n + 66 := ⟨E - 66, by omega⟩
  have hhalf : (2 : ℚ) ^ (n + 66 - 1 - f.p) ≤ 2 ^ (n + 65) := pow_le_pow_right₀ (by norm_num) (by omega)
  have hlow : (2 : ℚ) ^ 64 < 2 ^ (n + 65) := pow_lt_pow_right₀ (by norm_num) (by omega)
  have htwice : (2 : ℚ) ^ (n + 66) = 2 * 2 ^ (n + 65) := pow_succ' 2 (n + 65)
  linarith

theorem cvt32_toNat {i : Int} (h : binary32.ofInt i < 2 * binary32.signWeight) (T : IntType) :
    (FloatArith.ieee.cvt32 T i).toNat = binary32.ofInt i :=
  (BitVec.toNat_ofNat _ _).trans (Nat.mod_eq_of_lt h)

theorem cvt64_toNat {i : Int} (h : binary64.ofInt i < 2 * binary64.signWeight) (T : IntType) :
    (FloatArith.ieee.cvt64 T i).toNat = binary64.ofInt i :=
  (BitVec.toNat_ofNat _ _).trans (Nat.mod_eq_of_lt h)

/-! ### The product -/

theorem isNaN_of_finite {f : FloatFormat} {a : Nat} (h : finite f a) : f.isNaN a = false :=
  decide_eq_false (by have := h.2; omega)

theorem isInf_of_finite {f : FloatFormat} {a : Nat} (h : finite f a) : f.isInf a = false :=
  decide_eq_false h.2.ne

theorem isNaN_of_isInf {f : FloatFormat} {a : Nat} (h : f.isInf a = true) : f.isNaN a = false :=
  decide_eq_false (by have := of_decide_eq_true h; omega)

theorem mul_of_finite {f : FloatFormat} {a b : Nat} (ha : finite f a) (hb : finite f b) : f.mul a b =
    some (f.signed (f.neg a != f.neg b) (f.roundMag (f.sig a * f.sig b) (f.step a + f.step b))) := by
  simp [FloatFormat.mul, isNaN_of_finite ha, isNaN_of_finite hb, isInf_of_finite ha, isInf_of_finite hb]

theorem mul_of_nan {f : FloatFormat} {b : Nat} (a : Nat) (hb : f.isNaN b = true) : f.mul a b = none := by
  simp [FloatFormat.mul, hb]

theorem mul_of_zero_inf {f : FloatFormat} {a b : Nat} (ha : finite f a) (h0 : f.mag a = 0) (hb : f.isInf b = true) :
    f.mul a b = none := by
  simp [FloatFormat.mul, isNaN_of_finite ha, isNaN_of_isInf hb, hb, h0]

theorem mul_of_inf {f : FloatFormat} {a b : Nat} (ha : finite f a) (h0 : f.mag a ≠ 0) (hb : f.isInf b = true) :
    f.mul a b = some (f.signed (f.neg a != f.neg b) f.infMag) := by
  have hb0 : f.mag b ≠ 0 := by have := of_decide_eq_true hb; have := ha.2; omega
  simp [FloatFormat.mul, isNaN_of_finite ha, isNaN_of_isInf hb, hb, h0, hb0]

theorem scaled_mul (f : FloatFormat) (a b : Nat) :
    scaled f (f.neg a != f.neg b) (f.sig a * f.sig b) (f.step a + f.step b) = toRat f a * toRat f b := by
  unfold scaled toRat
  rw [pow_add]
  push_cast
  cases f.neg a <;> cases f.neg b <;> simp <;> ring

/-- R100 of the product of two finite encodings. -/
theorem mul_rounds {f : FloatFormat} (hf : f.Regular) {a b : Nat} (ha : finite f a) (hb : finite f b) :
    ∃ r, f.mul a b = some r ∧ r < 2 * f.signWeight ∧
      (|toRat f a * toRat f b| < overflowBound f → NearestEven f (toRat f a * toRat f b) r) ∧
      (overflowBound f ≤ |toRat f a * toRat f b| → f.isInf r = true) ∧ f.neg r = (f.neg a != f.neg b) := by
  rw [← scaled_mul]
  exact ⟨_, mul_of_finite ha hb, signed_roundMag hf _ _ _⟩

theorem fmul32_toNat {x y : F32} {r : Nat} (h : binary32.mul x.toNat y.toNat = some r)
    (hr : r < 2 * binary32.signWeight) : (FloatArith.ieee.fmul32 x y).toNat = r := by
  simp only [FloatArith.fmul32, fmul32, h]
  exact (BitVec.toNat_ofNat _ _).trans (Nat.mod_eq_of_lt hr)

theorem fmul64_toNat {x y : F64} {r : Nat} (h : binary64.mul x.toNat y.toNat = some r)
    (hr : r < 2 * binary64.signWeight) : (FloatArith.ieee.fmul64 x y).toNat = r := by
  simp only [FloatArith.fmul64, fmul64, h]
  exact (BitVec.toNat_ofNat _ _).trans (Nat.mod_eq_of_lt hr)

/-! ### The NaN -/

/-- All exponent bits set and a significand that is not 0 make a NaN. -/
theorem isNaN_of_bits {f : FloatFormat} (hf : f.Regular) {n : Nat} (hexp : n &&& f.infMag = f.infMag)
    (hlow : n % 2 ^ (f.p - 1) ≠ 0) : f.isNaN n = true := by
  have hp := hf.two_le_p
  have hP : 0 < 2 ^ (f.p - 1) := Nat.two_pow_pos _
  have hhigh : n / 2 ^ (f.p - 1) % 2 ^ f.w = 2 ^ f.w - 1 := by
    have h : (n &&& f.infMag) >>> (f.p - 1) = f.infMag >>> (f.p - 1) := by rw [hexp]
    rwa [Nat.shiftRight_and_distrib, Nat.shiftRight_eq_div_pow, Nat.shiftRight_eq_div_pow, FloatFormat.infMag,
      Nat.mul_div_cancel _ hP, Nat.and_two_pow_sub_one_eq_mod] at h
  have hweight : f.signWeight = 2 ^ (f.p - 1) * 2 ^ f.w := by
    rw [FloatFormat.signWeight, ← pow_add]; congr 1; omega
  rw [FloatFormat.isNaN, FloatFormat.mag, hweight, Nat.mod_mul, hhigh, FloatFormat.infMag, mul_comm]
  exact decide_eq_true (by omega)

theorem or_and_self_right (n e : Nat) : (n ||| e) &&& e = e := by
  apply Nat.eq_of_testBit_eq
  intro i
  simp only [Nat.testBit_and, Nat.testBit_or]
  cases e.testBit i <;> simp

/-- Bits made a NaN of: the exponent bits set, and the lowest bit where the significand would be 0. -/
def nanOf (f : FloatFormat) (n : Nat) : Nat :=
  if (n ||| f.infMag) % 2 ^ (f.p - 1) = 0 then n ||| f.infMag ||| 1 else n ||| f.infMag

theorem isNaN_nanOf {f : FloatFormat} (hf : f.Regular) (n : Nat) : f.isNaN (nanOf f n) = true := by
  unfold nanOf
  split
  · refine isNaN_of_bits hf (by rw [Nat.or_right_comm, or_and_self_right]) fun h => ?_
    have hp := hf.two_le_p
    have hodd : (n ||| f.infMag ||| 1) % 2 = 1 := by
      rw [Nat.mod_two_eq_one_iff_testBit_zero]; simp
    have hdvd : 2 ∣ n ||| f.infMag ||| 1 := (dvd_pow_self 2 (by omega)).trans (Nat.dvd_of_mod_eq_zero h)
    omega
  · next h => exact isNaN_of_bits hf (or_and_self_right n _) h

theorem someNaN32_toNat (x y : F32) : (someNaN32 x y).toNat = nanOf binary32 (Config.freeNaN32 x y).toNat := by
  have hlow : ∀ b : F32, b &&& 0x007FFFFF#32 = 0#32 ↔ b.toNat % 2 ^ (binary32.p - 1) = 0 := by
    intro b
    rw [← BitVec.toNat_inj, BitVec.toNat_and]
    exact iff_of_eq (congrArg (· = 0) (Nat.and_two_pow_sub_one_eq_mod _ 23))
  simp only [someNaN32, nanOf, hlow]
  split
  · next h => exact (if_pos h).symm
  · next h => exact (if_neg h).symm

theorem someNaN64_toNat (x y : F64) : (someNaN64 x y).toNat = nanOf binary64 (Config.freeNaN64 x y).toNat := by
  have hlow : ∀ b : F64, b &&& 0x000FFFFFFFFFFFFF#64 = 0#64 ↔ b.toNat % 2 ^ (binary64.p - 1) = 0 := by
    intro b
    rw [← BitVec.toNat_inj, BitVec.toNat_and]
    exact iff_of_eq (congrArg (· = 0) (Nat.and_two_pow_sub_one_eq_mod _ 52))
  simp only [someNaN64, nanOf, hlow]
  split
  · next h => exact (if_pos h).symm
  · next h => exact (if_neg h).symm

theorem isNaN_fmul32 {x y : F32} (h : binary32.mul x.toNat y.toNat = none) :
    binary32.isNaN (FloatArith.ieee.fmul32 x y).toNat = true := by
  simp only [FloatArith.fmul32, fmul32, h]
  rw [someNaN32_toNat]
  exact isNaN_nanOf regular_binary32 _

theorem isNaN_fmul64 {x y : F64} (h : binary64.mul x.toNat y.toNat = none) :
    binary64.isNaN (FloatArith.ieee.fmul64 x y).toNat = true := by
  simp only [FloatArith.fmul64, fmul64, h]
  rw [someNaN64_toNat]
  exact isNaN_nanOf regular_binary64 _

end Sys2Proof.Machine

namespace Sys2Proof.Proofs

open Sys2Proof Sys2Proof.Machine Sys2Proof.Safety

/-- Settles O16: no integer of 64 bits overflows either format, and those of at most `p` bits are numbers of it. -/
theorem castRoundsToNearestEven : Obligations.CastRoundsToNearestEven := by
  intro T i hi
  have hq : |(i : ℚ)| ≤ 2 ^ 64 := by exact_mod_cast hi
  obtain ⟨hlt, hnearest, hexact, hneg⟩ := ofInt_rounds regular_binary32 (hq.trans_lt (lt_overflowBound (by decide)))
  obtain ⟨hlt', hnearest', hexact', hneg'⟩ := ofInt_rounds regular_binary64 (hq.trans_lt (lt_overflowBound (by decide)))
  rw [cvt32_toNat hlt, cvt64_toNat hlt']
  exact ⟨hnearest, hnearest', hexact, hexact', hneg, hneg'⟩

/-- Settles O17, in each format by `mul_rounds`. -/
theorem productRoundsToNearestEven : Obligations.ProductRoundsToNearestEven := by
  refine ⟨fun x y hx hy => ?_, fun x y hx hy => ?_⟩
  · obtain ⟨r, hr, hlt, hrounds⟩ := mul_rounds regular_binary32 hx hy
    rw [fmul32_toNat hr hlt]
    exact hrounds
  · obtain ⟨r, hr, hlt, hrounds⟩ := mul_rounds regular_binary64 hx hy
    rw [fmul64_toNat hr hlt]
    exact hrounds

/-- Settles O18: the multiplication answers `none` where a NaN is due, whatever bits it then has. -/
theorem naNAndInfiniteScales : Obligations.NaNAndInfiniteScales := by
  refine ⟨fun x y hx => ⟨fun hy => ?_, fun hy h0 => ?_, fun hy h0 => ?_⟩,
    fun x y hx => ⟨fun hy => ?_, fun hy h0 => ?_, fun hy h0 => ?_⟩⟩
  · exact isNaN_fmul32 (mul_of_nan _ hy)
  · exact isNaN_fmul32 (mul_of_zero_inf hx h0 hy)
  · rw [fmul32_toNat (mul_of_inf hx h0 hy) (signed_lt _ _ regular_binary32.infMag_lt_signWeight)]
    cases binary32.neg x.toNat != binary32.neg y.toNat <;> decide
  · exact isNaN_fmul64 (mul_of_nan _ hy)
  · exact isNaN_fmul64 (mul_of_zero_inf hx h0 hy)
  · rw [fmul64_toNat (mul_of_inf hx h0 hy) (signed_lt _ _ regular_binary64.infMag_lt_signWeight)]
    cases binary64.neg x.toNat != binary64.neg y.toNat <;> decide

end Sys2Proof.Proofs
end
